-- ==== Sys2Proof/Word.lean ====
section
/-! DEFINITION. The word types of the SerialPacker CORE (spec/00_scope.md R15): a byte is 8 bits, a
CRC accumulator 16 bits, a command word, a response datum and the millisecond clock 32 bits. -/

namespace Sys2Proof

/-- A byte is 8 bits (R15). -/
abbrev Byte := BitVec 8

/-- A 16-bit quantity: a CRC accumulator, a counter, a watch length, a register operand (R32, R55). -/
abbrev Half := BitVec 16

/-- A 32-bit quantity: a command word, a response datum, the clock input (R86, R107, R108). -/
abbrev Word := BitVec 32

end Sys2Proof
end

