-- ==== Sys2Proof/Syntax.lean ====
section
/-! DEFINITION. The command set (spec/30_encoding.md R101, R102): one constructor per row of
spec/opcode_table.json, its operands as R106 assembles them. -/

namespace Sys2Proof

/-- A command, with its operands (R102, R106). `n` is the 16-bit length zero-extended to 32 bits and `d`
the 16-bit delta sign-extended to 32 bits, as R101 gives them. -/
inductive Instr where
  | nop
  | rxByte (b : Byte)
  | rxReset
  | txStart (n : Word)
  | txByte (b : Byte)
  | txEnd (f : Bool)
  | txCopy (d : Word)
  | crcRestart
  | crcAdd (b : Byte)
  | crcValue
  | regRead (r : Byte)
  | regWrite (r : Byte) (v : Half)
  | bufRead (i : Half)
  | bufWrite (i : Half) (b : Byte)
deriving DecidableEq, Repr

end Sys2Proof
end

