-- ==== Sys2Proof/WellFormed.lean ====
section
/-! DEFINITION. Which command terms have a command word (spec/30_encoding.md R101, R106). Every operand
but two has exactly the width of its field; a length must be a zero-extended 16-bit value and a delta
a sign-extended one. -/

namespace Sys2Proof

/-- R101, format L: `n = zext_32(w[15:0])`, so an operand above 0xFFFF has no word. -/
def lengthOperandOk (n : Word) : Bool := n == (n.setWidth 16).setWidth 32

/-- R101, format S: `d = sext_32(w[15:0])`, so the operand is one of -32768 to +32767. -/
def deltaOperandOk (d : Word) : Bool := d == (d.setWidth 16).signExtend 32

/-- A command term that some command word stands for. -/
def Instr.wf : Instr → Bool
  | .nop => true
  | .rxByte _ => true
  | .rxReset => true
  | .txStart n => lengthOperandOk n
  | .txByte _ => true
  | .txEnd _ => true
  | .txCopy d => deltaOperandOk d
  | .crcRestart => true
  | .crcAdd _ => true
  | .crcValue => true
  | .regRead _ => true
  | .regWrite _ _ => true
  | .bufRead _ => true
  | .bufWrite _ _ => true

end Sys2Proof
end

