-- ==== Sys2Proof/Decode.lean ====
section
/-! DEFINITION. Decoding a command word (spec/30_encoding.md R100 to R106, R103's table) and the encoder
written from the same formats. A word is a 32-bit value on a port, so no byte order applies (R86). -/

namespace Sys2Proof

/-- Why a word decodes to no command (R104). Both answers lead to BAD_CMD, which is a step of the
machine (`Machine.badCmd`), not a stop: safe. -/
inductive DecodeError where
  /-- The opcode is not in R102. -/
  | reservedOpcode (op : Byte)
  /-- The opcode is that of the named command, and a reserved-zero field is not zero. -/
  | reservedField (mnemonic : String)
deriving DecidableEq, Repr

/-! The operand fields of R101 and R106. -/

/-- `op = w[31:24]` (R100). -/
def opField (w : Word) : Byte := w.extractLsb' 24 8

/-- `b = w[7:0]`, used unchanged (formats B and I). -/
def byteField (w : Word) : Byte := w.extractLsb' 0 8

/-- `f = w[0]` (format F). -/
def flagField (w : Word) : Bool := w.getLsbD 0

/-- `v = w[15:0]` (format R), and the raw field of formats L and S. -/
def halfField (w : Word) : Half := w.extractLsb' 0 16

/-- `n = zext_32(w[15:0])` (format L). -/
def lengthField (w : Word) : Word := (halfField w).setWidth 32

/-- `d = sext_32(w[15:0])` (format S). -/
def deltaField (w : Word) : Word := (halfField w).signExtend 32

/-- `r = w[23:16]` (format R). -/
def regField (w : Word) : Byte := w.extractLsb' 16 8

/-- `i = w[23:8]` (format I). -/
def indexField (w : Word) : Half := w.extractLsb' 8 16

/-- One row of R103: a word `w` decodes to the row iff `(w & mask) == pattern`. -/
structure Row where
  mnemonic : String
  pattern : Word
  mask : Word
  build : Word → Instr

/-- R103: `(w & mask) == match`. -/
def Row.admits (r : Row) (w : Word) : Bool := w &&& r.mask == r.pattern

/-- R102 and R103: the opcode map with its matches and masks. -/
def decodeTable : List Row := [
  ⟨"NOP",         0x00000000, 0xFFFFFFFF, fun _ => .nop⟩,
  ⟨"RX_BYTE",     0x01000000, 0xFFFFFF00, fun w => .rxByte (byteField w)⟩,
  ⟨"RX_RESET",    0x02000000, 0xFFFFFFFF, fun _ => .rxReset⟩,
  ⟨"TX_START",    0x10000000, 0xFFFF0000, fun w => .txStart (lengthField w)⟩,
  ⟨"TX_BYTE",     0x11000000, 0xFFFFFF00, fun w => .txByte (byteField w)⟩,
  ⟨"TX_END",      0x12000000, 0xFFFFFFFE, fun w => .txEnd (flagField w)⟩,
  ⟨"TX_COPY",     0x13000000, 0xFFFF0000, fun w => .txCopy (deltaField w)⟩,
  ⟨"CRC_RESTART", 0x20000000, 0xFFFFFFFF, fun _ => .crcRestart⟩,
  ⟨"CRC_ADD",     0x21000000, 0xFFFFFF00, fun w => .crcAdd (byteField w)⟩,
  ⟨"CRC_VALUE",   0x22000000, 0xFFFFFFFF, fun _ => .crcValue⟩,
  ⟨"REG_READ",    0x30000000, 0xFF00FFFF, fun w => .regRead (regField w)⟩,
  ⟨"REG_WRITE",   0x31000000, 0xFF000000, fun w => .regWrite (regField w) (halfField w)⟩,
  ⟨"BUF_READ",    0x32000000, 0xFF0000FF, fun w => .bufRead (indexField w)⟩,
  ⟨"BUF_WRITE",   0x33000000, 0xFF000000, fun w => .bufWrite (indexField w) (byteField w)⟩]

/-- R104: which of the two reasons makes a word illegal. -/
def rejection (w : Word) : DecodeError :=
  match decodeTable.find? (fun r => opField r.pattern == opField w) with
  | some r => .reservedField r.mnemonic
  | none => .reservedOpcode (opField w)

/-- R103, R104: the command a word decodes to, or why it decodes to none. -/
def decode (w : Word) : Except DecodeError Instr :=
  match decodeTable.find? (fun r => r.admits w) with
  | some r => .ok (r.build w)
  | none => .error (rejection w)

/-! The encoder, from the formats of R101 and the opcodes of R102. -/

/-- Format N, F and the frame of every other format: the opcode in `w[31:24]`, zeros below. -/
def opWord (op : Byte) : Word := op.setWidth 32 <<< 24

/-- Formats B, L, S: a low field of at most 16 bits under the opcode. -/
def lowWord (op : Byte) (low : Half) : Word := opWord op ||| low.setWidth 32

/-- Format R: register number in `w[23:16]`, value in `w[15:0]`. -/
def regWord (op r : Byte) (v : Half) : Word := opWord op ||| r.setWidth 32 <<< 16 ||| v.setWidth 32

/-- Format I: buffer index in `w[23:8]`, byte in `w[7:0]`. -/
def indexWord (op : Byte) (i : Half) (b : Byte) : Word :=
  opWord op ||| i.setWidth 32 <<< 8 ||| b.setWidth 32

/-- The command word of a well-formed command (R101, R102). -/
def encode : Instr → Word
  | .nop => opWord 0x00
  | .rxByte b => lowWord 0x01 (b.setWidth 16)
  | .rxReset => opWord 0x02
  | .txStart n => lowWord 0x10 (n.setWidth 16)
  | .txByte b => lowWord 0x11 (b.setWidth 16)
  | .txEnd f => lowWord 0x12 (if f then 1 else 0)
  | .txCopy d => lowWord 0x13 (d.setWidth 16)
  | .crcRestart => opWord 0x20
  | .crcAdd b => lowWord 0x21 (b.setWidth 16)
  | .crcValue => opWord 0x22
  | .regRead r => regWord 0x30 r 0
  | .regWrite r v => regWord 0x31 r v
  | .bufRead i => indexWord 0x32 i 0
  | .bufWrite i b => indexWord 0x33 i b

/-- The command word that an opcode-table row of `nbits` bits with the bits `w` stands for: every bit at
or above `nbits` is 0 (R100: every command is one 32-bit word). -/
def tableWord (nbits w : Nat) : Word := BitVec.ofNat 32 (w % 2 ^ nbits)

/-- The command the decoder reads from the bits `w` of an opcode-table row; none where it refuses, or
where the bits make no 32-bit word. -/
def decodeTableWord (nbits w : Nat) : Option Instr :=
  if w % 2 ^ nbits < 2 ^ 32 then (decode (tableWord nbits w)).toOption else none

end Sys2Proof
end

