-- ==== Sys2Proof/Config.lean ====
section
/-! DEFINITION. The implementation parameters of one block instance (spec/00_scope.md R9 to R13), the
constraints that make a set of them an instance (R11), the reference instances of R23, and the two
values the spec leaves open: which instance the hardware is, and what the receive buffer holds after
a reset. Neither has a body, so no proof can lean on a value. -/

namespace Sys2Proof.Config

/-- R9 `BREAK_MODE` with its two corruption values: a byte each in FOLD mode, a 16-bit mask each in XOR
mode. The first value is `BRK_BROKEN` (a frame the caller marks broken), the second `BRK_TRUNC` (a
truncated, padded frame). Equal values are the "single" policy of R12, different ones the "multiple". -/
inductive BreakMode where
  | fold (brkBroken brkTrunc : Byte)
  | xor (brkBroken brkTrunc : Half)
deriving DecidableEq, Repr, Inhabited

/-- R9: the raw parameter set `P`. `CLK_W = 32` and `CNT_W = 16` are fixed by the spec (D6, D18) and are
the widths of the types that hold the timestamp and the counters. -/
structure Params where
  /-- `BUF_CAP`: capacity of the receive buffer in bytes. -/
  bufCap : Nat
  /-- `MAX_PACKET`: the largest payload, in bytes. -/
  maxPacket : Nat
  /-- `MARKER_EN`: a frame-start marker is configured. -/
  markerEn : Bool
  /-- `MARKER`: the marker byte. -/
  marker : Byte
  /-- `STUFF_EN`: the byte-stuffing mode is enabled. -/
  stuffEn : Bool
  /-- `ESC`: the escape byte of the stuffing mode. -/
  esc : Byte
  /-- `MAX_DELAY`: the largest gap between two bytes of one frame, in clock units. -/
  maxDelay : Word
  /-- `CRC_POLY`: the generator polynomial without its x^16 term. -/
  crcPoly : Half
  /-- `BREAK_MODE`, `BRK_BROKEN` and `BRK_TRUNC`. -/
  breakMode : BreakMode
deriving DecidableEq, Repr, Inhabited

/-- R11 (d): in XOR mode both masks differ from 0. -/
def BreakMode.wf : BreakMode → Bool
  | .fold _ _ => true
  | .xor broken trunc => broken != 0 && trunc != 0

/-- R11: the constraints (a) to (d) that a parameter set must satisfy. -/
def Params.wf (p : Params) : Bool :=
  (decide (1 ≤ p.maxPacket) && decide (p.maxPacket ≤ 16383)) &&
  decide (p.bufCap ≤ 16383) &&
  (!p.stuffEn ||
    (p.markerEn && p.marker.getLsbD 7 && p.esc.getLsbD 7 && p.esc != p.marker)) &&
  p.breakMode.wf

/-- R10: `LONG_LEN = (MAX_PACKET > 127)`, the length field may have two bytes. -/
def Params.longLen (p : Params) : Bool := decide (127 < p.maxPacket)

/-- R11: a block instance. An ill-formed parameter set cannot be built into one ("a model refuses to
build it"): the instance carries the check. The default values of the two fields serve only to show
that an instance exists, which `inst` below needs; they are used nowhere else. -/
structure Instance where
  params : Params :=
    { bufCap := 0, maxPacket := 1, markerEn := false, marker := 0, stuffEn := false, esc := 0,
      maxDelay := 0, crcPoly := 0, breakMode := .fold 0 0 }
  wf : params.wf = true := by decide
deriving DecidableEq, Repr, Inhabited

/-- The instance this hardware is. OPEN in the spec (R9, D5, D10, D35): a constant with no body, so that
whatever is proved of `State.reset` is proved whatever the parameters are (assumption log 1). -/
opaque inst : Instance

/-- What the receive buffer holds at an index that nothing has written since the `n`-th reset: a free
value, one byte per index drawn at each reset (R58, D27; assumption log 2). -/
opaque initialByte (n index : Nat) : Byte

/-! The reference instances of R23: parameter sets for examples and test vectors, "not values the
source gives for the hardware" (D34). -/

/-- R23 REF-A. -/
def refA : Instance where
  params :=
    { bufCap := 16, maxPacket := 127, markerEn := false, marker := 0x00, stuffEn := false, esc := 0x00,
      maxDelay := 10, crcPoly := 0x1021, breakMode := .fold 0x01 0x02 }
  wf := by decide

/-- R23 REF-P: REF-A with the other polynomial. -/
def refP : Instance where
  params := { refA.params with crcPoly := 0x8005 }
  wf := by decide

/-- R23 REF-L: two-byte lengths, no marker. -/
def refL : Instance where
  params := { refA.params with bufCap := 8, maxPacket := 300 }
  wf := by decide

/-- R23 REF-B: two-byte lengths and byte stuffing together. -/
def refB : Instance where
  params :=
    { refA.params with
      bufCap := 8, maxPacket := 300, markerEn := true, marker := 0xC0, stuffEn := true, esc := 0xDB }
  wf := by decide

/-- R23 REF-C: a marker, no stuffing. -/
def refC : Instance where
  params := { refA.params with markerEn := true, marker := 0x7E }
  wf := by decide

/-- R23 REF-X: REF-A with XOR marking of broken frames. -/
def refX : Instance where
  params := { refA.params with breakMode := .xor 0x0001 0x0002 }
  wf := by decide

end Sys2Proof.Config
end

