-- ==== Sys2Proof/Machine/State.lean ====
section
/-! DEFINITION. The state of the block: the state vector of spec/10_state.md R32, the ports of
spec/00_scope.md R4 (command queue, clock input, response, output stream), the instance the state
belongs to, and the reset state (R58, R310). -/

namespace Sys2Proof.Machine

/-- R33: the eight receiver states. -/
inductive RxState where
  | idle | len1 | len2 | data0 | data | crc1 | crc2 | error
deriving DecidableEq, Repr

/-- R282: the ten error codes. Codes 10 to 15 are never produced, so the type has no more (spec/93). -/
inductive ErrCode where
  | ok | badCmd | badReg | readOnly | badIndex | txBusy | txNotOpen | txOverrun | txLen | copyIllegal
deriving DecidableEq, Repr

/-- R108, R281: the response of one command. -/
structure Response where
  err : ErrCode
  data : Word
deriving DecidableEq, Repr

/-- What the host presents to the block, one item per step (R4, R91, R301, R310). -/
inductive HostInput where
  /-- A command word, and what the clock input shows while it is performed (R107). -/
  | command (w : Word) (now : Word)
  /-- The reset input is asserted (R310). -/
  | reset
deriving DecidableEq, Repr

/-- One byte of the receive buffer at its index. -/
abbrev Cell := Host.Cell

/-- The Receiver Context (R30, R32): the fields of unit "receiver" in R32's table. -/
structure Receiver where
  /-- `rx_state`, R33. -/
  state : RxState
  /-- `rx_pos`, R34. -/
  pos : BitVec 14
  /-- `rx_len`, R35. -/
  len : BitVec 15
  /-- `rx_crc`, R36. -/
  crc : Half
  /-- `rx_flen`, R37. -/
  flen : BitVec 14
  /-- `rx_ts`, R38. -/
  ts : Word
  /-- `rx_hdr_fired`, R39. -/
  hdrFired : Bool
  /-- `rx_read_fired`, R39. -/
  readFired : Bool
  /-- `rx_esc`, R40. -/
  esc : Bool
  /-- `hdr_len`, R41. -/
  hdrLen : Half
  /-- `read_len`, R42. -/
  readLen : Half
  /-- `cnt_timeout`, R43, R52. -/
  cntTimeout : Half
  /-- `cnt_junk`, R43, R52. -/
  cntJunk : Half
  /-- `cnt_crc`, R43, R52. -/
  cntCrc : Half
  /-- `cnt_overrun`, R43, R52. -/
  cntOverrun : Half
  /-- `buf`, R44: the bytes written since the last reset, by index, indices strictly rising. -/
  buf : List Cell
  /-- The model's own: how many resets there were before the last one; it selects the free bytes that the
  buffer holds where nothing has written it (R58; assumption log 2). -/
  draws : Nat
deriving DecidableEq, Repr

/-- The Sender Context (R30, R32), with the output stream it writes to. -/
structure Sender where
  /-- `tx_open`, R45. -/
  isOpen : Bool
  /-- `tx_copy`, R46. -/
  copy : Bool
  /-- `tx_ovr`, R49. -/
  ovr : Bool
  /-- `tx_remain`, R47. -/
  remain : BitVec 14
  /-- `tx_crc`, R48. -/
  crc : Half
  /-- Port: the output byte stream `txout`, oldest byte first (R4, R92, R97, R220). -/
  out : List Byte
deriving DecidableEq, Repr

/-- The state of one block instance, with its ports. Plain data. -/
structure State where
  /-- The instance parameters `P` (R9). Not state: no step and no reset writes them (R263, R313). They
  stand here because the form of `exec` and `step` leaves `P` no other way in (assumption log 1). -/
  inst : Config.Instance
  /-- The receiver. -/
  rx : Receiver
  /-- The sender. -/
  tx : Sender
  /-- `aux_crc`, R50. -/
  auxCrc : Half
  /-- `last_err`, R51. -/
  lastErr : ErrCode
  /-- Port: the clock input, as presented with the current command (R4, R107). -/
  now : Word
  /-- Port: what the host has issued and the block has not yet performed, oldest first (R301). -/
  queue : List HostInput
  /-- Port: the response of the last command, none before the first (R108, R281). -/
  resp : Option Response
deriving DecidableEq, Repr

/-- Why a step stops with a fault: never. The block has no fatal condition and no trap (R280, R296), so
the type is empty. -/
inductive Fault
deriving DecidableEq, Repr

/-- Why a step has no meaning. -/
inductive Refusal where
  /-- Raised only by an arm of `exec` whose command has no meaning yet; no arm is left so. Safe. -/
  | notModelled (mnemonic : String)
deriving DecidableEq, Repr

/-- R32, R310: the Receiver Context after a reset: IDLE, every number 0, every flag 0, nothing written in
the buffer. -/
def Receiver.reset (draws : Nat) : Receiver where
  state := .idle
  pos := 0
  len := 0
  crc := 0
  flen := 0
  ts := 0
  hdrFired := false
  readFired := false
  esc := false
  hdrLen := 0
  readLen := 0
  cntTimeout := 0
  cntJunk := 0
  cntCrc := 0
  cntOverrun := 0
  buf := []
  draws := draws

/-- R32, R310: the Sender Context after a reset. What was put out before stays out (R311). -/
def Sender.reset (out : List Byte) : Sender where
  isOpen := false
  copy := false
  ovr := false
  remain := 0
  crc := 0
  out := out

/-- R32, R58, R310: the state right after the first reset of an instance, its ports empty. -/
def State.resetWith (inst : Config.Instance) : State where
  inst := inst
  rx := Receiver.reset 0
  tx := Sender.reset []
  auxCrc := 0
  lastErr := .ok
  now := 0
  queue := []
  resp := none

/-- The machine right after its first reset, for the instance this hardware is. -/
def State.reset : State := State.resetWith Config.inst

/-- The parameters `P` of R9. -/
abbrev State.p (s : State) : Config.Params := s.inst.params

end Sys2Proof.Machine
end

