-- ==== Sys2Proof/Machine/Operands.lean ====
section
/-! DEFINITION. How the block's values are read as bits and bits as values: the codes of the receiver
states and errors (spec/10_state.md R33, spec/60_exceptions.md R282), the wire's length field
(spec/30_encoding.md R121, R123), the byte-stuffing transform (R126) and the register map
(spec/10_state.md R55, R56). -/

namespace Sys2Proof.Machine

/-- R33: the 3-bit code of a receiver state. -/
def RxState.code : RxState → BitVec 3
  | .idle => 0
  | .len1 => 1
  | .len2 => 2
  | .data0 => 3
  | .data => 4
  | .crc1 => 5
  | .crc2 => 6
  | .error => 7

/-- R282: the 4-bit code of an error. -/
def ErrCode.code : ErrCode → BitVec 4
  | .ok => 0
  | .badCmd => 1
  | .badReg => 2
  | .readOnly => 3
  | .badIndex => 4
  | .txBusy => 5
  | .txNotOpen => 6
  | .txOverrun => 7
  | .txLen => 8
  | .copyIllegal => 9

/-! The length field. -/

/-- R121: the transmitter's length field, one byte up to 127 and two above. -/
def lengthBytes (n : BitVec 14) : List Byte :=
  if n.toNat ≤ 127 then [n.setWidth 8] else [n.setWidth 8 &&& 0x7F ||| 0x80, (n >>> 7).setWidth 8]

/-- R123, R180: a first length byte announces a second one. -/
def secondLengthByteFollows (p : Config.Params) (b1 : Byte) : Bool := p.longLen && b1.getLsbD 7

/-- R180: what a first length byte puts into `rx_len`: its low 7 bits if a second byte follows, all of
it otherwise. -/
def firstLengthPart (p : Config.Params) (b1 : Byte) : BitVec 15 :=
  if secondLengthByteFollows p b1 then (b1 &&& 0x7F).setWidth 15 else b1.setWidth 15

/-- R182: the second length byte, whole, above the first one's low 7 bits. -/
def withSecondLengthPart (len : BitVec 15) (b2 : Byte) : BitVec 15 := len ||| b2.setWidth 15 <<< 7

/-! The stuffing transform. -/

/-- R126, R222: a body byte that must be escaped on the wire. -/
def needsEscape (p : Config.Params) (x : Byte) : Bool := p.stuffEn && (x == p.marker || x == p.esc)

/-- R126, R222: what a sender puts after ESC. -/
def clearTop (x : Byte) : Byte := x &&& 0x7F

/-- R126, R171: what a receiver makes of the byte after ESC. -/
def restoreTop (y : Byte) : Byte := y ||| 0x80

/-! The register map. -/

/-- R55: the registers, by name. -/
inductive Reg where
  | rxState | rxPos | rxLen | rxCrc | rxFlen | rxTs | rxFlags | hdrLen | readLen
  | cntTimeout | cntJunk | cntCrc | cntOverrun | txFlags | txRemain | txCrc | auxCrc | lastErr
deriving DecidableEq, Repr

/-- R55: the register a number names; none for a reserved number. -/
def Reg.ofNumber (r : Byte) : Option Reg :=
  match r.toNat with
  | 0x00 => some .rxState
  | 0x01 => some .rxPos
  | 0x02 => some .rxLen
  | 0x03 => some .rxCrc
  | 0x04 => some .rxFlen
  | 0x05 => some .rxTs
  | 0x06 => some .rxFlags
  | 0x08 => some .hdrLen
  | 0x09 => some .readLen
  | 0x10 => some .cntTimeout
  | 0x11 => some .cntJunk
  | 0x12 => some .cntCrc
  | 0x13 => some .cntOverrun
  | 0x20 => some .txFlags
  | 0x21 => some .txRemain
  | 0x22 => some .txCrc
  | 0x30 => some .auxCrc
  | 0x3F => some .lastErr
  | _ => none

/-- R55, R56: what a register write does to the state; none for a register marked RO. A write keeps the
low bits of the operand up to the field width, and every RW field is 16 bits wide. -/
def Reg.write? (v : Half) (s : State) : Reg → Option State
  | .hdrLen => some { s with rx.hdrLen := v }
  | .readLen => some { s with rx.readLen := v }
  | .cntTimeout => some { s with rx.cntTimeout := v }
  | .cntJunk => some { s with rx.cntJunk := v }
  | .cntCrc => some { s with rx.cntCrc := v }
  | .cntOverrun => some { s with rx.cntOverrun := v }
  | .rxState | .rxPos | .rxLen | .rxCrc | .rxFlen | .rxTs | .rxFlags | .txFlags | .txRemain | .txCrc
  | .auxCrc | .lastErr => none

end Sys2Proof.Machine
end

