-- ==== Sys2Proof/Machine/Flags.lean ====
section
/-! DEFINITION. The CRC fold (spec/40_crc.md R150 to R152) and the flags that leave the block as words:
the packed flag registers (spec/10_state.md R53, R55), the value a register read returns, and the
milestone bits of an RX_BYTE response (spec/60_exceptions.md R290, spec/41_receiver.md R194). The block
has no condition codes (R53). -/

namespace Sys2Proof.Machine

/-! The CRC. -/

/-- One turn of R150's loop: shift in bit `x`, feeding the polynomial back. -/
def crcShift (poly c : Half) (x : Bool) : Half :=
  if (c.getLsbD 15 ^^ x) = true then c <<< 1 ^^^ poly else c <<< 1

/-- R150: `crc16_add(c, b)`, the byte's most significant bit first. -/
def crc16Add (poly c : Half) (b : Byte) : Half :=
  [7, 6, 5, 4, 3, 2, 1, 0].foldl (fun c i => crcShift poly c (b.getLsbD i)) c

/-- R151: the seed of every accumulator. -/
def crcSeed : Half := 0

/-- R152: `T[i]`, the state reached from `i << 12` after four shifts. -/
def crcTable (poly : Half) (i : BitVec 4) : Half :=
  [false, false, false, false].foldl (crcShift poly) (i.setWidth 16 <<< 12)

/-- R152: one table lookup, for the nibble `n`. -/
def crcNibble (poly c : Half) (n : BitVec 4) : Half :=
  c <<< 4 ^^^ crcTable poly (c.extractLsb' 12 4 ^^^ n)

/-- R152: the nibble method, high nibble first. A conformant method, not the normative one. -/
def crc16AddNibble (poly c : Half) (b : Byte) : Half :=
  crcNibble poly (crcNibble poly c (b.extractLsb' 4 4)) (b.extractLsb' 0 4)

/-! The packed flags and the register values. -/

/-- A flag as the low bit of a word. -/
def flagBit (f : Bool) (i : Nat) : Word := (BitVec.ofBool f).setWidth 32 <<< i

/-- R55 RX_FLAGS: bit 0 `rx_hdr_fired`, bit 1 `rx_read_fired`, bit 2 `rx_esc`. -/
def rxFlagsWord (r : Receiver) : Word :=
  flagBit r.hdrFired 0 ||| flagBit r.readFired 1 ||| flagBit r.esc 2

/-- R55 TX_FLAGS: bit 0 `tx_open`, bit 1 `tx_copy`, bit 2 `tx_ovr`. -/
def txFlagsWord (t : Sender) : Word :=
  flagBit t.isOpen 0 ||| flagBit t.copy 1 ||| flagBit t.ovr 2

/-- R55, R260: the value a register read returns, the field zero-extended to 32 bits. -/
def Reg.read (s : State) : Reg → Word
  | .rxState => s.rx.state.code.setWidth 32
  | .rxPos => s.rx.pos.setWidth 32
  | .rxLen => s.rx.len.setWidth 32
  | .rxCrc => s.rx.crc.setWidth 32
  | .rxFlen => s.rx.flen.setWidth 32
  | .rxTs => s.rx.ts
  | .rxFlags => rxFlagsWord s.rx
  | .hdrLen => s.rx.hdrLen.setWidth 32
  | .readLen => s.rx.readLen.setWidth 32
  | .cntTimeout => s.rx.cntTimeout.setWidth 32
  | .cntJunk => s.rx.cntJunk.setWidth 32
  | .cntCrc => s.rx.cntCrc.setWidth 32
  | .cntOverrun => s.rx.cntOverrun.setWidth 32
  | .txFlags => txFlagsWord s.tx
  | .txRemain => s.tx.remain.setWidth 32
  | .txCrc => s.tx.crc.setWidth 32
  | .auxCrc => s.auxCrc.setWidth 32
  | .lastErr => s.lastErr.code.setWidth 32

/-! Milestone events. -/

/-- R290: the milestones raised in the current step. Not state: they are not latched (R291). -/
structure Events where
  hdr : Bool := false
  read : Bool := false
  frame : Bool := false
deriving DecidableEq, Repr

/-- No milestone. -/
def Events.none : Events := {}

/-- R194, R290: the data word of an RX_BYTE response: bit 0 HDR, bit 1 READ, bit 2 FRAME. -/
def Events.word (e : Events) : Word := flagBit e.hdr 0 ||| flagBit e.read 1 ||| flagBit e.frame 2

end Sys2Proof.Machine
end

