-- ==== Sys2Proof/Machine/Ops.lean ====
section
/-! DEFINITION. The block-level primitives every command is made of (spec/00_scope.md R16 to R18): the
response, the diagnostic counters, the receive buffer, and what the ports do around a command. The
block has no trap (spec/60_exceptions.md R296): the one way an error is taken is `refuse`. -/

namespace Sys2Proof.Machine

/-! Responses. -/

/-- R51, R281: the end of every command: `last_err <- e; respond(e, d)`. -/
def respond (e : ErrCode) (d : Word) (s : State) : State :=
  { s with lastErr := e, resp := some ⟨e, d⟩ }

/-- A command performed, with no data (R108). -/
def done (s : State) : State := respond .ok 0 s

/-- R18, R283: a command refused: its code, no data and no other change. -/
def refuse (e : ErrCode) (s : State) : State := respond e 0 s

/-- R104: a word that decodes to no command. -/
def badCmd (s : State) : State := refuse .badCmd s

/-! Diagnostic counters. -/

/-- R43, R52: the four diagnostic counters. -/
inductive Counter where
  | timeout | junk | crc | overrun
deriving DecidableEq, Repr

/-- R18, R52: `count(k)`, modulo 2^16. -/
def count (k : Counter) (r : Receiver) : Receiver :=
  match k with
  | .timeout => { r with cntTimeout := r.cntTimeout + 1 }
  | .junk => { r with cntJunk := r.cntJunk + 1 }
  | .crc => { r with cntCrc := r.cntCrc + 1 }
  | .overrun => { r with cntOverrun := r.cntOverrun + 1 }

/-! The receive buffer. It lists the bytes written since the last reset, by index, in strictly rising
order. An index that is not listed has no value of its own: nothing has written it, and reading it gives
the free byte drawn for it at the reset (R58, R264; assumption log 2). -/

/-- The byte written last at an index; none if nothing has written it. -/
def Memory.find (i : Nat) : List Cell → Option Byte
  | [] => none
  | c :: m => if c.1 = i then some c.2 else Memory.find i m

/-- The list with one byte set, in canonical form. -/
def Memory.insert (i : Nat) (v : Byte) : List Cell → List Cell
  | [] => [(i, v)]
  | c :: m =>
    if i < c.1 then (i, v) :: c :: m
    else if c.1 = i then (i, v) :: m
    else c :: Memory.insert i v m

/-- Every index of the list lies above `i`, and they rise strictly. -/
def Memory.risesAbove (i : Nat) : List Cell → Bool
  | [] => true
  | c :: m => decide (i < c.1) && Memory.risesAbove c.1 m

/-- The canonical form: indices strictly rising. An unlisted index has no value, so no entry can equal
what an unlisted index reads as. -/
def Memory.wf : List Cell → Bool
  | [] => true
  | c :: m => Memory.risesAbove c.1 m

/-- Every listed index exists (R80, R88). -/
def Memory.within (cap : Nat) (m : List Cell) : Bool := m.all fun c => decide (c.1 < cap)

/-- R17 `MemRead(i, 1)`, for `i < BUF_CAP`. -/
def memRead (i : Nat) (r : Receiver) : Byte :=
  (Memory.find i r.buf).getD (Config.initialByte r.draws i)

/-- R17 `MemWrite(i, 1, v)`, for `i < BUF_CAP`. -/
def memWrite (i : Nat) (v : Byte) (r : Receiver) : Receiver :=
  { r with buf := Memory.insert i v r.buf }

/-! The ports around a command. -/

/-- The host's next command is taken from the queue, and the clock input shows what it shows while the
command is performed (R91, R107). -/
def present (now : Word) (rest : List HostInput) (s : State) : State :=
  { s with now := now, queue := rest }

/-- R310, R311, R313: the reset input. Every field of the state vector takes its reset value, a frame in
flight is abandoned with no trailer, no byte is emitted and no event raised; the parameters stay, and
the buffer's contents are drawn anew. What was already put out stays out. -/
def blockReset (rest : List HostInput) (s : State) : State where
  inst := s.inst
  rx := Receiver.reset (s.rx.draws + 1)
  tx := Sender.reset s.tx.out
  auxCrc := 0
  lastErr := .ok
  now := s.now
  queue := rest
  resp := none

end Sys2Proof.Machine
end

