-- ==== Sys2Proof/Machine/CrcUnit.lean ====
section
/-! DEFINITION. The host's CRC commands (spec/40_crc.md R157 to R159), on `aux_crc` only (R50). -/

namespace Sys2Proof.Machine

/-- R157 CRC_RESTART. -/
def execCrcRestart (s : State) : Host.Outcome State Fault Refusal :=
  .next (done { s with auxCrc := crcSeed })

/-- R158 CRC_ADD b. -/
def execCrcAdd (b : Byte) (s : State) : Host.Outcome State Fault Refusal :=
  .next (done { s with auxCrc := crc16Add s.p.crcPoly s.auxCrc b })

/-- R159 CRC_VALUE. -/
def execCrcValue (s : State) : Host.Outcome State Fault Refusal :=
  .next (respond .ok (s.auxCrc.setWidth 32) s)

end Sys2Proof.Machine
end

