-- ==== Sys2Proof/Machine/Transmitter.lean ====
section
/-! DEFINITION. The frame transmitter and the relay (spec/42_transmitter.md R220 to R244): the output
primitives, opening and closing a frame, and TX_START, TX_BYTE, TX_END, TX_COPY. -/

namespace Sys2Proof.Machine

/-! Output primitives. -/

/-- R220 `emit(x)`: the only way a byte reaches the output. -/
def emit (x : Byte) (t : Sender) : Sender := { t with out := t.out ++ [x] }

/-- R222 `emit_body(x)`: one body byte, stuffed where stuffing is on. -/
def emitBody (p : Config.Params) (x : Byte) (t : Sender) : Sender :=
  if needsEscape p x then emit (clearTop x) (emit p.esc t) else emit x t

/-- R221 `tx_send(x)`: one logical body byte that the CRC covers. -/
def txSend (p : Config.Params) (x : Byte) (t : Sender) : Sender :=
  emitBody p x { t with crc := crc16Add p.crcPoly t.crc x }

/-- R228 `tx_put(v)`: the payload path, with the overrun of R227. -/
def txPut (p : Config.Params) (v : Byte) (t : Sender) : ErrCode × Sender :=
  if t.remain = 0 then (.txOverrun, { t with ovr := true })
  else
    let t := txSend p v t
    (.ok, { t with remain := t.remain - 1 })

/-! Opening a frame. -/

/-- R223 `tx_begin(n)`: the marker, never stuffed, then the length field under a fresh CRC. -/
def txBegin (p : Config.Params) (n : BitVec 14) (t : Sender) : Sender :=
  let t := if p.markerEn then emit p.marker t else t
  let t := { t with crc := crcSeed }
  let t := (lengthBytes n).foldl (fun t x => txSend p x t) t
  { t with remain := n, isOpen := true, copy := false, ovr := false }

/-! Closing a frame. -/

/-- R229: `k` zero bytes of padding, each folded, emitted and counted down. -/
def txPad (p : Config.Params) : Nat → Sender → Sender
  | 0, t => t
  | k + 1, t =>
    let t := txSend p 0x00 t
    txPad p k { t with remain := t.remain - 1 }

/-- R230: the corruption mark and the trailer value. In FOLD mode the mark goes into `tx_crc`; in XOR
mode only the trailer carries it. -/
def markTrailer (p : Config.Params) (trunc broken : Bool) (t : Sender) : Sender × Half :=
  match p.breakMode with
  | .fold brkBroken brkTrunc =>
    let c :=
      if trunc then crc16Add p.crcPoly t.crc brkTrunc
      else if broken then crc16Add p.crcPoly t.crc brkBroken
      else t.crc
    ({ t with crc := c }, c)
  | .xor brkBroken brkTrunc =>
    (t, t.crc ^^^ (if trunc then brkTrunc else if broken then brkBroken else 0x0000))

/-- R230 `tx_close(broken)`: pad, mark, and emit the trailer, high byte first (R83), stuffed. -/
def txClose (p : Config.Params) (broken : Bool) (t : Sender) : Sender :=
  let trunc := t.remain != 0
  let t := txPad p t.remain.toNat t
  let m := markTrailer p trunc broken t
  let t := emitBody p (m.2.extractLsb' 0 8) (emitBody p (m.2.extractLsb' 8 8) m.1)
  { t with isOpen := false, copy := false }

/-! The relay. -/

/-- R239 `copy_point()`. -/
def copyPoint (s : State) : Bool :=
  s.rx.hdrFired &&
  (s.rx.state == .data || s.rx.state == .crc1 || s.rx.state == .crc2) &&
  (decide (s.rx.pos.toNat = s.rx.hdrLen.toNat) || decide (s.rx.len = 0)) &&
  decide (s.rx.pos.toNat ≤ s.p.bufCap)

/-- R238: the relayed frame's length, `rx_len + d` as an exact signed integer. -/
def relayLength (d : Word) (s : State) : Int := s.rx.len.toNat + d.toInt

/-- R240: the header copy, `tx_put(MemRead(i, 1))` for `i` from 0 to `k - 1`. -/
def copyHeader (p : Config.Params) (r : Receiver) (k : Nat) (t : Sender) : Sender :=
  (List.range k).foldl (fun t i => (txPut p (memRead i r) t).2) t

/-! The commands. -/

/-- R224 TX_START n. -/
def execTxStart (n : Word) (s : State) : Host.Outcome State Fault Refusal :=
  .next (if s.tx.isOpen then refuse .txBusy s
    else if s.p.maxPacket < n.toNat then refuse .txLen s
    else done { s with tx := txBegin s.p (n.setWidth 14) s.tx })

/-- R226 TX_BYTE b. -/
def execTxByte (b : Byte) (s : State) : Host.Outcome State Fault Refusal :=
  .next (if s.tx.isOpen then
      let r := txPut s.p b s.tx
      respond r.1 0 { s with tx := r.2 }
    else refuse .txNotOpen s)

/-- R232 TX_END f. -/
def execTxEnd (f : Bool) (s : State) : Host.Outcome State Fault Refusal :=
  .next (if !s.tx.isOpen then refuse .txNotOpen s
    else if s.tx.copy then refuse .txBusy s
    else done { s with tx := txClose s.p f s.tx })

/-- R238 TX_COPY d. -/
def execTxCopy (d : Word) (s : State) : Host.Outcome State Fault Refusal :=
  .next (if s.tx.isOpen then refuse .txBusy s
    else if !copyPoint s then refuse .copyIllegal s
    else if relayLength d s < s.rx.pos.toNat then refuse .copyIllegal s
    else if (s.p.maxPacket : Int) < relayLength d s then refuse .txLen s
    else
      let t := txBegin s.p (BitVec.ofInt 14 (relayLength d s)) s.tx
      let t := copyHeader s.p s.rx s.rx.pos.toNat t
      done { s with tx := { t with copy := true } })

end Sys2Proof.Machine
end

