-- ==== Sys2Proof/Machine/Receiver.lean ====
section
/-! DEFINITION. The frame receiver and the timeout guard (spec/41_receiver.md R170 to R196): RX_BYTE and
RX_RESET. An arm answers the state it leaves and the milestones it raises. -/

namespace Sys2Proof.Machine

/-- R176 `frame_start()`. -/
def frameStart (r : Receiver) : Receiver :=
  { r with crc := crcSeed, pos := 0, len := 0, hdrFired := false, readFired := false, esc := false }

/-- An open relay is closed (R177, R191, R192); with none open nothing changes. -/
def endRelay (broken : Bool) (s : State) : State :=
  if s.tx.copy then { s with tx := txClose s.p broken s.tx } else s

/-- R177 `abort()`: an open relay is closed as broken, and the partial frame is discarded. -/
def abort (s : State) : State :=
  let s := endRelay true s
  { s with rx.state := .idle, rx.esc := false }

/-! The timeout guard. -/

/-- R172: the clock units since the previous RX_BYTE, modulo 2^32. -/
def elapsed (s : State) : Word := s.now - s.rx.ts

/-- R173: a frame is in progress and the gap before this byte is longer than MAX_DELAY. -/
def timedOut (s : State) : Bool := s.rx.state != .idle && decide (s.p.maxDelay < elapsed s)

/-- R173, R174: the guard, and the timestamp written after it. -/
def timeoutGuard (s : State) : State :=
  let s := if timedOut s then abort { s with rx := count .timeout s.rx } else s
  { s with rx.ts := s.now }

/-! The state arms. -/

/-- R179, R180 LEN1. -/
def len1Arm (v : Byte) (s : State) : State × Events :=
  if v = 0 then ({ s with rx := { count .junk s.rx with state := .idle } }, .none)
  else
    ({ s with
        rx.crc := crc16Add s.p.crcPoly s.rx.crc v
        rx.len := firstLengthPart s.p v
        rx.state := if secondLengthByteFollows s.p v then .len2 else .data0 }, .none)

/-- R182 LEN2. -/
def len2Arm (v : Byte) (s : State) : State × Events :=
  ({ s with
      rx.crc := crc16Add s.p.crcPoly s.rx.crc v
      rx.len := withSecondLengthPart s.rx.len v
      rx.state := .data0 }, .none)

/-- R186: a payload byte is stored while capacity remains, and counted as an overrun otherwise. -/
def storePayload (p : Config.Params) (v : Byte) (r : Receiver) : Receiver :=
  if r.pos.toNat < p.bufCap then memWrite r.pos.toNat v r else count .overrun r

/-- R187: HDR fires now. -/
def hdrFires (r : Receiver) : Bool := !r.hdrFired && decide (r.hdrLen.toNat = r.pos.toNat)

/-- R188: READ fires now. -/
def readFires (r : Receiver) : Bool := !r.readFired && decide (r.readLen.toNat = r.pos.toNat)

/-- R189: a payload byte goes out on an open relay at once. -/
def forward (v : Byte) (s : State) : State :=
  if s.tx.copy then { s with tx := (txPut s.p v s.tx).2 } else s

/-- R186 to R189 DATA. -/
def dataArm (v : Byte) (s : State) : State × Events :=
  let r := { s.rx with crc := crc16Add s.p.crcPoly s.rx.crc v }
  let r := storePayload s.p v r
  let r := { r with pos := r.pos + 1 }
  let hdr := hdrFires r
  let r := { r with hdrFired := r.hdrFired || hdr }
  let read := readFires r
  let r := { r with readFired := r.readFired || read }
  let s := forward v { s with rx := r }
  let s := if s.rx.pos.toNat = s.rx.len.toNat then { s with rx.state := .crc1 } else s
  (s, { hdr := hdr, read := read })

/-- R190 CRC1. -/
def crc1Arm (v : Byte) (s : State) : State × Events :=
  ({ s with rx.crc := crc16Add s.p.crcPoly s.rx.crc v, rx.state := .crc2 }, .none)

/-- R191, R192 CRC2: an open relay ends clean on accept and broken on reject. -/
def crc2Arm (v : Byte) (s : State) : State × Events :=
  let s := { s with rx.crc := crc16Add s.p.crcPoly s.rx.crc v }
  if s.rx.crc = 0 then
    let s := endRelay false { s with rx.flen := s.rx.pos }
    ({ s with rx.state := .idle }, { frame := true })
  else
    let s := endRelay true { s with rx := count .crc s.rx }
    ({ s with rx.state := .idle }, .none)

/-- R183 to R185 DATA0: oversized, zero length, or the first payload byte. -/
def data0Arm (v : Byte) (s : State) : State × Events :=
  if s.p.maxPacket < s.rx.len.toNat then ({ s with rx.state := .error }, .none)
  else if s.rx.len = 0 then
    ((crc1Arm v { s with rx.hdrFired := true, rx.state := .crc1 }).1, { hdr := true })
  else dataArm v { s with rx.state := .data }

/-- R178 IDLE. -/
def idleArm (v : Byte) (s : State) : State × Events :=
  if s.p.markerEn then
    if v = s.p.marker then ({ s with rx := { frameStart s.rx with state := .len1 } }, .none)
    else ({ s with rx := count .junk s.rx }, .none)
  else len1Arm v { s with rx := { frameStart s.rx with state := .len1 } }

/-- R171 `step(v)`: the arm of the current state; R193 discards the byte in ERROR. -/
def rxArm (v : Byte) (s : State) : State × Events :=
  match s.rx.state with
  | .idle => idleArm v s
  | .len1 => len1Arm v s
  | .len2 => len2Arm v s
  | .data0 => data0Arm v s
  | .data => dataArm v s
  | .crc1 => crc1Arm v s
  | .crc2 => crc2Arm v s
  | .error => (s, .none)

/-! The stuffing layer and the commands. -/

/-- R171, R175: stuffing is decoded everywhere but in IDLE and ERROR. -/
def destuffs (s : State) : Bool := s.p.stuffEn && s.rx.state != .idle && s.rx.state != .error

/-- R175: a marker inside a stuffed frame aborts it and starts a new one in LEN1. -/
def resync (s : State) : State :=
  let s := abort s
  { s with rx := { frameStart s.rx with state := .len1 } }

/-- R171, R175: the stuffing layer above the arms. -/
def stuffingLayer (b : Byte) (s : State) : State × Events :=
  if destuffs s then
    if b = s.p.marker then (resync s, .none)
    else if s.rx.esc then rxArm (restoreTop b) { s with rx.esc := false }
    else if b = s.p.esc then ({ s with rx.esc := true }, .none)
    else rxArm b s
  else rxArm b s

/-- R171: what one received byte does, and the milestones it raises (R194). -/
def receive (b : Byte) (s : State) : State × Events := stuffingLayer b (timeoutGuard s)

/-- R170, R171 RX_BYTE b @ now. It always returns OK (R170, R285). -/
def execRxByte (b : Byte) (s : State) : Host.Outcome State Fault Refusal :=
  .next (respond .ok (receive b s).2.word (receive b s).1)

/-- R196 RX_RESET. -/
def execRxReset (s : State) : Host.Outcome State Fault Refusal := .next (done (abort s))

end Sys2Proof.Machine
end

