-- ==== Sys2Proof/Machine/RegisterAccess.lean ====
section
/-! DEFINITION. The register, buffer and no-op commands (spec/43_register_access.md R260 to R266). -/

namespace Sys2Proof.Machine

/-- R266 NOP. -/
def execNop (s : State) : Host.Outcome State Fault Refusal := .next (done s)

/-- R260 REG_READ r. The register is read before `last_err` is written (R51). -/
def execRegRead (r : Byte) (s : State) : Host.Outcome State Fault Refusal :=
  .next (match Reg.ofNumber r with
    | none => refuse .badReg s
    | some reg => respond .ok (reg.read s) s)

/-- R262 REG_WRITE r, v. BAD_REG is checked before READ_ONLY. -/
def execRegWrite (r : Byte) (v : Half) (s : State) : Host.Outcome State Fault Refusal :=
  .next (match Reg.ofNumber r with
    | none => refuse .badReg s
    | some reg =>
      match reg.write? v s with
      | none => refuse .readOnly s
      | some s' => done s')

/-- R264 BUF_READ i. -/
def execBufRead (i : Half) (s : State) : Host.Outcome State Fault Refusal :=
  .next (if i.toNat < s.p.bufCap then respond .ok ((memRead i.toNat s.rx).setWidth 32) s
    else refuse .badIndex s)

/-- R265 BUF_WRITE i, b. -/
def execBufWrite (i : Half) (b : Byte) (s : State) : Host.Outcome State Fault Refusal :=
  .next (if i.toNat < s.p.bufCap then done { s with rx := memWrite i.toNat b s.rx } else refuse .badIndex s)

end Sys2Proof.Machine
end

