-- ==== Sys2Proof/Machine/Dispatch.lean ====
section
/-! DEFINITION. The meaning of every command (spec/30_encoding.md R102), one arm each. -/

namespace Sys2Proof.Machine

def exec (i : Instr) (s : State) : Host.Outcome State Fault Refusal :=
  match i with
  | .nop => Sys2Proof.Machine.execNop s
  | .rxByte b => Sys2Proof.Machine.execRxByte b s
  | .rxReset => Sys2Proof.Machine.execRxReset s
  | .txStart n => Sys2Proof.Machine.execTxStart n s
  | .txByte b => Sys2Proof.Machine.execTxByte b s
  | .txEnd f => Sys2Proof.Machine.execTxEnd f s
  | .txCopy d => Sys2Proof.Machine.execTxCopy d s
  | .crcRestart => Sys2Proof.Machine.execCrcRestart s
  | .crcAdd b => Sys2Proof.Machine.execCrcAdd b s
  | .crcValue => Sys2Proof.Machine.execCrcValue s
  | .regRead r => Sys2Proof.Machine.execRegRead r s
  | .regWrite r v => Sys2Proof.Machine.execRegWrite r v s
  | .bufRead k => Sys2Proof.Machine.execBufRead k s
  | .bufWrite k b => Sys2Proof.Machine.execBufWrite k b s

end Sys2Proof.Machine
end

