-- ==== Sys2Proof/Machine/Step.lean ====
section
/-! DEFINITION. One step of the block (spec/00_scope.md R4, R19): the oldest item of the host's queue is
performed, start to end. -/

namespace Sys2Proof.Machine

/-- R4, R19, R91: perform the host's next command. With none issued, nothing changes (R204, R303). A word
that decodes to no command is BAD_CMD (R104). -/
def step (s : State) : Host.Outcome State Fault Refusal :=
  match s.queue with
  | [] => .next s
  | .reset :: rest => .next (blockReset rest s)
  | .command w now :: rest =>
    match decode w with
    | .ok i => exec i (present now rest s)
    | .error _ => .next (badCmd (present now rest s))

/-- The host issues the word of an opcode-table row as its very next command, the clock input unchanged
(assumption log 5). -/
def State.withFetchWord (s : State) (nbits w : Nat) : State :=
  { s with queue := .command (tableWord nbits w) s.now :: s.queue }

end Sys2Proof.Machine
end

