-- ==== Sys2Proof/Safety.lean ====
section
/-! DEFINITION. What the claims about the block speak of: the wire form of a frame
(spec/30_encoding.md R120 to R126), what closing a frame puts out (spec/42_transmitter.md R230), what a
received byte is after the stuffing layer (spec/41_receiver.md R175), and the invariant of every
reachable state (R205, and the bounds of spec/10_state.md). Written as closed forms, beside the step by
step procedures of Machine/. -/

namespace Sys2Proof.Machine

/-! Byte sequences. -/

/-- An accumulator after folding a sequence of bytes, first byte first (R150). -/
def crcOf (poly c : Half) (xs : List Byte) : Half := xs.foldl (crc16Add poly) c

/-- The high byte of a 16-bit value, the first of its two trailer bytes (R83). -/
def hiByte (t : Half) : Byte := t.extractLsb' 8 8

/-- The low byte of a 16-bit value (R83). -/
def loByte (t : Half) : Byte := t.extractLsb' 0 8

/-- R126: one body byte as it stands on the wire. -/
def stuffed (p : Config.Params) (x : Byte) : List Byte :=
  if p.stuffEn = true ∧ (x = p.marker ∨ x = p.esc) then [p.esc, x &&& 0x7F] else [x]

/-- R126: a sequence of body bytes as it stands on the wire. -/
def stuffAll (p : Config.Params) (xs : List Byte) : List Byte := xs.flatMap (stuffed p)

/-- R120: the marker of a frame, if one is configured. It is never stuffed. -/
def markerBytes (p : Config.Params) : List Byte := if p.markerEn then [p.marker] else []

/-- R120, R124: the clean frame that carries a payload, as it stands on the wire. -/
def wireFrame (p : Config.Params) (payload : List Byte) : List Byte :=
  let body := lengthBytes (BitVec.ofNat 14 payload.length) ++ payload
  let crc := crcOf p.crcPoly crcSeed body
  markerBytes p ++ stuffAll p (body ++ [hiByte crc, loByte crc])

/-! Closing a frame. -/

/-- R230: the sender's accumulator when a frame is closed, and the trailer the frame carries, from the
accumulator `c` over all its bytes. A truncated frame is marked as such even when the caller marks it. -/
def closingMark (p : Config.Params) (trunc broken : Bool) (c : Half) : Half × Half :=
  match p.breakMode, trunc, broken with
  | .fold _ brkTrunc, true, _ => (crc16Add p.crcPoly c brkTrunc, crc16Add p.crcPoly c brkTrunc)
  | .fold brkBroken _, false, true => (crc16Add p.crcPoly c brkBroken, crc16Add p.crcPoly c brkBroken)
  | .fold _ _, false, false => (c, c)
  | .xor _ brkTrunc, true, _ => (c, c ^^^ brkTrunc)
  | .xor brkBroken _, false, true => (c, c ^^^ brkBroken)
  | .xor _ _, false, false => (c, c)

/-- R229, R230: the sender after the open frame is closed: the bytes still owed go out as zeros, then the
trailer, high byte first. -/
def closedFrame (p : Config.Params) (broken : Bool) (t : Sender) : Sender :=
  let padding := List.replicate t.remain.toNat (0 : Byte)
  let mark := closingMark p (decide (t.remain ≠ 0)) broken (crcOf p.crcPoly t.crc padding)
  { t with
    out := t.out ++ stuffAll p (padding ++ [hiByte mark.2, loByte mark.2])
    crc := mark.1
    remain := 0
    isOpen := false
    copy := false }

/-- R177, R191, R192: the sender after an open relay ends. -/
def relayEnded (p : Config.Params) (broken : Bool) (t : Sender) : Sender :=
  if t.copy = true then closedFrame p broken t else t

/-- R226 to R228: the sender after a payload byte is sent on the open frame. -/
def payloadSent (p : Config.Params) (v : Byte) (t : Sender) : Sender :=
  { t with crc := crc16Add p.crcPoly t.crc v, out := t.out ++ stuffed p v, remain := t.remain - 1 }

/-- R189, R227: the sender after a received payload byte is offered to an open relay. -/
def forwarded (p : Config.Params) (v : Byte) (t : Sender) : Sender :=
  if t.copy = true then
    if t.remain = 0 then { t with ovr := true } else payloadSent p v t
  else t

/-- R177: the state after the receiver is forced to IDLE: an open relay closed as broken, the partial
frame gone. -/
def abortedFrame (s : State) : State :=
  { s with rx.state := .idle, rx.esc := false, tx := relayEnded s.p true s.tx }

/-- R173: the state a late byte is read in: the timeout counted, the frame aborted, the receiver idle. -/
def afterTimeout (s : State) : State :=
  { abortedFrame { s with rx.cntTimeout := s.rx.cntTimeout + 1 } with rx.ts := s.now }

/-! A received byte before it reaches a state arm. -/

/-- R172, R173: the gap before the byte now presented is within MAX_DELAY, or no frame is in progress. -/
abbrev inTime (s : State) : Prop :=
  s.rx.state = .idle ∨ (s.now - s.rx.ts).toNat ≤ s.p.maxDelay.toNat

/-- R175: the stuffing layer decodes bytes now. -/
def stuffingActive (s : State) : Bool :=
  s.p.stuffEn && decide (s.rx.state ≠ .idle) && decide (s.rx.state ≠ .error)

/-- R171, R175: the byte value that reaches the arm of the current state; none where the stuffing layer
takes the byte itself (a marker, an escape byte). -/
def delivered (s : State) (b : Byte) : Option Byte :=
  if stuffingActive s then
    if b = s.p.marker then none
    else if s.rx.esc then some (b ||| 0x80)
    else if b = s.p.esc then none
    else some b
  else some b

/-- R171, R174: the state in which an arm sees the delivered byte: the timestamp written, a pending
escape used up. -/
def atArm (s : State) : State :=
  { s with rx.ts := s.now, rx.esc := s.rx.esc && !stuffingActive s }

/-- R186 to R188: the receiver after a payload byte. -/
def payloadReceived (p : Config.Params) (v : Byte) (r : Receiver) : Receiver :=
  { r with
    crc := crc16Add p.crcPoly r.crc v
    buf := if r.pos.toNat < p.bufCap then (memWrite r.pos.toNat v r).buf else r.buf
    cntOverrun := if r.pos.toNat < p.bufCap then r.cntOverrun else r.cntOverrun + 1
    pos := r.pos + 1
    hdrFired := r.hdrFired || decide (r.hdrLen.toNat = (r.pos + 1).toNat)
    readFired := r.readFired || decide (r.readLen.toNat = (r.pos + 1).toNat)
    state := if (r.pos + 1).toNat = r.len.toNat then .crc1 else r.state }

/-- R187, R188: the milestones a payload byte raises. -/
def payloadEvents (r : Receiver) : Events :=
  { hdr := !r.hdrFired && decide (r.hdrLen.toNat = (r.pos + 1).toNat)
    read := !r.readFired && decide (r.readLen.toNat = (r.pos + 1).toNat) }

/-- R176: the receiver at the start of a frame, in LEN1. -/
def freshFrame (r : Receiver) : Receiver :=
  { r with
    state := .len1, crc := 0, pos := 0, len := 0, hdrFired := false, readFired := false, esc := false }

/-- The state after a command that answered `e` with the datum `d` (R51, R281). -/
def answered (e : ErrCode) (d : Word) (s : State) : State :=
  { s with lastErr := e, resp := some { err := e, data := d } }

/-- A response that reports FRAME (R194: bit 2 of the data). -/
def reportsFrame (s : State) : Bool :=
  match s.resp with
  | some r => r.data.getLsbD 2
  | none => false

/-- R32, R310: every field of R32's table has its reset value. The buffer is left out: its contents are
unspecified (R58). -/
def hasResetValues (s : State) : Prop :=
  s.rx.state = .idle ∧ s.rx.pos = 0 ∧ s.rx.len = 0 ∧ s.rx.crc = 0 ∧ s.rx.flen = 0 ∧ s.rx.ts = 0 ∧
  s.rx.hdrFired = false ∧ s.rx.readFired = false ∧ s.rx.esc = false ∧
  s.rx.hdrLen = 0 ∧ s.rx.readLen = 0 ∧
  s.rx.cntTimeout = 0 ∧ s.rx.cntJunk = 0 ∧ s.rx.cntCrc = 0 ∧ s.rx.cntOverrun = 0 ∧
  s.tx.isOpen = false ∧ s.tx.copy = false ∧ s.tx.ovr = false ∧ s.tx.remain = 0 ∧ s.tx.crc = 0 ∧
  s.auxCrc = 0 ∧ s.lastErr = .ok

/-! Host inputs. -/

/-- The host issues a command while the clock input shows `now`. -/
def issue (now : Word) (i : Instr) : HostInput := .command (encode i) now

/-- R111: the pseudo-command SEND, or SEND_BROKEN with `broken`, for a payload. -/
def sendCommands (payload : List Byte) (broken : Bool) : List Instr :=
  .txStart (BitVec.ofNat 32 payload.length) :: payload.map .txByte ++ [.txEnd broken]

/-- RX_BYTE of each byte, with the clock value given beside it. -/
def feed (arrivals : List (Byte × Word)) : List HostInput :=
  arrivals.map fun a => issue a.2 (.rxByte a.1)

/-- Each clock value is at most MAX_DELAY after the one before it, modulo 2^32 (R172, R173). -/
def gapsWithin (maxDelay : Word) : List (Byte × Word) → Prop
  | a :: b :: rest => (b.2 - a.2).toNat ≤ maxDelay.toNat ∧ gapsWithin maxDelay (b :: rest)
  | _ => True

/-! The invariant. -/

/-- What every reachable state between two commands satisfies. -/
structure Inv (s : State) : Prop where
  /-- The buffer is in canonical form. -/
  bufCanonical : Memory.wf s.rx.buf = true
  /-- R80, R88: no byte is stored at or beyond BUF_CAP. -/
  bufWithin : Memory.within s.p.bufCap s.rx.buf = true
  /-- R34: `rx_pos` never exceeds `rx_len`. -/
  posLeLen : s.rx.pos.toNat ≤ s.rx.len.toNat
  /-- R34: nor MAX_PACKET. -/
  posLeMax : s.rx.pos.toNat ≤ s.p.maxPacket
  /-- R37: the recorded length is one that was accepted. -/
  flenLeMax : s.rx.flen.toNat ≤ s.p.maxPacket
  /-- R47, R223: a frame owes at most what it declared. -/
  remainLeMax : s.tx.remain.toNat ≤ s.p.maxPacket
  /-- R46: `tx_copy = 1` implies `tx_open = 1`. -/
  copyOpen : s.tx.copy = true → s.tx.isOpen = true
  /-- R229, R233: a closed frame owes nothing. -/
  closedOwesNothing : s.tx.isOpen = false → s.tx.remain = 0
  /-- R242: a relay is open only while the upstream frame's payload or trailer arrives. -/
  relayMidFrame : s.tx.copy = true → s.rx.state = .data ∨ s.rx.state = .crc1 ∨ s.rx.state = .crc2
  /-- R239: and only after its header milestone. -/
  relayAfterHdr : s.tx.copy = true → s.rx.hdrFired = true
  /-- R40: an escape is pending only in the stuffing mode, inside a frame. -/
  escPending : s.rx.esc = true → s.p.stuffEn = true ∧ s.rx.state ≠ .idle ∧ s.rx.state ≠ .error
  /-- R181, R205: LEN1 is a resting state only with a marker. -/
  len1Marker : s.rx.state = .len1 → s.p.markerEn = true
  /-- R205: LEN2 only with two-byte lengths, and with 7 bits of the length known. -/
  len2Long : s.rx.state = .len2 → s.p.longLen = true ∧ s.rx.len.toNat ≤ 127
  /-- R176, R185: no payload byte has been counted before DATA. -/
  headPos : s.rx.state = .len1 ∨ s.rx.state = .len2 ∨ s.rx.state = .data0 ∨ s.rx.state = .error →
    s.rx.pos = 0
  /-- R176, R201: nor has a milestone fired. -/
  headFlags : s.rx.state = .len1 ∨ s.rx.state = .len2 ∨ s.rx.state = .data0 ∨ s.rx.state = .error →
    s.rx.hdrFired = false ∧ s.rx.readFired = false
  /-- R205: in DATA, `1 <= rx_pos < rx_len`. -/
  dataPos : s.rx.state = .data → 1 ≤ s.rx.pos.toNat ∧ s.rx.pos.toNat < s.rx.len.toNat
  /-- R205: in CRC1 and CRC2, `rx_pos = rx_len`. -/
  trailerPos : s.rx.state = .crc1 ∨ s.rx.state = .crc2 → s.rx.pos.toNat = s.rx.len.toNat
  /-- R205: in DATA, CRC1 and CRC2, `rx_len <= MAX_PACKET`. -/
  lenOk : s.rx.state = .data ∨ s.rx.state = .crc1 ∨ s.rx.state = .crc2 → s.rx.len.toNat ≤ s.p.maxPacket
  /-- R183: ERROR is entered on an oversized length only. -/
  errorLen : s.rx.state = .error → s.p.maxPacket < s.rx.len.toNat

end Sys2Proof.Machine
end

