-- ==== Sys2Proof/Certificates/Slice0/Obligations.lean ====
section
/-! DEFINITION. The statements for the provers. They quantify over every state, hence over every instance
of the parameters (spec/00_scope.md R9), unless a hypothesis says otherwise. Where a statement speaks of
`queue` or `now`, that is the model's form of the host port (the model's choice, assumption log 3): the
spec gives the port, and not how it is held. -/

open Sys2Proof Sys2Proof.Machine

/-! ## Encoding and decoding (spec/30_encoding.md) -/

/-- R101 to R103, R106: the decoder reads back every well-formed command from its word. -/
def Obligations.DecodeReadsBackEncode : Prop :=
  ∀ i : Instr, i.wf = true → decode (encode i) = .ok i

/-- R103, R106: each word that decodes to a command is that command's one word, and the command is
well-formed: no bit of the word is dropped. -/
def Obligations.EncodeReadsBackDecode : Prop :=
  ∀ (w : Word) (i : Instr), decode w = .ok i → i.wf = true ∧ encode i = w

/-- R103: "At most one row matches". -/
def Obligations.NoWordMatchesTwoRows : Prop :=
  decodeTable.Pairwise fun a b => ∀ w : Word, ¬ (w &&& a.mask = a.pattern ∧ w &&& b.mask = b.pattern)

/-- Every word of spec/95_test_vectors.md's encoding family, and three words of its programs P2 and P3,
decode as listed: the legal ones to their commands, the illegal ones to none, with the reason. -/
def Obligations.ListedWordsDecode : Prop :=
  decode 0x01000041 = .ok (.rxByte 0x41) ∧
  decode 0x1300FFFF = .ok (.txCopy (BitVec.ofInt 32 (-1))) ∧
  decode 0x13008000 = .ok (.txCopy (BitVec.ofInt 32 (-32768))) ∧
  decode 0x12000001 = .ok (.txEnd true) ∧
  decode 0x31080002 = .ok (.regWrite 0x08 2) ∧
  decode 0x33000011 = .ok (.bufWrite 0 0x11) ∧
  decode 0x00000000 = .ok .nop ∧
  decode 0x01000141 = .error (.reservedField "RX_BYTE") ∧
  decode 0x12000002 = .error (.reservedField "TX_END") ∧
  decode 0x30080001 = .error (.reservedField "REG_READ") ∧
  decode 0x32000001 = .error (.reservedField "BUF_READ") ∧
  decode 0x2000000F = .error (.reservedField "CRC_RESTART") ∧
  decode 0x04000000 = .error (.reservedOpcode 0x04) ∧
  decode 0xFF000000 = .error (.reservedOpcode 0xFF)

/-! ## Steps (spec/00_scope.md R4, R19) -/

/-- R4, R19, R91: a step performs the oldest command the host issued: `exec` of the decoded command, in
the state with that command taken from the queue and its clock value on the clock input. (Queue and clock
input as fields: the model's choice, assumption log 3.) -/
def Obligations.StepPerformsTheDecodedCommand : Prop :=
  ∀ (s : State) (w now : Word) (rest : List HostInput) (i : Instr),
    s.queue = .command w now :: rest → decode w = .ok i →
      step s = exec i { s with now := now, queue := rest }

/-- R104: a word that decodes to no row answers BAD_CMD and changes nothing else: no byte, no event, and
the timestamp stays. Every reserved opcode is such a word, whatever its other bits are. (The clock input
shows the word's clock value and the queue advances: the model's ports, assumption log 3.) -/
def Obligations.IllegalWordAnswersBadCmd : Prop :=
  (∀ (s : State) (w now : Word) (rest : List HostInput),
    s.queue = .command w now :: rest →
    (∀ r ∈ decodeTable, w &&& r.mask ≠ r.pattern) →
      step s = .next (answered .badCmd 0 { s with now := now, queue := rest })) ∧
  ∀ w : Word,
    let op := (w.extractLsb' 24 8).toNat
    (0x03 ≤ op ∧ op ≤ 0x0F) ∨ (0x14 ≤ op ∧ op ≤ 0x1F) ∨ (0x23 ≤ op ∧ op ≤ 0x2F) ∨ 0x34 ≤ op →
      (∀ r ∈ decodeTable, w &&& r.mask ≠ r.pattern) ∧
      decode w = .error (.reservedOpcode (w.extractLsb' 24 8))

/-- R204, R303: with no command issued nothing changes, however long the wait. (That a step with an empty
queue answers the same state is the model's choice, assumption log 3.) -/
def Obligations.IdleBlockChangesNothing : Prop :=
  ∀ (s : State) (k : Nat), s.queue = [] → Sys2Proof.core.run k s = .next s

/-- R280: no command word, operand or input byte stops the block: every step answers a next state. -/
def Obligations.EveryStepCompletes : Prop :=
  ∀ s : State, ∃ t, step s = .next t

/-- R310, R311, R313, R32: the reset input, in any state, puts every field of R32's table at its reset value
and emits no byte, even with a frame open; the parameters stay. `State.reset` has those values too. (That the
queue behind the reset and the bytes already put out stay is the model's choice, assumption logs 3 and 4.) -/
def Obligations.ResetRestoresTheTableValues : Prop :=
  (∀ (s : State) (rest : List HostInput), s.queue = .reset :: rest →
    ∃ t, step s = .next t ∧ hasResetValues t ∧
      t.tx.out = s.tx.out ∧ t.inst = s.inst ∧ t.queue = rest) ∧
  hasResetValues State.reset ∧ State.reset.inst = Config.inst

/-! ## NOP, registers and buffer (spec/43_register_access.md) -/

/-- R105: NOP is the all-zero word, the only word that decodes to it, and answers OK. -/
def Obligations.NopIsTheZeroWord : Prop :=
  (∀ w : Word, decode w = .ok .nop ↔ w = 0) ∧
  ∀ s : State, exec .nop s = .next (answered .ok 0 s)

/-- R260, R55: REG_READ returns the named field, zero-extended, and changes only `last_err`; a reserved
number is BAD_REG. -/
def Obligations.RegReadReturnsTheMap : Prop :=
  (∀ (r : Byte) (v : Half), decode (0x30#8 ++ r ++ v) =
    if v = 0 then .ok (.regRead r) else .error (.reservedField "REG_READ")) ∧
  ∀ s : State,
    let bit (f : Bool) (v : Word) : Word := if f then v else 0
    let map : List (Byte × Word) := [
      (0x00, match s.rx.state with
        | .idle => 0 | .len1 => 1 | .len2 => 2 | .data0 => 3 | .data => 4 | .crc1 => 5 | .crc2 => 6
        | .error => 7),
      (0x01, s.rx.pos.setWidth 32),
      (0x02, s.rx.len.setWidth 32),
      (0x03, s.rx.crc.setWidth 32),
      (0x04, s.rx.flen.setWidth 32),
      (0x05, s.rx.ts),
      (0x06, bit s.rx.hdrFired 1 + bit s.rx.readFired 2 + bit s.rx.esc 4),
      (0x08, s.rx.hdrLen.setWidth 32),
      (0x09, s.rx.readLen.setWidth 32),
      (0x10, s.rx.cntTimeout.setWidth 32),
      (0x11, s.rx.cntJunk.setWidth 32),
      (0x12, s.rx.cntCrc.setWidth 32),
      (0x13, s.rx.cntOverrun.setWidth 32),
      (0x20, bit s.tx.isOpen 1 + bit s.tx.copy 2 + bit s.tx.ovr 4),
      (0x21, s.tx.remain.setWidth 32),
      (0x22, s.tx.crc.setWidth 32),
      (0x30, s.auxCrc.setWidth 32),
      (0x3F, match s.lastErr with
        | .ok => 0 | .badCmd => 1 | .badReg => 2 | .readOnly => 3 | .badIndex => 4 | .txBusy => 5
        | .txNotOpen => 6 | .txOverrun => 7 | .txLen => 8 | .copyIllegal => 9)]
    (∀ x ∈ map, exec (.regRead x.1) s = .next (answered .ok x.2 s)) ∧
    ∀ r : Byte, r ∉ map.map Prod.fst → exec (.regRead r) s = .next (answered .badReg 0 s)

/-- R262, R56: REG_WRITE writes exactly the six RW registers, each with the whole operand; a read-only
register answers READ_ONLY, a reserved number BAD_REG, and neither changes the state. -/
def Obligations.RegWriteWritesOnlyRwRegisters : Prop :=
  (∀ (r : Byte) (v : Half), decode (0x31#8 ++ r ++ v) = .ok (.regWrite r v)) ∧
  ∀ (s : State) (v : Half),
    exec (.regWrite 0x08 v) s = .next (answered .ok 0 { s with rx.hdrLen := v }) ∧
    exec (.regWrite 0x09 v) s = .next (answered .ok 0 { s with rx.readLen := v }) ∧
    exec (.regWrite 0x10 v) s = .next (answered .ok 0 { s with rx.cntTimeout := v }) ∧
    exec (.regWrite 0x11 v) s = .next (answered .ok 0 { s with rx.cntJunk := v }) ∧
    exec (.regWrite 0x12 v) s = .next (answered .ok 0 { s with rx.cntCrc := v }) ∧
    exec (.regWrite 0x13 v) s = .next (answered .ok 0 { s with rx.cntOverrun := v }) ∧
    (∀ r ∈ ([0x00, 0x01, 0x02, 0x03, 0x04, 0x05, 0x06, 0x20, 0x21, 0x22, 0x30, 0x3F] : List Byte),
      exec (.regWrite r v) s = .next (answered .readOnly 0 s)) ∧
    ∀ r : Byte,
      r ∉ ([0x00, 0x01, 0x02, 0x03, 0x04, 0x05, 0x06, 0x08, 0x09, 0x10, 0x11, 0x12, 0x13, 0x20, 0x21,
        0x22, 0x30, 0x3F] : List Byte) →
      exec (.regWrite r v) s = .next (answered .badReg 0 s)

/-- R264: BUF_READ returns the byte at the index and changes only `last_err`; an index at or beyond
BUF_CAP is BAD_INDEX. -/
def Obligations.BufReadReturnsTheByte : Prop :=
  (∀ (i : Half) (b : Byte), decode (0x32#8 ++ i ++ b) =
    if b = 0 then .ok (.bufRead i) else .error (.reservedField "BUF_READ")) ∧
  ∀ (s : State) (i : Half),
    (i.toNat < s.p.bufCap →
      exec (.bufRead i) s = .next (answered .ok ((memRead i.toNat s.rx).setWidth 32) s)) ∧
    (s.p.bufCap ≤ i.toNat → exec (.bufRead i) s = .next (answered .badIndex 0 s))

/-- R265, R264: BUF_WRITE writes that byte of the buffer and nothing else, and a BUF_READ of any index
then returns the new byte there and the old one elsewhere; an index at or beyond BUF_CAP is BAD_INDEX
and writes nothing. -/
def Obligations.BufWriteSetsOneByte : Prop :=
  (∀ (i : Half) (b : Byte), decode (0x33#8 ++ i ++ b) = .ok (.bufWrite i b)) ∧
  ∀ (s : State) (i : Half) (b : Byte),
    (i.toNat < s.p.bufCap →
      ∃ r : Receiver, exec (.bufWrite i b) s = .next (answered .ok 0 { s with rx := r }) ∧
        r = { s.rx with buf := r.buf } ∧
        ∀ j, memRead j r = if j = i.toNat then b else memRead j s.rx) ∧
    (s.p.bufCap ≤ i.toNat → exec (.bufWrite i b) s = .next (answered .badIndex 0 s))

/-- R264, R44, R89: every command but a BUF_WRITE leaves every byte of the buffer as it was, written or
not, except the byte at `rx_pos` for an RX_BYTE; a BUF_WRITE leaves every other index. -/
def Obligations.CommandsKeepOtherBufferBytes : Prop :=
  ∀ (i : Instr) (s t : State), exec i s = .next t →
    ∀ j : Nat,
      (∀ b, i = .rxByte b → j ≠ s.rx.pos.toNat) →
      (∀ k b, i = .bufWrite k b → j ≠ k.toNat) →
        memRead j t.rx = memRead j s.rx

/-! ## The CRC unit (spec/40_crc.md) -/

/-- R157 CRC_RESTART. -/
def Obligations.CrcRestartSeedsTheHostAccumulator : Prop :=
  (∀ w : Word, decode w = .ok .crcRestart ↔ w = 0x20000000) ∧
  (∀ w : Word, opField w = 0x20 → w ≠ 0x20000000 → decode w = .error (.reservedField "CRC_RESTART")) ∧
  ∀ s : State, exec .crcRestart s = .next (answered .ok 0 { s with auxCrc := 0 })

/-- R158 CRC_ADD b, with its corner case and example. -/
def Obligations.CrcAddFoldsOneByte : Prop :=
  (∀ b : Byte, decode (0x210000#24 ++ b) = .ok (.crcAdd b)) ∧
  (∀ w : Word, opField w = 0x21 → w.extractLsb' 8 16 ≠ 0 →
    decode w = .error (.reservedField "CRC_ADD")) ∧
  (∀ (s : State) (b : Byte),
    exec (.crcAdd b) s =
      .next (answered .ok 0 { s with auxCrc := crc16Add s.p.crcPoly s.auxCrc b })) ∧
  (∀ poly : Half, crc16Add poly 0 0 = 0) ∧
  crc16Add 0x1021 0 0x01 = 0x1021

/-- R159 CRC_VALUE, with its example: the CRC of "123456789" for the polynomial 0x1021. -/
def Obligations.CrcValueReadsTheHostAccumulator : Prop :=
  (∀ w : Word, decode w = .ok .crcValue ↔ w = 0x22000000) ∧
  (∀ s : State, exec .crcValue s = .next (answered .ok (s.auxCrc.setWidth 32) s)) ∧
  crcOf 0x1021 0 [0x31, 0x32, 0x33, 0x34, 0x35, 0x36, 0x37, 0x38, 0x39] = 0x31C3

/-- R154: folding a sequence's own CRC after it, high byte first, leaves 0, for every polynomial. -/
def Obligations.OwnTrailerLeavesZeroResidue : Prop :=
  ∀ (poly : Half) (m : List Byte),
    let c := crcOf poly 0 m
    crcOf poly 0 (m ++ [hiByte c, loByte c]) = 0

/-- R152: the nibble-table method gives the same value as the bitwise fold, for every polynomial,
accumulator and byte. -/
def Obligations.NibbleMethodAgreesWithBitwise : Prop :=
  ∀ (poly c : Half) (b : Byte), crc16AddNibble poly c b = crc16Add poly c b

/-- R155: the fold is a linear function of `c ^ (b << 8)`, so folding `V ^ s` into `V` is folding `s`
into 0. -/
def Obligations.CrcFoldIsLinear : Prop :=
  ∀ poly : Half,
    let g (x : Half) : Half := x <<< 8 ^^^ crc16Add poly 0 (hiByte x)
    (∀ (c : Half) (b : Byte), crc16Add poly c b = g (c ^^^ b.setWidth 16 <<< 8)) ∧
    (∀ x y : Half, g (x ^^^ y) = g x ^^^ g y) ∧
    ∀ v s : Half, crcOf poly v [hiByte (v ^^^ s), loByte (v ^^^ s)] = crcOf poly 0 [hiByte s, loByte s]

/-- R156 (a): every non-zero mask on a trailer leaves a non-zero residue, iff `CRC_POLY[0] = 1`. -/
def Obligations.MaskedTrailerIsSeenIffPolyIsOdd : Prop :=
  ∀ poly : Half,
    (∀ v s : Half, s ≠ 0 → crcOf poly v [hiByte (v ^^^ s), loByte (v ^^^ s)] ≠ 0) ↔
      poly.getLsbD 0 = true

/-- R156 (c): with a non-zero polynomial, a single flipped bit in an accepted byte sequence leaves a non-zero
residue. -/
def Obligations.SingleBitErrorIsSeen : Prop :=
  ∀ (poly : Half) (before after : List Byte) (x : Byte) (k : Nat), poly ≠ 0 → k < 8 →
    crcOf poly 0 (before ++ x :: after) = 0 →
      crcOf poly 0 (before ++ (x ^^^ 1#8 <<< k) :: after) ≠ 0

/-- R50: only the host's CRC commands and reset touch `aux_crc`, and the host's CRC commands touch
neither the receiver nor the sender. -/
def Obligations.HostAccumulatorIsIsolated : Prop :=
  ∀ (i : Instr) (s t : State), exec i s = .next t →
    (i ≠ .crcRestart → (∀ b, i ≠ .crcAdd b) → t.auxCrc = s.auxCrc) ∧
    (i = .crcRestart ∨ (∃ b, i = .crcAdd b) ∨ i = .crcValue → t.rx = s.rx ∧ t.tx = s.tx)

/-! ## The transmitter (spec/42_transmitter.md) -/

/-- R121, R123, R84: a length field is one byte up to 127, else the low 7 bits with the top bit set and then
the rest, and a receiver reads from it the length that was put into it, in one byte or two as the field
has them. -/
def Obligations.ReceiverReadsTheSendersLength : Prop :=
  ∀ (inst : Config.Instance) (n : BitVec 14), n.toNat ≤ inst.params.maxPacket →
    ((lengthBytes n).map BitVec.toNat =
      if n.toNat ≤ 127 then [n.toNat] else [n.toNat % 128 + 128, n.toNat / 128]) ∧
    ((∃ b1, lengthBytes n = [b1] ∧ secondLengthByteFollows inst.params b1 = false ∧
      (firstLengthPart inst.params b1).toNat = n.toNat) ∨
    ∃ b1 b2, lengthBytes n = [b1, b2] ∧ secondLengthByteFollows inst.params b1 = true ∧
      (withSecondLengthPart (firstLengthPart inst.params b1) b2).toNat = n.toNat)

/-- R126, R222: no marker stands in a stuffed body, and taking the escapes out again gives the body. -/
def Obligations.StuffedBodyHidesTheMarker : Prop :=
  ∀ inst : Config.Instance, inst.params.stuffEn = true →
    ∀ xs : List Byte,
      inst.params.marker ∉ stuffAll inst.params xs ∧
      ∀ x : Byte,
        stuffed inst.params x = [x] ∧ x ≠ inst.params.marker ∧ x ≠ inst.params.esc ∨
        ∃ y, stuffed inst.params x = [inst.params.esc, y] ∧ restoreTop y = x ∧
          y ≠ inst.params.marker ∧ y ≠ inst.params.esc

/-- R224 TX_START n: it opens the frame, or refuses a busy sender (checked first) or a length above
MAX_PACKET with no other change. -/
def Obligations.TxStartOpensAFrame : Prop :=
  (∀ n : BitVec 16, decode (0x1000#16 ++ n) = .ok (.txStart (n.setWidth 32))) ∧
  ∀ (s : State) (n : Word),
    (s.tx.isOpen = true → exec (.txStart n) s = .next (answered .txBusy 0 s)) ∧
    (s.tx.isOpen = false → s.p.maxPacket < n.toNat →
      exec (.txStart n) s = .next (answered .txLen 0 s)) ∧
    (s.tx.isOpen = false → n.toNat ≤ s.p.maxPacket →
      exec (.txStart n) s = .next (answered .ok 0
        { s with tx :=
          { out := s.tx.out ++ markerBytes s.p ++ stuffAll s.p (lengthBytes (n.setWidth 14))
            crc := crcOf s.p.crcPoly 0 (lengthBytes (n.setWidth 14))
            remain := n.setWidth 14
            isOpen := true, copy := false, ovr := false } }))

/-- R226, R227 TX_BYTE b: it sends one payload byte; with no frame open it is refused, and a byte beyond
the declared length is dropped and flagged. -/
def Obligations.TxByteSendsOnePayloadByte : Prop :=
  (∀ b : Byte, decode (0x110000#24 ++ b) = .ok (.txByte b)) ∧
  ∀ (s : State) (b : Byte),
    (s.tx.isOpen = false → exec (.txByte b) s = .next (answered .txNotOpen 0 s)) ∧
    (s.tx.isOpen = true → s.tx.remain = 0 →
      exec (.txByte b) s = .next (answered .txOverrun 0 { s with tx.ovr := true })) ∧
    (s.tx.isOpen = true → s.tx.remain ≠ 0 →
      exec (.txByte b) s = .next (answered .ok 0
        { s with
          tx.crc := crc16Add s.p.crcPoly s.tx.crc b
          tx.out := s.tx.out ++ stuffed s.p b
          tx.remain := s.tx.remain - 1 }))

/-- R232, R229, R230 TX_END f: the bytes still owed go out as zeros, then the trailer, high byte first,
marked as the break policy says (a truncated frame as such, even when the caller marks it); with no frame
open or a relay open it is refused. -/
def Obligations.TxEndClosesTheFrame : Prop :=
  (decode 0x12000000 = .ok (.txEnd false) ∧ decode 0x12000001 = .ok (.txEnd true)) ∧
  ∀ (s : State) (f : Bool),
    let padding := List.replicate s.tx.remain.toNat (0 : Byte)
    let c := crcOf s.p.crcPoly s.tx.crc padding
    let close (crc trailer : Half) : State :=
      answered .ok 0
        { s with
          tx.out := s.tx.out ++ stuffAll s.p (padding ++ [hiByte trailer, loByte trailer])
          tx.crc := crc, tx.remain := 0, tx.isOpen := false, tx.copy := false }
    (s.tx.isOpen = false → exec (.txEnd f) s = .next (answered .txNotOpen 0 s)) ∧
    (s.tx.isOpen = true → s.tx.copy = true → exec (.txEnd f) s = .next (answered .txBusy 0 s)) ∧
    (s.tx.isOpen = true → s.tx.copy = false →
      match s.p.breakMode with
      | .fold brkBroken brkTrunc =>
        (s.tx.remain ≠ 0 → exec (.txEnd f) s =
          .next (close (crc16Add s.p.crcPoly c brkTrunc) (crc16Add s.p.crcPoly c brkTrunc))) ∧
        (s.tx.remain = 0 → f = true → exec (.txEnd f) s =
          .next (close (crc16Add s.p.crcPoly c brkBroken) (crc16Add s.p.crcPoly c brkBroken))) ∧
        (s.tx.remain = 0 → f = false → exec (.txEnd f) s = .next (close c c))
      | .xor brkBroken brkTrunc =>
        (s.tx.remain ≠ 0 → exec (.txEnd f) s = .next (close c (c ^^^ brkTrunc))) ∧
        (s.tx.remain = 0 → f = true → exec (.txEnd f) s = .next (close c (c ^^^ brkBroken))) ∧
        (s.tx.remain = 0 → f = false → exec (.txEnd f) s = .next (close c c)))

/-- R238, R239 TX_COPY d: at a copy point it opens the relayed frame of length `rx_len + d` and sends the
header from the buffer; otherwise it is refused, in the order busy, copy point, length below `rx_pos`,
length above MAX_PACKET, with no other change. -/
def Obligations.TxCopyOpensARelay : Prop :=
  (∀ d : BitVec 16, decode (0x1300#16 ++ d) = .ok (.txCopy (d.signExtend 32))) ∧
  ∀ (s : State) (d : Word),
    let atCopyPoint : Prop :=
      s.rx.hdrFired = true ∧ (s.rx.state = .data ∨ s.rx.state = .crc1 ∨ s.rx.state = .crc2) ∧
      (s.rx.pos.toNat = s.rx.hdrLen.toNat ∨ s.rx.len = 0) ∧ s.rx.pos.toNat ≤ s.p.bufCap
    let out : Int := s.rx.len.toNat + d.toInt
    let header := (List.range s.rx.pos.toNat).map fun i => memRead i s.rx
    let body := lengthBytes (BitVec.ofInt 14 out) ++ header
    (s.tx.isOpen = true → exec (.txCopy d) s = .next (answered .txBusy 0 s)) ∧
    (s.tx.isOpen = false → ¬ atCopyPoint → exec (.txCopy d) s = .next (answered .copyIllegal 0 s)) ∧
    (s.tx.isOpen = false → atCopyPoint → out < s.rx.pos.toNat →
      exec (.txCopy d) s = .next (answered .copyIllegal 0 s)) ∧
    (s.tx.isOpen = false → atCopyPoint → s.rx.pos.toNat ≤ out → s.p.maxPacket < out →
      exec (.txCopy d) s = .next (answered .txLen 0 s)) ∧
    (s.tx.isOpen = false → atCopyPoint → s.rx.pos.toNat ≤ out → out ≤ s.p.maxPacket →
      exec (.txCopy d) s = .next (answered .ok 0
        { s with tx :=
          { out := s.tx.out ++ markerBytes s.p ++ stuffAll s.p body
            crc := crcOf s.p.crcPoly 0 body
            remain := BitVec.ofInt 14 (out - s.rx.pos.toNat)
            isOpen := true, copy := true, ovr := false } }))

/-- R233, R92: no step takes a byte back from the output, and a command that closes an open frame does so
only as `tx_close` does (R230): the bytes still owed go out as zeros, then the trailer of the frame's own
CRC, clean or marked, stuffed. (That a reset too keeps the bytes already put out is the model's choice,
assumption log 4.) -/
def Obligations.FramesCloseWithATrailer : Prop :=
  (∀ s t : State, step s = .next t → s.tx.out <+: t.tx.out) ∧
  ∀ (i : Instr) (s t : State), exec i s = .next t → s.tx.isOpen = true → t.tx.isOpen = false →
    ∃ broken : Bool, t.tx = closedFrame s.p broken s.tx

/-- R242: an open relay ends only with RX_RESET, or with an RX_BYTE that comes late, is a marker inside a
stuffed frame, or is the second trailer byte. -/
def Obligations.RelayEndsOnlyWithTheUpstreamFrame : Prop :=
  ∀ (i : Instr) (s t : State), exec i s = .next t → s.tx.copy = true → t.tx.copy = false →
    s.tx.isOpen = true →
      i = .rxReset ∨
      ∃ b, i = .rxByte b ∧
        (¬ inTime s ∨ (stuffingActive s = true ∧ b = s.p.marker) ∨
          (s.rx.state = .crc2 ∧ (delivered s b).isSome = true))

/-- R231, R203: what a far end's accumulator holds after a frame's trailer: 0 for a clean frame. For a
marked frame, with `CRC_POLY[0] = 1`, it is never 0 in XOR mode, and 0 in FOLD mode only where the
corruption byte leaves the CRC unchanged. (Without `CRC_POLY[0] = 1` the FOLD clause is false of the
spec's own R150: assumption log 12.) -/
def Obligations.FarEndSeesTheMark : Prop :=
  ∀ (inst : Config.Instance) (trunc broken : Bool) (c : Half),
    let p := inst.params
    let trailer := (closingMark p trunc broken c).2
    let residue := crcOf p.crcPoly c [hiByte trailer, loByte trailer]
    (trunc = false → broken = false → residue = 0) ∧
    (trunc = true ∨ broken = true → p.crcPoly.getLsbD 0 = true →
      match p.breakMode with
      | .fold brkBroken brkTrunc =>
        residue = 0 ↔ crc16Add p.crcPoly c (if trunc = true then brkTrunc else brkBroken) = c
      | .xor _ _ => residue ≠ 0)

/-! ## The receiver (spec/41_receiver.md) -/

/-- R170, R174, R285: RX_BYTE always completes with OK, writes the timestamp, and leaves the parameters,
the watch lengths, `aux_crc`, the clock input, the queue and what was put out before. -/
def Obligations.RxByteAlwaysAnswersOk : Prop :=
  (∀ b : Byte, decode (0x010000#24 ++ b) = .ok (.rxByte b)) ∧
  ∀ (s : State) (b : Byte),
    ∃ t d, exec (.rxByte b) s = .next t ∧
      t.lastErr = .ok ∧ t.resp = some { err := .ok, data := d } ∧ t.rx.ts = s.now ∧
      t.inst = s.inst ∧ t.rx.hdrLen = s.rx.hdrLen ∧ t.rx.readLen = s.rx.readLen ∧
      t.rx.draws = s.rx.draws ∧ t.auxCrc = s.auxCrc ∧ t.now = s.now ∧ t.queue = s.queue ∧
      s.tx.out <+: t.tx.out

/-- R173, R199: a byte that comes late is counted, the frame is aborted, an open relay closed as broken,
and the byte is then read from IDLE; a byte in time changes no timeout count. -/
def Obligations.LateByteIsReadFromIdle : Prop :=
  ∀ (s : State) (b : Byte),
    (s.rx.state ≠ .idle → s.p.maxDelay.toNat < (s.now - s.rx.ts).toNat →
      exec (.rxByte b) s = exec (.rxByte b)
        { s with
          rx.cntTimeout := s.rx.cntTimeout + 1, rx.state := .idle, rx.esc := false
          tx := relayEnded s.p true s.tx }) ∧
    (s.rx.state = .idle ∨ (s.now - s.rx.ts).toNat ≤ s.p.maxDelay.toNat →
      ∀ t, exec (.rxByte b) s = .next t → t.rx.cntTimeout = s.rx.cntTimeout)

/-- R175: inside a stuffed frame, in time: a marker aborts it and starts a new one in LEN1, whether or not
an escape is pending; an escape byte is remembered. No counter changes. -/
def Obligations.StuffedMarkerRestartsTheFrame : Prop :=
  ∀ (s : State) (b : Byte), inTime s → s.p.stuffEn = true → s.rx.state ≠ .idle → s.rx.state ≠ .error →
    (b = s.p.marker →
      exec (.rxByte b) s = .next (answered .ok 0
        { s with
          rx.state := .len1, rx.crc := 0, rx.pos := 0, rx.len := 0
          rx.hdrFired := false, rx.readFired := false, rx.esc := false, rx.ts := s.now
          tx := relayEnded s.p true s.tx })) ∧
    (b ≠ s.p.marker → b = s.p.esc → s.rx.esc = false →
      exec (.rxByte b) s = .next (answered .ok 0 { s with rx.esc := true, rx.ts := s.now }))

/-- R126, R175: where the arms see bytes of a frame, a byte sent stuffed arrives as the byte itself: the
escape byte and then the cleared byte do, in two RX_BYTEs, what the byte itself would do at the second
one's time. -/
def Obligations.EscapedByteArrivesWhole : Prop :=
  ∀ (s t : State) (x : Byte) (now : Word),
    s.p.stuffEn = true → s.rx.state ≠ .idle → s.rx.state ≠ .error → s.rx.esc = false →
    (x = s.p.marker ∨ x = s.p.esc) →
    inTime s → (now - s.now).toNat ≤ s.p.maxDelay.toNat →
    exec (.rxByte s.p.esc) s = .next t →
      exec (.rxByte (x &&& 0x7F)) { t with now := now } =
        .next (respond .ok (rxArm x { s with rx.ts := now, now := now }).2.word
          (rxArm x { s with rx.ts := now, now := now }).1)

/-- R178, R179, R180: in IDLE a configured marker starts a frame and any other byte is junk; with no
marker configured the byte is the first length byte. -/
def Obligations.IdleByteStartsAFrameOrIsJunk : Prop :=
  ∀ (s : State) (b : Byte), s.rx.state = .idle →
    (s.p.markerEn = true → b = s.p.marker →
      exec (.rxByte b) s = .next (answered .ok 0
        { s with
          rx.state := .len1, rx.crc := 0, rx.pos := 0, rx.len := 0
          rx.hdrFired := false, rx.readFired := false, rx.esc := false, rx.ts := s.now })) ∧
    (s.p.markerEn = true → b ≠ s.p.marker →
      exec (.rxByte b) s = .next (answered .ok 0
        { s with rx.cntJunk := s.rx.cntJunk + 1, rx.ts := s.now })) ∧
    (s.p.markerEn = false → b = 0 →
      exec (.rxByte b) s = .next (answered .ok 0
        { s with
          rx.cntJunk := s.rx.cntJunk + 1, rx.crc := 0, rx.pos := 0, rx.len := 0
          rx.hdrFired := false, rx.readFired := false, rx.esc := false, rx.ts := s.now })) ∧
    (s.p.markerEn = false → b ≠ 0 →
      exec (.rxByte b) s = .next (answered .ok 0
        { s with
          rx.state := if s.p.longLen = true ∧ b.getLsbD 7 = true then .len2 else .data0
          rx.len := if s.p.longLen = true ∧ b.getLsbD 7 = true then (b &&& 0x7F).setWidth 15
            else b.setWidth 15
          rx.crc := crc16Add s.p.crcPoly 0 b, rx.pos := 0
          rx.hdrFired := false, rx.readFired := false, rx.esc := false, rx.ts := s.now }))

/-- R179, R180 LEN1, R182 LEN2: a zero first byte is junk and the receiver returns to IDLE; any other is
folded and read as the first length byte; the second length byte is folded and taken whole, zero or above
0x7F alike. -/
def Obligations.LengthBytesAreRead : Prop :=
  ∀ (s : State) (b v : Byte), inTime s → delivered s b = some v →
    (s.rx.state = .len1 → v = 0 →
      exec (.rxByte b) s = .next (answered .ok 0
        { atArm s with rx := { (atArm s).rx with state := .idle, cntJunk := s.rx.cntJunk + 1 } })) ∧
    (s.rx.state = .len1 → v ≠ 0 →
      exec (.rxByte b) s = .next (answered .ok 0
        { atArm s with rx :=
          { (atArm s).rx with
            crc := crc16Add s.p.crcPoly s.rx.crc v
            len := if s.p.longLen = true ∧ v.getLsbD 7 = true then (v &&& 0x7F).setWidth 15
              else v.setWidth 15
            state := if s.p.longLen = true ∧ v.getLsbD 7 = true then .len2 else .data0 } })) ∧
    (s.rx.state = .len2 →
      exec (.rxByte b) s = .next (answered .ok 0
        { atArm s with rx :=
          { (atArm s).rx with
            crc := crc16Add s.p.crcPoly s.rx.crc v
            len := s.rx.len ||| v.setWidth 15 <<< 7
            state := .data0 } }))

/-- R183 DATA0, oversized: the byte is discarded and the receiver enters ERROR; nothing is counted. -/
def Obligations.OversizedLengthEntersError : Prop :=
  ∀ (s : State) (b v : Byte), inTime s → s.rx.state = .data0 → delivered s b = some v →
    s.p.maxPacket < s.rx.len.toNat →
      exec (.rxByte b) s = .next (answered .ok 0
        { atArm s with rx := { (atArm s).rx with state := .error } })

/-- R184, R190 DATA0, zero length: HDR fires whatever `hdr_len` holds, and the byte is the first trailer
byte. -/
def Obligations.ZeroLengthFiresHdrAndGoesToTrailer : Prop :=
  ∀ (s : State) (b v : Byte), inTime s → s.rx.state = .data0 → delivered s b = some v →
    s.rx.len = 0 →
      exec (.rxByte b) s = .next (answered .ok 1
        { atArm s with rx :=
          { (atArm s).rx with
            hdrFired := true, crc := crc16Add s.p.crcPoly s.rx.crc v, state := .crc2 } })

/-- R185 to R189 DATA0 and DATA: a payload byte is folded, stored while capacity remains and counted as an
overrun otherwise, the milestones fire on equality and once, an open relay sends it at once, and the last
one leads to CRC1. -/
def Obligations.PayloadByteIsProcessed : Prop :=
  ∀ (s : State) (b v : Byte), inTime s → delivered s b = some v →
    (s.rx.state = .data ∨
      s.rx.state = .data0 ∧ s.rx.len ≠ 0 ∧ s.rx.len.toNat ≤ s.p.maxPacket) →
    let pos := s.rx.pos + 1
    let hdr : Bool := !s.rx.hdrFired && decide (s.rx.hdrLen.toNat = pos.toNat)
    let read : Bool := !s.rx.readFired && decide (s.rx.readLen.toNat = pos.toNat)
    exec (.rxByte b) s =
        .next (answered .ok ((if hdr then 1 else 0) + (if read then 2 else 0))
          { atArm s with
            rx :=
              { (atArm s).rx with
                crc := crc16Add s.p.crcPoly s.rx.crc v
                buf := if s.rx.pos.toNat < s.p.bufCap then (memWrite s.rx.pos.toNat v s.rx).buf
                  else s.rx.buf
                cntOverrun := if s.rx.pos.toNat < s.p.bufCap then s.rx.cntOverrun
                  else s.rx.cntOverrun + 1
                pos := pos
                hdrFired := s.rx.hdrFired || hdr
                readFired := s.rx.readFired || read
                state := if pos.toNat = s.rx.len.toNat then .crc1 else .data }
            tx :=
              if s.tx.copy = true then
                if s.tx.remain = 0 then { s.tx with ovr := true }
                else
                  { s.tx with
                    crc := crc16Add s.p.crcPoly s.tx.crc v
                    out := s.tx.out ++ stuffed s.p v
                    remain := s.tx.remain - 1 }
              else s.tx })

/-- R190 CRC1. -/
def Obligations.FirstTrailerByteIsFolded : Prop :=
  ∀ (s : State) (b v : Byte), inTime s → s.rx.state = .crc1 → delivered s b = some v →
    exec (.rxByte b) s = .next (answered .ok 0
      { atArm s with rx :=
        { (atArm s).rx with crc := crc16Add s.p.crcPoly s.rx.crc v, state := .crc2 } })

/-- R191, R192 CRC2: the frame is accepted iff the folded accumulator is 0. Accepted: its length is
recorded (in a reachable state it is the declared one), FRAME raised, an open relay closed clean.
Rejected: it is counted, no event is raised, the recorded length stays, and an open relay is closed as
broken. -/
def Obligations.FrameIsAcceptedOnZeroResidue : Prop :=
  ∀ (s : State) (b v : Byte), inTime s → s.rx.state = .crc2 → delivered s b = some v →
    (crc16Add s.p.crcPoly s.rx.crc v = 0 →
      exec (.rxByte b) s = .next (answered .ok 4
        { atArm s with
          rx := { (atArm s).rx with crc := 0, flen := s.rx.pos, state := .idle }
          tx := relayEnded s.p false s.tx })) ∧
    (crc16Add s.p.crcPoly s.rx.crc v ≠ 0 →
      exec (.rxByte b) s = .next (answered .ok 0
        { atArm s with
          rx :=
            { (atArm s).rx with
              crc := crc16Add s.p.crcPoly s.rx.crc v, cntCrc := s.rx.cntCrc + 1, state := .idle }
          tx := relayEnded s.p true s.tx })) ∧
    (Inv s → s.rx.pos.toNat = s.rx.len.toNat)

/-- R193: in ERROR a byte in time is discarded and writes only the timestamp; ERROR is left only by a late
RX_BYTE, an RX_RESET or a block reset. -/
def Obligations.ErrorAbsorbsBytes : Prop :=
  (∀ (s : State) (b : Byte), s.rx.state = .error → (s.now - s.rx.ts).toNat ≤ s.p.maxDelay.toNat →
    exec (.rxByte b) s = .next (answered .ok 0 { s with rx.ts := s.now })) ∧
  ∀ s t : State, s.rx.state = .error → step s = .next t → t.rx.state ≠ .error →
    (∃ rest, s.queue = .reset :: rest) ∨
    ∃ w now rest, s.queue = .command w now :: rest ∧
      (decode w = .ok .rxReset ∨
        ∃ b, decode w = .ok (.rxByte b) ∧ s.p.maxDelay.toNat < (now - s.rx.ts).toNat)

/-- R196, R177 RX_RESET: the receiver is forced to IDLE and an open relay closed as broken; in IDLE with
no relay a reachable state changes only in `last_err`. -/
def Obligations.RxResetForcesIdle : Prop :=
  (∀ w : Word, decode w = .ok .rxReset ↔ w = 0x02000000) ∧
  (∀ s : State, exec .rxReset s = .next (answered .ok 0
    { s with rx.state := .idle, rx.esc := false, tx := relayEnded s.p true s.tx })) ∧
  ∀ s : State, Inv s → s.rx.state = .idle → exec .rxReset s = .next (answered .ok 0 s)

/-- R52, R173: what each counter counts in an RX_BYTE, and that no other command but REG_WRITE changes
one. -/
def Obligations.CountersCountTheirEvents : Prop :=
  (∀ (s t : State) (b : Byte), exec (.rxByte b) s = .next t → inTime s →
    t.rx.cntTimeout = s.rx.cntTimeout ∧
    t.rx.cntJunk = s.rx.cntJunk +
      (if (s.rx.state = .idle ∧ s.p.markerEn = true ∧ b ≠ s.p.marker) ∨
          (s.rx.state = .idle ∧ s.p.markerEn = false ∧ b = 0) ∨
          (s.rx.state = .len1 ∧ delivered s b = some 0) then 1 else 0) ∧
    t.rx.cntCrc = s.rx.cntCrc +
      (match delivered s b with
        | some v => if s.rx.state = .crc2 ∧ crc16Add s.p.crcPoly s.rx.crc v ≠ 0 then 1 else 0
        | none => 0) ∧
    t.rx.cntOverrun = s.rx.cntOverrun +
      (if (s.rx.state = .data ∨
            s.rx.state = .data0 ∧ s.rx.len ≠ 0 ∧ s.rx.len.toNat ≤ s.p.maxPacket) ∧
          (delivered s b).isSome = true ∧ s.p.bufCap ≤ s.rx.pos.toNat then 1 else 0)) ∧
  (∀ (s t : State) (b : Byte), exec (.rxByte b) s = .next t → ¬ inTime s →
    t.rx.cntTimeout = s.rx.cntTimeout + 1 ∧
    t.rx.cntJunk = s.rx.cntJunk +
      (if (s.p.markerEn = true ∧ b ≠ s.p.marker) ∨ (s.p.markerEn = false ∧ b = 0) then 1 else 0) ∧
    t.rx.cntCrc = s.rx.cntCrc ∧ t.rx.cntOverrun = s.rx.cntOverrun) ∧
  ∀ (i : Instr) (s t : State), exec i s = .next t →
    (∀ b, i ≠ .rxByte b) → (∀ r v, i ≠ .regWrite r v) →
      t.rx.cntTimeout = s.rx.cntTimeout ∧ t.rx.cntJunk = s.rx.cntJunk ∧
      t.rx.cntCrc = s.rx.cntCrc ∧ t.rx.cntOverrun = s.rx.cntOverrun

/-- R194, R201: an RX_BYTE reports nothing, HDR, READ, both, or FRAME alone. HDR and READ are reported at
most once per frame: only with their flag clear, which is then set, and a flag that is set is cleared only
where a frame starts. FRAME is reported only with the return to IDLE. -/
def Obligations.MilestonesFireOncePerFrame : Prop :=
  ∀ (s t : State) (b : Byte), Inv s → exec (.rxByte b) s = .next t →
    ∃ d : Word, t.resp = some { err := .ok, data := d } ∧ d.toNat ≤ 4 ∧
      (d.getLsbD 0 = true → s.rx.hdrFired = false ∧ t.rx.hdrFired = true) ∧
      (d.getLsbD 1 = true → s.rx.readFired = false ∧ t.rx.readFired = true) ∧
      (d.getLsbD 2 = true → s.rx.state = .crc2 ∧ t.rx.state = .idle) ∧
      (inTime s →
        ((s.rx.hdrFired = true ∧ t.rx.hdrFired = false) ∨
          (s.rx.readFired = true ∧ t.rx.readFired = false)) →
        s.rx.state = .idle ∨ (stuffingActive s = true ∧ b = s.p.marker))

/-! ## The whole block -/

/-- R205 and the bounds of spec/10_state.md: every step keeps the invariant, from every state that
satisfies it. -/
def Obligations.EveryStepKeepsTheInvariant : Prop :=
  ∀ s t : State, Inv s → step s = .next t → Inv t

/-- The reset state of every instance satisfies the invariant. -/
def Obligations.ResetSatisfiesTheInvariant : Prop :=
  (∀ inst : Config.Instance, Inv (State.resetWith inst)) ∧ Inv State.reset

/-- R283: a command that answers an error, BAD_CMD among them, changes `last_err` and the response only, and
a TX_OVERRUN also `tx_ovr`. (The clock input shows the word's clock value and the queue advances: the
model's ports, assumption log 3.) -/
def Obligations.RefusedCommandsChangeNothing : Prop :=
  ∀ (s t : State) (w now : Word) (rest : List HostInput),
    s.queue = .command w now :: rest → step s = .next t → t.lastErr ≠ .ok →
      let u : State := { s with now := now, queue := rest }
      t = answered t.lastErr 0 (if t.lastErr = .txOverrun then { u with tx.ovr := true } else u)

/-- R284, R108: the codes each command can return, `last_err` and the response alike. -/
def Obligations.CommandsReturnOnlyTheirCodes : Prop :=
  ∀ (i : Instr) (s t : State), exec i s = .next t →
    (∃ d, t.resp = some { err := t.lastErr, data := d }) ∧
    t.lastErr ∈ (match i with
      | .txStart _ => [ErrCode.ok, .txBusy, .txLen]
      | .txByte _ => [.ok, .txNotOpen, .txOverrun]
      | .txEnd _ => [.ok, .txNotOpen, .txBusy]
      | .txCopy _ => [.ok, .txBusy, .copyIllegal, .txLen]
      | .regRead _ => [.ok, .badReg]
      | .regWrite _ _ => [.ok, .badReg, .readOnly]
      | .bufRead _ => [.ok, .badIndex]
      | .bufWrite _ _ => [.ok, .badIndex]
      | .nop | .rxByte _ | .rxReset | .crcRestart | .crcAdd _ | .crcValue => [.ok])

/-- R263, R313: no step, a reset among them, changes an instance parameter. -/
def Obligations.ParametersNeverChange : Prop :=
  ∀ s t : State, step s = .next t → t.inst = s.inst

/-- R59: in IDLE the value of `rx_ts` cannot be seen through any command but a read of RX_TS: with another
value every command answers the same, and leaves the same state, but for `rx_ts` itself where the command
does not write it. -/
def Obligations.IdleTimestampIsUnobservable : Prop :=
  ∀ (i : Instr) (s t : State) (x : Word), s.rx.state = .idle → i ≠ .regRead 0x05 → exec i s = .next t →
    exec i { s with rx.ts := x } = .next
      (match i with
        | .rxByte _ => t
        | _ => { t with rx.ts := x })

/-- R197, R91: chunking independence: what the host has queued behind a command does not change what the
command does, so issuing inputs in two batches or in one gives the same. -/
def Obligations.BatchingDoesNotMatter : Prop :=
  ∀ (s t : State) (xs ys : List HostInput),
    Sys2Proof.core.run xs.length { s with queue := xs } = .next t →
      Sys2Proof.core.run xs.length { s with queue := xs ++ ys } = .next { t with queue := ys }

/-- R200: once in ERROR, no FRAME is reported by any sequence of bytes in which no byte comes late. -/
def Obligations.NoFrameComesFromError : Prop :=
  ∀ (s t : State) (arrivals : List (Byte × Word)) (k : Nat),
    s.rx.state = .error → s.queue = feed arrivals → 0 < k → k ≤ arrivals.length →
    gapsWithin s.p.maxDelay ((0, s.rx.ts) :: arrivals) →
    Sys2Proof.core.run k s = .next t → t.rx.state = .error ∧ reportsFrame t = false

/-- R111, R120, R124, R233: the pseudo-command SEND puts exactly the payload's wire frame on the output,
and leaves the sender closed and the receiver as it was. -/
def Obligations.SendEmitsTheWireFrame : Prop :=
  ∀ (s : State) (payload : List Byte) (now : Word),
    s.tx.isOpen = false → payload.length ≤ s.p.maxPacket →
    s.queue = (sendCommands payload false).map (issue now) →
      ∃ t, Sys2Proof.core.run (payload.length + 2) s = .next t ∧
        t.tx.out = s.tx.out ++ wireFrame s.p payload ∧
        t.tx.isOpen = false ∧ t.tx.remain = 0 ∧ t.tx.ovr = false ∧ t.lastErr = .ok ∧ t.rx = s.rx ∧
        t.queue = []

/-- R199: a frame cut off by a gap above MAX_DELAY is dropped with no FRAME, and a complete frame after the
gap is received all the same, with one timeout counted: FRAME on its last byte and on no byte before it,
its length recorded, and of its payload in the buffer what fits there. -/
def Obligations.FrameAfterAGapIsReceived : Prop :=
  ∀ (s : State) (payload : List Byte) (arrivals : List (Byte × Word)),
    s.rx.state ≠ .idle → payload ≠ [] → payload.length ≤ s.p.maxPacket →
    arrivals.map Prod.fst = wireFrame s.p payload → gapsWithin s.p.maxDelay arrivals →
    (∀ a ∈ arrivals.head?, s.p.maxDelay.toNat < (a.2 - s.rx.ts).toNat) →
    s.queue = feed arrivals →
      (∃ t, Sys2Proof.core.run arrivals.length s = .next t ∧ reportsFrame t = true ∧
        t.rx.state = .idle ∧ t.rx.flen.toNat = payload.length ∧
        (∀ (i : Nat) (h : i < payload.length), i < s.p.bufCap → memRead i t.rx = payload[i]) ∧
        t.rx.cntTimeout = s.rx.cntTimeout + 1) ∧
      ∀ (k : Nat) (u : State), 0 < k → k < arrivals.length →
        Sys2Proof.core.run k s = .next u → reportsFrame u = false

/-- R198: the round trip: what SEND puts out on one instance, an idle instance with the same parameters
receives as the payload that was sent: FRAME on the last byte and on no byte before it, the payload in the
buffer, its length recorded, and no counter changed. -/
def Obligations.SentPayloadIsReceived : Prop :=
  ∀ (s r t : State) (payload : List Byte) (now : Word) (arrivals : List (Byte × Word)),
    s.tx.isOpen = false → 1 ≤ payload.length → payload.length ≤ s.p.maxPacket →
    payload.length ≤ s.p.bufCap →
    s.queue = (sendCommands payload false).map (issue now) →
    Sys2Proof.core.run (payload.length + 2) s = .next t →
    r.inst = s.inst → r.rx.state = .idle →
    s.tx.out ++ arrivals.map Prod.fst = t.tx.out → gapsWithin r.p.maxDelay arrivals →
    r.queue = feed arrivals →
      (∃ u, Sys2Proof.core.run arrivals.length r = .next u ∧ reportsFrame u = true ∧
        u.rx.state = .idle ∧ u.rx.flen.toNat = payload.length ∧
        (∀ (i : Nat) (h : i < payload.length), memRead i u.rx = payload[i]) ∧
        u.rx.cntTimeout = r.rx.cntTimeout ∧ u.rx.cntJunk = r.rx.cntJunk ∧
        u.rx.cntCrc = r.rx.cntCrc ∧ u.rx.cntOverrun = r.rx.cntOverrun) ∧
      ∀ (k : Nat) (u : State), 0 < k → k < arrivals.length →
        Sys2Proof.core.run k r = .next u → reportsFrame u = false

/-- R243: a relay opened with `TX_COPY 0` at the header milestone puts out the upstream frame byte for
byte, trailer included, and is closed with FRAME on the upstream frame's last byte. -/
def Obligations.RelayReproducesTheFrame : Prop :=
  ∀ (s : State) (payload : List Byte) (before after : List (Byte × Word)) (now : Word),
    s.rx.state = .idle → s.tx.isOpen = false → s.tx.copy = false →
    1 ≤ s.rx.hdrLen.toNat → s.rx.hdrLen.toNat ≤ payload.length →
    payload.length ≤ s.p.maxPacket → s.rx.hdrLen.toNat ≤ s.p.bufCap →
    before.map Prod.fst =
      markerBytes s.p ++
        stuffAll s.p (lengthBytes (BitVec.ofNat 14 payload.length) ++ payload.take s.rx.hdrLen.toNat) →
    (before ++ after).map Prod.fst = wireFrame s.p payload →
    gapsWithin s.p.maxDelay (before ++ after) →
    s.queue = feed before ++ issue now (.txCopy 0) :: feed after →
      ∃ t, Sys2Proof.core.run (before.length + 1 + after.length) s = .next t ∧
        t.tx.out = s.tx.out ++ wireFrame s.p payload ∧ t.tx.isOpen = false ∧ t.tx.copy = false ∧
        reportsFrame t = true
end

