-- ==== Sys2Proof/Laws/Crc.lean ====
section
/-! SUPPORT. Small lemmas of the CRC fold (spec/40_crc.md R150). -/

namespace Sys2Proof.Machine

@[simp] theorem crcOf_nil (poly c : Half) : crcOf poly c [] = c := rfl

@[simp] theorem crcOf_cons (poly c : Half) (x : Byte) (xs : List Byte) :
    crcOf poly c (x :: xs) = crcOf poly (crc16Add poly c x) xs := rfl

@[simp] theorem crcOf_append (poly c : Half) (xs ys : List Byte) :
    crcOf poly c (xs ++ ys) = crcOf poly (crcOf poly c xs) ys := by
  simp [crcOf]

/-- R150: the fold is eight turns of its loop, most significant bit first. -/
theorem crc16Add_eq_shifts (poly c : Half) (b : Byte) :
    crc16Add poly c b =
      crcShift poly (crcShift poly (crcShift poly (crcShift poly (crcShift poly (crcShift poly
        (crcShift poly (crcShift poly c (b.getLsbD 7)) (b.getLsbD 6)) (b.getLsbD 5)) (b.getLsbD 4))
        (b.getLsbD 3)) (b.getLsbD 2)) (b.getLsbD 1)) (b.getLsbD 0) := rfl

/-- One turn of the loop is linear over GF(2) in accumulator and input bit together. -/
theorem crcShift_xor (poly c d : Half) (x y : Bool) :
    crcShift poly (c ^^^ d) (x ^^ y) = crcShift poly c x ^^^ crcShift poly d y := by
  have hshift : (c ^^^ d) <<< 1 = c <<< 1 ^^^ d <<< 1 := BitVec.shiftLeft_xor_distrib c d 1
  simp only [crcShift, hshift, BitVec.getLsbD_xor]
  apply BitVec.eq_of_getLsbD_eq
  intro i _
  cases c.getLsbD 15 <;> cases d.getLsbD 15 <;> cases x <;> cases y <;>
    simp only [BitVec.getLsbD_xor, Bool.xor_true, Bool.xor_false, Bool.not_true, Bool.not_false, if_true, if_false,
      Bool.false_eq_true] <;>
    cases (c <<< 1).getLsbD i <;> cases (d <<< 1).getLsbD i <;> cases poly.getLsbD i <;> rfl

/-- A zero byte folded into a zero accumulator leaves it 0 (R158). -/
@[simp] theorem crc16Add_zero_zero (poly : Half) : crc16Add poly 0 0 = 0 := by
  simp [crc16Add_eq_shifts, crcShift]

end Sys2Proof.Machine
end

