-- ==== Sys2Proof/Laws/Memory.lean ====
section
/-! SUPPORT. The receive buffer: a read after a write, the canonical form, and that equal buffers are
equal lists (spec/00_scope.md R17, spec/20_memory.md R80, R88). -/

namespace Sys2Proof.Machine

/-- Reading a buffer list after a write: the byte written at that index, the old one elsewhere. -/
theorem Memory.find_insert (i j : Nat) (v : Byte) (m : List Cell) :
    Memory.find j (Memory.insert i v m) = if j = i then some v else Memory.find j m := by
  induction m with
  | nil =>
    by_cases h : j = i
    · simp [Memory.insert, Memory.find, h]
    · simp [Memory.insert, Memory.find, h, Ne.symm h]
  | cons c m ih =>
    simp only [Memory.insert]
    split
    · by_cases h : j = i
      · simp [Memory.find, h]
      · simp [Memory.find, h, Ne.symm h]
    · split
      · rename_i h
        by_cases hj : j = i
        · simp [Memory.find, hj]
        · simp [Memory.find, h, hj, Ne.symm hj]
      · rename_i h
        simp only [Memory.find, ih]
        by_cases hj : j = i
        · subst hj
          simp [h]
        · simp [hj]

/-- A write leaves the list rising above every bound it rose above, if the index does. -/
theorem Memory.insert_risesAbove {b i : Nat} {v : Byte} {m : List Cell} (hb : b < i)
    (h : Memory.risesAbove b m = true) : Memory.risesAbove b (Memory.insert i v m) = true := by
  induction m generalizing b with
  | nil => simp [Memory.insert, Memory.risesAbove, hb]
  | cons c m ih =>
    simp only [Memory.risesAbove, Bool.and_eq_true, decide_eq_true_eq] at h
    simp only [Memory.insert]
    split
    · rename_i hc
      simp [Memory.risesAbove, hb, hc, h.2]
    · split
      · rename_i hc
        subst hc
        simp [Memory.risesAbove, h.1, h.2]
      · rename_i h1 h2
        simp [Memory.risesAbove, h.1, ih (by omega : c.1 < i) h.2]

/-- A write keeps the canonical form. -/
theorem Memory.insert_wf {i : Nat} {v : Byte} {m : List Cell} (h : Memory.wf m = true) :
    Memory.wf (Memory.insert i v m) = true := by
  cases m with
  | nil => rfl
  | cons c m =>
    have h' : Memory.risesAbove c.1 m = true := h
    simp only [Memory.insert]
    split
    · rename_i hc
      simp [Memory.wf, Memory.risesAbove, hc, h']
    · split
      · rename_i hc
        subst hc
        simpa [Memory.wf] using h'
      · simpa [Memory.wf] using Memory.insert_risesAbove (by omega) h'

/-- A write at an index that exists keeps every listed index within the capacity. -/
theorem Memory.insert_within {cap i : Nat} {v : Byte} {m : List Cell} (hi : i < cap)
    (h : Memory.within cap m = true) : Memory.within cap (Memory.insert i v m) = true := by
  induction m with
  | nil => simp [Memory.insert, Memory.within, hi]
  | cons c m ih =>
    have hc : c.1 < cap := by simp only [Memory.within, List.all_cons, Bool.and_eq_true, decide_eq_true_eq] at h; exact h.1
    have hm : Memory.within cap m = true := by simp only [Memory.within, List.all_cons, Bool.and_eq_true] at h; exact h.2
    simp only [Memory.insert]
    split
    · simp only [Memory.within, List.all_cons, Bool.and_eq_true, decide_eq_true_eq]
      exact ⟨hi, hc, hm⟩
    · split
      · simp only [Memory.within, List.all_cons, Bool.and_eq_true, decide_eq_true_eq]
        exact ⟨hi, hm⟩
      · simp only [Memory.within, List.all_cons, Bool.and_eq_true, decide_eq_true_eq]
        exact ⟨hc, ih hm⟩

/-- No index at or below a bound that the list rises above is listed. -/
theorem Memory.find_eq_none_of_risesAbove {b j : Nat} {m : List Cell} (hj : j ≤ b)
    (h : Memory.risesAbove b m = true) : Memory.find j m = none := by
  induction m generalizing b with
  | nil => rfl
  | cons c m ih =>
    simp only [Memory.risesAbove, Bool.and_eq_true, decide_eq_true_eq] at h
    simp only [Memory.find]
    rw [if_neg (by omega), ih (by omega) h.2]

/-- Buffers in canonical form that read alike are the same list. -/
theorem Memory.ext_of_wf {m m' : List Cell} (h : Memory.wf m = true) (h' : Memory.wf m' = true)
    (hread : ∀ j, Memory.find j m = Memory.find j m') : m = m' := by
  induction m generalizing m' with
  | nil =>
    cases m' with
    | nil => rfl
    | cons c m' => simpa [Memory.find] using hread c.1
  | cons c m ih =>
    cases m' with
    | nil => simpa [Memory.find] using hread c.1
    | cons c' m' =>
      have hm : Memory.risesAbove c.1 m = true := h
      have hm' : Memory.risesAbove c'.1 m' = true := h'
      have hc : c.1 = c'.1 := by
        rcases Nat.lt_trichotomy c.1 c'.1 with hlt | heq | hgt
        · have := hread c.1
          rw [Memory.find, if_pos rfl, Memory.find, if_neg (by omega),
            Memory.find_eq_none_of_risesAbove (by omega) hm'] at this
          cases this
        · exact heq
        · have := hread c'.1
          rw [Memory.find, if_neg (by omega), Memory.find_eq_none_of_risesAbove (by omega) hm,
            Memory.find, if_pos rfl] at this
          cases this
      have hv : c.2 = c'.2 := by simpa [Memory.find, hc] using hread c.1
      have hrest : m = m' := by
        refine ih ?_ ?_ fun j => ?_
        · cases m with
          | nil => rfl
          | cons d m => simp_all [Memory.wf, Memory.risesAbove]
        · cases m' with
          | nil => rfl
          | cons d m' => simp_all [Memory.wf, Memory.risesAbove]
        · by_cases hj : j ≤ c.1
          · rw [Memory.find_eq_none_of_risesAbove hj hm,
              Memory.find_eq_none_of_risesAbove (by omega) hm']
          · simpa [Memory.find, show c.1 ≠ j by omega, show c'.1 ≠ j by omega] using hread j
      rw [hrest, Prod.ext hc hv]

/-- R17: `MemRead` after `MemWrite`. -/
theorem memRead_memWrite (i j : Nat) (v : Byte) (r : Receiver) :
    memRead j (memWrite i v r) = if j = i then v else memRead j r := by
  simp only [memRead, memWrite, Memory.find_insert]
  split <;> rfl

/-- R17: `MemWrite` keeps the canonical form and stays within the capacity. -/
theorem memWrite_keeps_form {cap i : Nat} {v : Byte} {r : Receiver} (hi : i < cap)
    (h : Memory.wf r.buf = true) (hw : Memory.within cap r.buf = true) :
    Memory.wf (memWrite i v r).buf = true ∧ Memory.within cap (memWrite i v r).buf = true :=
  ⟨Memory.insert_wf h, Memory.insert_within hi hw⟩

/-- R310: the buffer right after reset is in canonical form. -/
theorem reset_buf_wf (inst : Config.Instance) : Memory.wf (State.resetWith inst).rx.buf = true := rfl

end Sys2Proof.Machine
end

