-- ==== Sys2Proof/Laws/PerInstr.lean ====
section
/-! SUPPORT. A statement about every command as syntax, one lemma per constructor: its word keeps every
bit that its row of the decode table fixes (spec/30_encoding.md R101 to R103). -/

namespace Sys2Proof.Laws.EncodeKeepsFixedBits

/-- R102, R103: the match and the mask of a command's row. -/
def fixedBits : Instr → Word × Word
  | .nop => (0x00000000, 0xFFFFFFFF)
  | .rxByte _ => (0x01000000, 0xFFFFFF00)
  | .rxReset => (0x02000000, 0xFFFFFFFF)
  | .txStart _ => (0x10000000, 0xFFFF0000)
  | .txByte _ => (0x11000000, 0xFFFFFF00)
  | .txEnd _ => (0x12000000, 0xFFFFFFFE)
  | .txCopy _ => (0x13000000, 0xFFFF0000)
  | .crcRestart => (0x20000000, 0xFFFFFFFF)
  | .crcAdd _ => (0x21000000, 0xFFFFFF00)
  | .crcValue => (0x22000000, 0xFFFFFFFF)
  | .regRead _ => (0x30000000, 0xFF00FFFF)
  | .regWrite _ _ => (0x31000000, 0xFF000000)
  | .bufRead _ => (0x32000000, 0xFF0000FF)
  | .bufWrite _ _ => (0x33000000, 0xFF000000)

/-- The word of a command agrees with its row of R103 in every bit the row fixes. -/
def Statement (i : Instr) : Prop := encode i &&& (fixedBits i).2 = (fixedBits i).1

/-- A field below bit `k` is gone under a mask that keeps only bits from `k` up; the opcode stays. -/
theorem lowWord_masked (op : Byte) (low : Half) (mask : Word)
    (hop : opWord op &&& mask = opWord op) (hlow : low.setWidth 32 &&& mask = 0) :
    lowWord op low &&& mask = opWord op := by
  rw [lowWord, BitVec.and_or_distrib_right, hop, hlow]
  exact BitVec.or_zero

theorem byte_masked (b : Byte) : (b.setWidth 16).setWidth 32 &&& (0xFFFFFF00 : Word) = 0 := by
  revert b
  decide

theorem half_masked (n : Half) : n.setWidth 32 &&& (0xFFFF0000 : Word) = 0 := by
  apply BitVec.eq_of_getLsbD_eq
  intro i hi
  interval_cases i <;> simp

theorem indexWord_masked (op : Byte) (i : Half) (b : Byte) :
    indexWord op i b &&& 0xFF000000 = opWord op := by
  apply BitVec.eq_of_getLsbD_eq
  intro j hj
  interval_cases j <;> simp [indexWord, opWord]

theorem regWord_masked (op r : Byte) (v : Half) : regWord op r v &&& 0xFF000000 = opWord op := by
  apply BitVec.eq_of_getLsbD_eq
  intro j hj
  interval_cases j <;> simp [regWord, opWord]

theorem nop : Statement .nop := by
  unfold Statement
  decide

theorem rxByte (b : Byte) : Statement (.rxByte b) :=
  lowWord_masked 0x01 _ 0xFFFFFF00 (by decide) (byte_masked b)

theorem rxReset : Statement .rxReset := by
  unfold Statement
  decide

theorem txStart (n : Word) : Statement (.txStart n) :=
  lowWord_masked 0x10 _ 0xFFFF0000 (by decide) (half_masked _)

theorem txByte (b : Byte) : Statement (.txByte b) :=
  lowWord_masked 0x11 _ 0xFFFFFF00 (by decide) (byte_masked b)

theorem txEnd (f : Bool) : Statement (.txEnd f) := by
  unfold Statement
  revert f
  decide

theorem txCopy (d : Word) : Statement (.txCopy d) :=
  lowWord_masked 0x13 _ 0xFFFF0000 (by decide) (half_masked _)

theorem crcRestart : Statement .crcRestart := by
  unfold Statement
  decide

theorem crcAdd (b : Byte) : Statement (.crcAdd b) :=
  lowWord_masked 0x21 _ 0xFFFFFF00 (by decide) (byte_masked b)

theorem crcValue : Statement .crcValue := by
  unfold Statement
  decide

theorem regRead (r : Byte) : Statement (.regRead r) := by
  unfold Statement
  revert r
  decide

theorem regWrite (r : Byte) (v : Half) : Statement (.regWrite r v) := regWord_masked 0x31 r v

theorem bufRead (i : Half) : Statement (.bufRead i) := by
  apply BitVec.eq_of_getLsbD_eq
  intro j hj
  simp only [encode, fixedBits, indexWord, opWord]
  interval_cases j <;> simp

theorem bufWrite (i : Half) (b : Byte) : Statement (.bufWrite i b) := indexWord_masked 0x33 i b

end Sys2Proof.Laws.EncodeKeepsFixedBits
end

