-- ==== Sys2Proof/Laws/State.lean ====
section
/-! SUPPORT. What each straight-line update of the state leaves in each field, once, so that no later
proof unfolds a record update. -/

namespace Sys2Proof.Machine

/-! `respond` (R281). -/

@[simp] theorem respond_inst (e : ErrCode) (d : Word) (s : State) : (respond e d s).inst = s.inst := rfl
@[simp] theorem respond_rx (e : ErrCode) (d : Word) (s : State) : (respond e d s).rx = s.rx := rfl
@[simp] theorem respond_tx (e : ErrCode) (d : Word) (s : State) : (respond e d s).tx = s.tx := rfl
@[simp] theorem respond_auxCrc (e : ErrCode) (d : Word) (s : State) : (respond e d s).auxCrc = s.auxCrc := rfl
@[simp] theorem respond_lastErr (e : ErrCode) (d : Word) (s : State) : (respond e d s).lastErr = e := rfl
@[simp] theorem respond_now (e : ErrCode) (d : Word) (s : State) : (respond e d s).now = s.now := rfl
@[simp] theorem respond_queue (e : ErrCode) (d : Word) (s : State) : (respond e d s).queue = s.queue := rfl
@[simp] theorem respond_resp (e : ErrCode) (d : Word) (s : State) : (respond e d s).resp = some ⟨e, d⟩ := rfl

/-! `present` (R107). -/

@[simp] theorem present_inst (t : Word) (rest : List HostInput) (s : State) : (present t rest s).inst = s.inst := rfl
@[simp] theorem present_rx (t : Word) (rest : List HostInput) (s : State) : (present t rest s).rx = s.rx := rfl
@[simp] theorem present_tx (t : Word) (rest : List HostInput) (s : State) : (present t rest s).tx = s.tx := rfl
@[simp] theorem present_auxCrc (t : Word) (rest : List HostInput) (s : State) : (present t rest s).auxCrc = s.auxCrc := rfl
@[simp] theorem present_lastErr (t : Word) (rest : List HostInput) (s : State) : (present t rest s).lastErr = s.lastErr := rfl
@[simp] theorem present_now (t : Word) (rest : List HostInput) (s : State) : (present t rest s).now = t := rfl
@[simp] theorem present_queue (t : Word) (rest : List HostInput) (s : State) : (present t rest s).queue = rest := rfl
@[simp] theorem present_resp (t : Word) (rest : List HostInput) (s : State) : (present t rest s).resp = s.resp := rfl

/-! `blockReset` (R310, R311). -/

@[simp] theorem blockReset_inst (rest : List HostInput) (s : State) : (blockReset rest s).inst = s.inst := rfl
@[simp] theorem blockReset_rx (rest : List HostInput) (s : State) : (blockReset rest s).rx = Receiver.reset (s.rx.draws + 1) := rfl
@[simp] theorem blockReset_tx (rest : List HostInput) (s : State) : (blockReset rest s).tx = Sender.reset s.tx.out := rfl
@[simp] theorem blockReset_auxCrc (rest : List HostInput) (s : State) : (blockReset rest s).auxCrc = 0 := rfl
@[simp] theorem blockReset_lastErr (rest : List HostInput) (s : State) : (blockReset rest s).lastErr = .ok := rfl
@[simp] theorem blockReset_now (rest : List HostInput) (s : State) : (blockReset rest s).now = s.now := rfl
@[simp] theorem blockReset_queue (rest : List HostInput) (s : State) : (blockReset rest s).queue = rest := rfl
@[simp] theorem blockReset_resp (rest : List HostInput) (s : State) : (blockReset rest s).resp = none := rfl

/-! `count` (R52). -/

@[simp] theorem count_state (k : Counter) (r : Receiver) : (count k r).state = r.state := by cases k <;> rfl
@[simp] theorem count_pos (k : Counter) (r : Receiver) : (count k r).pos = r.pos := by cases k <;> rfl
@[simp] theorem count_len (k : Counter) (r : Receiver) : (count k r).len = r.len := by cases k <;> rfl
@[simp] theorem count_crc (k : Counter) (r : Receiver) : (count k r).crc = r.crc := by cases k <;> rfl
@[simp] theorem count_flen (k : Counter) (r : Receiver) : (count k r).flen = r.flen := by cases k <;> rfl
@[simp] theorem count_ts (k : Counter) (r : Receiver) : (count k r).ts = r.ts := by cases k <;> rfl
@[simp] theorem count_hdrFired (k : Counter) (r : Receiver) : (count k r).hdrFired = r.hdrFired := by cases k <;> rfl
@[simp] theorem count_readFired (k : Counter) (r : Receiver) : (count k r).readFired = r.readFired := by cases k <;> rfl
@[simp] theorem count_esc (k : Counter) (r : Receiver) : (count k r).esc = r.esc := by cases k <;> rfl
@[simp] theorem count_hdrLen (k : Counter) (r : Receiver) : (count k r).hdrLen = r.hdrLen := by cases k <;> rfl
@[simp] theorem count_readLen (k : Counter) (r : Receiver) : (count k r).readLen = r.readLen := by cases k <;> rfl
@[simp] theorem count_buf (k : Counter) (r : Receiver) : (count k r).buf = r.buf := by cases k <;> rfl
@[simp] theorem count_draws (k : Counter) (r : Receiver) : (count k r).draws = r.draws := by cases k <;> rfl

@[simp] theorem count_timeout_cntTimeout (r : Receiver) : (count .timeout r).cntTimeout = r.cntTimeout + 1 := rfl
@[simp] theorem count_timeout_cntJunk (r : Receiver) : (count .timeout r).cntJunk = r.cntJunk := rfl
@[simp] theorem count_timeout_cntCrc (r : Receiver) : (count .timeout r).cntCrc = r.cntCrc := rfl
@[simp] theorem count_timeout_cntOverrun (r : Receiver) : (count .timeout r).cntOverrun = r.cntOverrun := rfl
@[simp] theorem count_junk_cntTimeout (r : Receiver) : (count .junk r).cntTimeout = r.cntTimeout := rfl
@[simp] theorem count_junk_cntJunk (r : Receiver) : (count .junk r).cntJunk = r.cntJunk + 1 := rfl
@[simp] theorem count_junk_cntCrc (r : Receiver) : (count .junk r).cntCrc = r.cntCrc := rfl
@[simp] theorem count_junk_cntOverrun (r : Receiver) : (count .junk r).cntOverrun = r.cntOverrun := rfl
@[simp] theorem count_crc_cntTimeout (r : Receiver) : (count .crc r).cntTimeout = r.cntTimeout := rfl
@[simp] theorem count_crc_cntJunk (r : Receiver) : (count .crc r).cntJunk = r.cntJunk := rfl
@[simp] theorem count_crc_cntCrc (r : Receiver) : (count .crc r).cntCrc = r.cntCrc + 1 := rfl
@[simp] theorem count_crc_cntOverrun (r : Receiver) : (count .crc r).cntOverrun = r.cntOverrun := rfl
@[simp] theorem count_overrun_cntTimeout (r : Receiver) : (count .overrun r).cntTimeout = r.cntTimeout := rfl
@[simp] theorem count_overrun_cntJunk (r : Receiver) : (count .overrun r).cntJunk = r.cntJunk := rfl
@[simp] theorem count_overrun_cntCrc (r : Receiver) : (count .overrun r).cntCrc = r.cntCrc := rfl
@[simp] theorem count_overrun_cntOverrun (r : Receiver) : (count .overrun r).cntOverrun = r.cntOverrun + 1 := rfl

/-! `memWrite` (R17). -/

@[simp] theorem memWrite_state (i : Nat) (v : Byte) (r : Receiver) : (memWrite i v r).state = r.state := rfl
@[simp] theorem memWrite_pos (i : Nat) (v : Byte) (r : Receiver) : (memWrite i v r).pos = r.pos := rfl
@[simp] theorem memWrite_len (i : Nat) (v : Byte) (r : Receiver) : (memWrite i v r).len = r.len := rfl
@[simp] theorem memWrite_crc (i : Nat) (v : Byte) (r : Receiver) : (memWrite i v r).crc = r.crc := rfl
@[simp] theorem memWrite_flen (i : Nat) (v : Byte) (r : Receiver) : (memWrite i v r).flen = r.flen := rfl
@[simp] theorem memWrite_ts (i : Nat) (v : Byte) (r : Receiver) : (memWrite i v r).ts = r.ts := rfl
@[simp] theorem memWrite_hdrFired (i : Nat) (v : Byte) (r : Receiver) : (memWrite i v r).hdrFired = r.hdrFired := rfl
@[simp] theorem memWrite_readFired (i : Nat) (v : Byte) (r : Receiver) : (memWrite i v r).readFired = r.readFired := rfl
@[simp] theorem memWrite_esc (i : Nat) (v : Byte) (r : Receiver) : (memWrite i v r).esc = r.esc := rfl
@[simp] theorem memWrite_hdrLen (i : Nat) (v : Byte) (r : Receiver) : (memWrite i v r).hdrLen = r.hdrLen := rfl
@[simp] theorem memWrite_readLen (i : Nat) (v : Byte) (r : Receiver) : (memWrite i v r).readLen = r.readLen := rfl
@[simp] theorem memWrite_cntTimeout (i : Nat) (v : Byte) (r : Receiver) : (memWrite i v r).cntTimeout = r.cntTimeout := rfl
@[simp] theorem memWrite_cntJunk (i : Nat) (v : Byte) (r : Receiver) : (memWrite i v r).cntJunk = r.cntJunk := rfl
@[simp] theorem memWrite_cntCrc (i : Nat) (v : Byte) (r : Receiver) : (memWrite i v r).cntCrc = r.cntCrc := rfl
@[simp] theorem memWrite_cntOverrun (i : Nat) (v : Byte) (r : Receiver) : (memWrite i v r).cntOverrun = r.cntOverrun := rfl
@[simp] theorem memWrite_buf (i : Nat) (v : Byte) (r : Receiver) : (memWrite i v r).buf = Memory.insert i v r.buf := rfl
@[simp] theorem memWrite_draws (i : Nat) (v : Byte) (r : Receiver) : (memWrite i v r).draws = r.draws := rfl

/-! `frameStart` (R176). -/

@[simp] theorem frameStart_state (r : Receiver) : (frameStart r).state = r.state := rfl
@[simp] theorem frameStart_pos (r : Receiver) : (frameStart r).pos = 0 := rfl
@[simp] theorem frameStart_len (r : Receiver) : (frameStart r).len = 0 := rfl
@[simp] theorem frameStart_crc (r : Receiver) : (frameStart r).crc = 0 := rfl
@[simp] theorem frameStart_flen (r : Receiver) : (frameStart r).flen = r.flen := rfl
@[simp] theorem frameStart_ts (r : Receiver) : (frameStart r).ts = r.ts := rfl
@[simp] theorem frameStart_hdrFired (r : Receiver) : (frameStart r).hdrFired = false := rfl
@[simp] theorem frameStart_readFired (r : Receiver) : (frameStart r).readFired = false := rfl
@[simp] theorem frameStart_esc (r : Receiver) : (frameStart r).esc = false := rfl
@[simp] theorem frameStart_hdrLen (r : Receiver) : (frameStart r).hdrLen = r.hdrLen := rfl
@[simp] theorem frameStart_readLen (r : Receiver) : (frameStart r).readLen = r.readLen := rfl
@[simp] theorem frameStart_cntTimeout (r : Receiver) : (frameStart r).cntTimeout = r.cntTimeout := rfl
@[simp] theorem frameStart_cntJunk (r : Receiver) : (frameStart r).cntJunk = r.cntJunk := rfl
@[simp] theorem frameStart_cntCrc (r : Receiver) : (frameStart r).cntCrc = r.cntCrc := rfl
@[simp] theorem frameStart_cntOverrun (r : Receiver) : (frameStart r).cntOverrun = r.cntOverrun := rfl
@[simp] theorem frameStart_buf (r : Receiver) : (frameStart r).buf = r.buf := rfl
@[simp] theorem frameStart_draws (r : Receiver) : (frameStart r).draws = r.draws := rfl

/-! `emit` (R220). -/

@[simp] theorem emit_isOpen (x : Byte) (t : Sender) : (emit x t).isOpen = t.isOpen := rfl
@[simp] theorem emit_copy (x : Byte) (t : Sender) : (emit x t).copy = t.copy := rfl
@[simp] theorem emit_ovr (x : Byte) (t : Sender) : (emit x t).ovr = t.ovr := rfl
@[simp] theorem emit_remain (x : Byte) (t : Sender) : (emit x t).remain = t.remain := rfl
@[simp] theorem emit_crc (x : Byte) (t : Sender) : (emit x t).crc = t.crc := rfl
@[simp] theorem emit_out (x : Byte) (t : Sender) : (emit x t).out = t.out ++ [x] := rfl

end Sys2Proof.Machine
end

