-- ==== Sys2Proof/Laws/Sender.lean ====
section
/-! SUPPORT. What each transmitter procedure does, once, as one closed form of the state it leaves
(spec/42_transmitter.md R220 to R240). Later proofs cite these and do not unfold the procedures. -/

namespace Sys2Proof.Machine

@[simp] theorem stuffAll_nil (p : Config.Params) : stuffAll p [] = [] := rfl

@[simp] theorem stuffAll_cons (p : Config.Params) (x : Byte) (xs : List Byte) :
    stuffAll p (x :: xs) = stuffed p x ++ stuffAll p xs := rfl

@[simp] theorem stuffAll_append (p : Config.Params) (xs ys : List Byte) :
    stuffAll p (xs ++ ys) = stuffAll p xs ++ stuffAll p ys := by
  simp [stuffAll]

/-- R222. -/
theorem emitBody_eq (p : Config.Params) (x : Byte) (t : Sender) :
    emitBody p x t = { t with out := t.out ++ stuffed p x } := by
  unfold emitBody stuffed needsEscape
  by_cases h : p.stuffEn = true ∧ (x = p.marker ∨ x = p.esc)
  · rw [if_pos (by simpa using h), if_pos h]
    simp [emit, clearTop]
  · rw [if_neg (by simpa using h), if_neg h]
    rfl

/-- R221. -/
theorem txSend_eq (p : Config.Params) (x : Byte) (t : Sender) :
    txSend p x t = { t with crc := crc16Add p.crcPoly t.crc x, out := t.out ++ stuffed p x } := by
  simp [txSend, emitBody_eq]

/-- R221, for a sequence of bytes. -/
theorem foldl_txSend_eq (p : Config.Params) (xs : List Byte) (t : Sender) :
    xs.foldl (fun t x => txSend p x t) t =
      { t with crc := crcOf p.crcPoly t.crc xs, out := t.out ++ stuffAll p xs } := by
  induction xs generalizing t with
  | nil => simp
  | cons x xs ih =>
    simp only [List.foldl_cons, ih]
    simp [txSend_eq]

/-- R228: an offered payload byte is dropped where the frame owes nothing (R227), and sent otherwise. -/
theorem txPut_eq (p : Config.Params) (v : Byte) (t : Sender) :
    txPut p v t =
      if t.remain = 0 then (.txOverrun, { t with ovr := true }) else (.ok, payloadSent p v t) := by
  simp [txPut, txSend_eq, payloadSent]

/-- R223. -/
theorem txBegin_eq (p : Config.Params) (n : BitVec 14) (t : Sender) :
    txBegin p n t =
      { out := t.out ++ markerBytes p ++ stuffAll p (lengthBytes n)
        crc := crcOf p.crcPoly crcSeed (lengthBytes n)
        remain := n, isOpen := true, copy := false, ovr := false } := by
  unfold txBegin markerBytes
  by_cases h : p.markerEn = true
  · simp [h, foldl_txSend_eq, emit]
  · simp [h, foldl_txSend_eq]

/-- R229. -/
theorem txPad_eq (p : Config.Params) (k : Nat) (t : Sender) :
    txPad p k t =
      { t with
        crc := crcOf p.crcPoly t.crc (List.replicate k 0)
        out := t.out ++ stuffAll p (List.replicate k 0)
        remain := t.remain - BitVec.ofNat 14 k } := by
  induction k generalizing t with
  | zero => simp [txPad]
  | succ k ih =>
    simp only [txPad, ih, txSend_eq, List.replicate_succ, crcOf_cons, stuffAll_cons, List.append_assoc]
    congr 1
    rw [BitVec.ofNat_add]
    bv_omega

/-- R230: the trailer value is that of `closingMark`, and only `tx_crc` may change. -/
theorem markTrailer_eq (p : Config.Params) (trunc broken : Bool) (t : Sender) :
    markTrailer p trunc broken t =
      ({ t with crc := (closingMark p trunc broken t.crc).1 }, (closingMark p trunc broken t.crc).2) := by
  unfold markTrailer closingMark
  split <;> rename_i hm <;> cases trunc <;> cases broken <;> simp [hm]

/-- R230: `tx_close` leaves the closed frame. -/
theorem txClose_eq (p : Config.Params) (broken : Bool) (t : Sender) :
    txClose p broken t = closedFrame p broken t := by
  have hremain : t.remain - BitVec.ofNat 14 t.remain.toNat = 0 := by simp
  have hne : (t.remain != 0) = decide (t.remain ≠ 0) := by
    rw [Bool.eq_iff_iff]
    simp
  simp only [txClose, txPad_eq, markTrailer_eq, emitBody_eq, closedFrame, hiByte, loByte, hremain, hne,
    stuffAll_append, stuffAll_cons, stuffAll_nil, List.append_assoc, List.append_nil]

/-- R240: a header copy of at most the owed bytes sends the buffer's first bytes. -/
theorem copyHeader_eq (p : Config.Params) (r : Receiver) (k : Nat) (t : Sender)
    (hk : k ≤ t.remain.toNat) :
    copyHeader p r k t =
      { t with
        crc := crcOf p.crcPoly t.crc ((List.range k).map fun i => memRead i r)
        out := t.out ++ stuffAll p ((List.range k).map fun i => memRead i r)
        remain := t.remain - BitVec.ofNat 14 k } := by
  induction k with
  | zero => simp [copyHeader]
  | succ k ih =>
    have ih := ih (by omega)
    simp only [copyHeader] at ih
    simp only [copyHeader, List.range_succ, List.foldl_append, ih, List.foldl_cons, List.foldl_nil]
    have hne : t.remain - BitVec.ofNat 14 k ≠ 0 := by
      intro h
      have : t.remain = BitVec.ofNat 14 k := by bv_omega
      have := congrArg BitVec.toNat this
      simp only [BitVec.toNat_ofNat] at this
      omega
    rw [txPut_eq, if_neg hne]
    simp only [payloadSent, List.map_append, List.map_cons, List.map_nil, crcOf_append, crcOf_cons,
      crcOf_nil, stuffAll_append, stuffAll_cons, stuffAll_nil, List.append_nil, List.append_assoc]
    congr 1
    rw [BitVec.ofNat_add]
    bv_omega

end Sys2Proof.Machine
end

