-- ==== Sys2Proof/Laws/Receiver.lean ====
section
/-! SUPPORT. What each receiver procedure does, once (spec/41_receiver.md R171 to R193): the guard, the
stuffing layer, and each state arm as a closed form of the state it leaves and the events it raises. -/

namespace Sys2Proof.Machine

/-- R176. -/
theorem frameStart_eq (r : Receiver) : { frameStart r with state := .len1 } = freshFrame r := rfl

/-- R177, R191, R192. -/
theorem endRelay_eq (broken : Bool) (s : State) :
    endRelay broken s = { s with tx := relayEnded s.p broken s.tx } := by
  simp only [endRelay, relayEnded, txClose_eq]
  split <;> rfl

/-- R177. -/
theorem abort_eq (s : State) : abort s = abortedFrame s := by
  simp [abort, abortedFrame, endRelay_eq]

/-- R189. -/
theorem forward_eq (v : Byte) (s : State) : forward v s = { s with tx := forwarded s.p v s.tx } := by
  simp only [forward, forwarded, txPut_eq]
  split
  · split <;> rfl
  · rfl

/-! The guard. -/

theorem timedOut_iff (s : State) : timedOut s = true ↔ ¬ inTime s := by
  simp [timedOut, inTime, elapsed, BitVec.lt_def]

/-- R173, R174, when the byte is in time. -/
theorem timeoutGuard_of_inTime {s : State} (h : inTime s) :
    timeoutGuard s = { s with rx.ts := s.now } := by
  have : timedOut s = false := by
    rw [Bool.eq_false_iff, ne_eq, timedOut_iff]
    exact not_not_intro h
  simp [timeoutGuard, this]

/-- R173, R174, when the byte is late. -/
theorem timeoutGuard_of_late {s : State} (h : ¬ inTime s) : timeoutGuard s = afterTimeout s := by
  simp only [timeoutGuard, (timedOut_iff s).mpr h, if_true, abort_eq, afterTimeout]
  rfl

/-! The stuffing layer. -/

theorem destuffs_eq (s : State) : destuffs s = stuffingActive s := by
  rw [Bool.eq_iff_iff]
  simp [destuffs, stuffingActive]

/-- R175: a marker inside a stuffed frame. -/
theorem resync_eq (s : State) :
    resync s = { s with rx := freshFrame s.rx, tx := relayEnded s.p true s.tx } := by
  simp only [resync, abort_eq]
  rfl

/-- R171, R175: a byte in time reaches the arm of the current state, or the stuffing layer takes it. -/
theorem receive_of_inTime {s : State} (b : Byte) (h : inTime s) :
    receive b s =
      match delivered s b with
      | some v => rxArm v (atArm s)
      | none =>
        if b = s.p.marker then
          ({ s with rx := { freshFrame s.rx with ts := s.now }, tx := relayEnded s.p true s.tx }, .none)
        else ({ s with rx.ts := s.now, rx.esc := true }, .none) := by
  have hp : stuffingActive { s with rx.ts := s.now } = stuffingActive s := rfl
  simp only [receive, timeoutGuard_of_inTime h, stuffingLayer, destuffs_eq, hp, delivered, atArm]
  cases hact : stuffingActive s
  · simp
  · by_cases hm : b = s.p.marker
    · simp [hm, resync_eq, freshFrame]
    · by_cases hesc : s.rx.esc = true
      · simp [hm, hesc, restoreTop]
      · by_cases hb : b = s.p.esc
        · have : s.p.esc ≠ s.p.marker := hb ▸ hm
          simp [hesc, hb, this]
        · simp [hm, hesc, hb]

/-- R173: a late byte is read from IDLE, after the abort. -/
theorem receive_of_late {s : State} (b : Byte) (h : ¬ inTime s) :
    receive b s = idleArm b (afterTimeout s) := by
  have : stuffingActive (afterTimeout s) = false := by
    simp [stuffingActive, afterTimeout, abortedFrame]
  simp only [receive, timeoutGuard_of_late h, stuffingLayer, destuffs_eq, this]
  rfl

/-! The arms. -/

/-- R178 to R180. -/
theorem idleArm_eq (v : Byte) (s : State) :
    idleArm v s =
      if s.p.markerEn = true then
        if v = s.p.marker then ({ s with rx := freshFrame s.rx }, .none)
        else ({ s with rx.cntJunk := s.rx.cntJunk + 1 }, .none)
      else len1Arm v { s with rx := freshFrame s.rx } := by
  rfl

/-- R186 to R189: what a payload byte leaves. -/
theorem dataArm_eq (v : Byte) (s : State) :
    dataArm v s =
      ({ s with rx := payloadReceived s.p v s.rx, tx := forwarded s.p v s.tx },
        payloadEvents s.rx) := by
  have hbool : ∀ a c : Bool, (a || (!a && c)) = (a || c) := by decide
  simp only [dataArm, storePayload, hdrFires, readFires, forward_eq, payloadReceived, payloadEvents]
  by_cases hcap : s.rx.pos.toNat < s.p.bufCap <;>
    by_cases hlen : (s.rx.pos + 1).toNat = s.rx.len.toNat <;>
    simp only [hcap, hlen, if_true, if_false, memWrite, count, hbool]

/-- R191, R192: what the second trailer byte leaves. -/
theorem crc2Arm_eq (v : Byte) (s : State) :
    crc2Arm v s =
      if crc16Add s.p.crcPoly s.rx.crc v = 0 then
        ({ s with
            rx.crc := 0, rx.flen := s.rx.pos, rx.state := .idle
            tx := relayEnded s.p false s.tx }, { frame := true })
      else
        ({ s with
            rx.crc := crc16Add s.p.crcPoly s.rx.crc v, rx.cntCrc := s.rx.cntCrc + 1, rx.state := .idle
            tx := relayEnded s.p true s.tx }, .none) := by
  simp only [crc2Arm, endRelay_eq, count]
  split
  · rename_i h
    simp only [h]
  · rfl

end Sys2Proof.Machine
end

