-- ==== Sys2Proof/Tests/Slice0.lean ====
section
/-! SUPPORT. Checks of the model against the spec's own words and vectors (spec/95_test_vectors.md), and
one witness for each statement of Obligations.lean that has hypotheses: a state and operands that meet
all of them together, at the boundary of each clause. -/

namespace Sys2Proof.Tests

-- One theorem at a time: theorems checked side by side would each hold a thread and its stack.
set_option Elab.async false

open Sys2Proof Sys2Proof.Machine

/-- The next state of an outcome. -/
def next? : Host.Outcome State Fault Refusal → Option State
  | .next s => some s
  | .fault _ => none
  | .refused _ => none

theorem eq_next_of_next? {o : Host.Outcome State Fault Refusal} {t : State} (h : next? o = some t) :
    o = .next t := by
  cases o <;> simp_all [next?]

theorem exists_next {o : Host.Outcome State Fault Refusal} (h : (next? o).isSome = true) :
    ∃ t, o = .next t := by
  obtain ⟨t, ht⟩ := Option.isSome_iff_exists.mp h
  exact ⟨t, eq_next_of_next? ht⟩

/-- The reset state of a reference instance of R23, with another receiver or sender. -/
def stateA : State := State.resetWith Config.refA
def stateB : State := State.resetWith Config.refB
def stateL : State := State.resetWith Config.refL
def stateX : State := State.resetWith Config.refX

/-- REF-A two bytes into the payload of the relay scenario (L1-3), at its header milestone. -/
def atHdr : State :=
  { stateA with
    rx.state := .data, rx.pos := 2, rx.len := 5, rx.hdrLen := 2, rx.hdrFired := true
    rx.crc := crcOf 0x1021 0 [0x05, 0x10, 0x20], rx.ts := 2, rx.buf := [(0, 0x10), (1, 0x20)], now := 3 }

/-- The same with the relay open. -/
def inRelay : State :=
  { atHdr with
    tx.isOpen := true, tx.copy := true, tx.remain := 3, tx.crc := crcOf 0x1021 0 [0x05, 0x10, 0x20]
    tx.out := [0x05, 0x10, 0x20] }

/-- REF-A with a frame of three payload bytes just opened (TX_START 3). -/
def frameOpen : State :=
  { stateA with tx.isOpen := true, tx.remain := 3, tx.crc := 0x3063, tx.out := [0x03] }

/-- REF-B inside a stuffed frame, an escape pending. -/
def escaped : State :=
  { stateB with
    rx.state := .data, rx.pos := 1, rx.len := 3, rx.esc := true, rx.ts := 4, now := 5 }

/-! ## Well-formedness -/

theorem test_wf_refuses_long_length : (Instr.txStart 0x10000).wf = false := by decide
theorem test_wf_refuses_unextended_delta : (Instr.txCopy 0x8000).wf = false := by decide
theorem test_wf_refuses_wide_delta : (Instr.txCopy 0x7FFF8000).wf = false := by decide
theorem test_params_refuse_zero_packet :
    ({ Config.refA.params with maxPacket := 0 } : Config.Params).wf = false := by decide
theorem test_params_refuse_long_packet :
    ({ Config.refA.params with maxPacket := 16384 } : Config.Params).wf = false := by decide
theorem test_params_refuse_large_buffer :
    ({ Config.refA.params with bufCap := 16384 } : Config.Params).wf = false := by decide
theorem test_params_refuse_low_marker :
    ({ Config.refB.params with marker := 0x40 } : Config.Params).wf = false := by decide
theorem test_params_refuse_equal_escape :
    ({ Config.refB.params with esc := 0xC0 } : Config.Params).wf = false := by decide
theorem test_params_refuse_zero_mask :
    ({ Config.refX.params with breakMode := .xor 1 0 } : Config.Params).wf = false := by decide

/-! ## Decoding: words written out from the formats of R101 and the opcodes of R102 -/

theorem test_decode_nop : decode 0x00000000 = .ok .nop := by decide
theorem test_decode_rxByte : decode 0x01000041 = .ok (.rxByte 0x41) := by decide
theorem test_decode_rxReset : decode 0x02000000 = .ok .rxReset := by decide
theorem test_decode_txStart : decode 0x1000C8FF = .ok (.txStart 0xC8FF) := by decide
theorem test_decode_txByte : decode 0x110000FE = .ok (.txByte 0xFE) := by decide
theorem test_decode_txEnd : decode 0x12000001 = .ok (.txEnd true) := by decide
theorem test_decode_txCopy : decode 0x1300FFFD = .ok (.txCopy 0xFFFFFFFD) := by decide
theorem test_decode_crcRestart : decode 0x20000000 = .ok .crcRestart := by decide
theorem test_decode_crcAdd : decode 0x21000039 = .ok (.crcAdd 0x39) := by decide
theorem test_decode_crcValue : decode 0x22000000 = .ok .crcValue := by decide
theorem test_decode_regRead : decode 0x303F0000 = .ok (.regRead 0x3F) := by decide
theorem test_decode_regWrite : decode 0x3109A5C3 = .ok (.regWrite 0x09 0xA5C3) := by decide
theorem test_decode_bufRead : decode 0x32012300 = .ok (.bufRead 0x123) := by decide
theorem test_decode_bufWrite : decode 0x3301237E = .ok (.bufWrite 0x123 0x7E) := by decide
theorem test_illegal_txEnd : decode 0x12000002 = .error (.reservedField "TX_END") := by decide
theorem test_illegal_bufRead : decode 0x32000001 = .error (.reservedField "BUF_READ") := by decide
theorem test_illegal_crcRestart : decode 0x2000000F = .error (.reservedField "CRC_RESTART") := by decide
theorem test_illegal_opcode : decode 0x04000000 = .error (.reservedOpcode 0x04) := by decide
theorem test_table_word_too_wide : decodeTableWord 40 0x0100000000 = none := by decide
theorem test_table_word : decodeTableWord 32 0x11000001 = some (.txByte 0x01) := by decide

/-! ## The CRC: R153's tables and the CRC family -/

theorem test_crc_table_1021 :
    (List.range 16).map (fun i => crcTable 0x1021 (BitVec.ofNat 4 i)) =
      [0x0000, 0x1021, 0x2042, 0x3063, 0x4084, 0x50A5, 0x60C6, 0x70E7,
       0x8108, 0x9129, 0xA14A, 0xB16B, 0xC18C, 0xD1AD, 0xE1CE, 0xF1EF] := by decide +kernel
theorem test_crc_table_8005 :
    (List.range 16).map (fun i => crcTable 0x8005 (BitVec.ofNat 4 i)) =
      [0x0000, 0x8005, 0x800F, 0x000A, 0x801B, 0x001E, 0x0014, 0x8011,
       0x8033, 0x0036, 0x003C, 0x8039, 0x0028, 0x802D, 0x8027, 0x0022] := by decide +kernel
theorem test_crc_adds_1021 :
    [crc16Add 0x1021 0 0x01, crc16Add 0x1021 0 0x80, crc16Add 0x1021 0 0xFF,
      crc16Add 0x1021 0xFFFF 0x00, crc16Add 0x1021 0x1234 0x56] =
      [0x1021, 0x9188, 0x1EF0, 0xE1F0, 0x3C40] := by decide +kernel
theorem test_crc_adds_8005 :
    [crc16Add 0x8005 0 0x01, crc16Add 0x8005 0 0x80, crc16Add 0x8005 0 0xFF,
      crc16Add 0x8005 0xFFFF 0x00, crc16Add 0x8005 0x1234 0x56] =
      [0x8005, 0x8303, 0x0202, 0xFD02, 0x3598] := by decide +kernel
theorem test_crc_of_frame :
    [crcOf 0x1021 0 [0x03, 0x01, 0x02, 0x03], crcOf 0x8005 0 [0x03, 0x01, 0x02, 0x03],
      crcOf 0x1021 0xFAED [0xED, 0xFA]] = [0xFAED, 0x301E, 0xF832] := by decide +kernel

/-! ## One step of each command -/

theorem test_nop : (next? (exec .nop { stateA with lastErr := .badCmd })).map (·.lastErr) = some .ok := by
  decide +kernel
/-- R262's example, and the register family's write and read back. -/
theorem test_regWrite_hdrLen :
    (next? (exec (.regWrite 0x08 0x0102) stateA)).map (fun t => (t.rx.hdrLen, t.lastErr)) =
      some (0x0102, .ok) := by decide +kernel
theorem test_regWrite_readOnly :
    (next? (exec (.regWrite 0x01 5) stateA)).map (fun t => (t.rx.pos, t.lastErr)) =
      some (0, .readOnly) := by decide +kernel
theorem test_regRead_lastErr :
    (next? (exec (.regRead 0x3F) { stateA with lastErr := .badCmd })).map (fun t => (t.resp, t.lastErr)) =
      some (some ⟨.ok, 1⟩, .ok) := by decide +kernel
/-- Register family: TX_FLAGS during a relay. -/
theorem test_regRead_txFlags :
    (next? (exec (.regRead 0x20) inRelay)).map (·.resp) = some (some ⟨.ok, 3⟩) := by decide +kernel
theorem test_bufRead_written :
    (next? (exec (.bufRead 1) atHdr)).map (·.resp) = some (some ⟨.ok, 0x20⟩) := by decide +kernel
theorem test_bufRead_badIndex :
    (next? (exec (.bufRead 16) stateA)).map (·.resp) = some (some ⟨.badIndex, 0⟩) := by decide +kernel
theorem test_bufWrite :
    (next? (exec (.bufWrite 0 0x11) atHdr)).map (·.rx.buf) = some [(0, 0x11), (1, 0x20)] := by
  decide +kernel
theorem test_bufWrite_badIndex :
    (next? (exec (.bufWrite 16 0) atHdr)).map (fun t => (t.rx.buf, t.lastErr)) =
      some ([(0, 0x10), (1, 0x20)], .badIndex) := by decide +kernel
theorem test_crcRestart :
    (next? (exec .crcRestart { stateA with auxCrc := 0x31C3 })).map (·.auxCrc) = some 0 := by
  decide +kernel
theorem test_crcAdd : (next? (exec (.crcAdd 0x01) stateA)).map (·.auxCrc) = some 0x1021 := by
  decide +kernel
theorem test_crcValue :
    (next? (exec .crcValue { stateA with auxCrc := 0x31C3 })).map (·.resp) =
      some (some ⟨.ok, 0x31C3⟩) := by decide +kernel
/-- Transmitter family: TX_START 3, and REF-B's escaped length byte. -/
theorem test_txStart :
    (next? (exec (.txStart 3) stateA)).map (fun t => (t.tx.out, t.tx.crc, t.tx.remain)) =
      some ([0x03], 0x3063, 3) := by decide +kernel
theorem test_txStart_stuffed :
    (next? (exec (.txStart 192) stateB)).map (·.tx.out) = some [0xC0, 0xDB, 0x40, 0x01] := by
  decide +kernel
theorem test_txByte :
    (next? (exec (.txByte 0x01) frameOpen)).map (fun t => (t.tx.out, t.tx.crc, t.tx.remain)) =
      some ([0x03, 0x01], 0x4572, 2) := by decide +kernel
theorem test_txByte_overrun :
    (next? (exec (.txByte 0x01) { frameOpen with tx.remain := 0 })).map
      (fun t => (t.tx.out, t.tx.ovr, t.lastErr)) = some ([0x03], true, .txOverrun) := by decide +kernel
/-- Transmitter family: n = 3, no payload byte sent. -/
theorem test_txEnd_truncated :
    (next? (exec (.txEnd true) frameOpen)).map (fun t => (t.tx.out, t.tx.isOpen)) =
      some ([0x03, 0x00, 0x00, 0x00, 0xCE, 0x90], false) := by decide +kernel
/-- Transmitter family: REF-X, a complete frame marked broken. -/
theorem test_txEnd_xor :
    (next? (exec (.txEnd true) { stateX with tx.isOpen := true, tx.crc := 0xFAED })).map (·.tx.out) =
      some [0xFA, 0xEC] := by decide +kernel
/-- R245: the relayed header for `TX_COPY -1`. -/
theorem test_txCopy :
    (next? (exec (.txCopy 0xFFFFFFFF) atHdr)).map (fun t => (t.tx.out, t.tx.remain, t.tx.copy)) =
      some ([0x04, 0x10, 0x20], 2, true) := by decide +kernel
theorem test_txCopy_tooShort :
    (next? (exec (.txCopy 0xFFFFFFFC) atHdr)).map (·.lastErr) = some .copyIllegal := by decide +kernel
/-- L1-3: the byte after HDR is forwarded in its own step. -/
theorem test_rxByte_forwards :
    (next? (exec (.rxByte 0x30) inRelay)).map (fun t => (t.tx.out, t.tx.remain, t.rx.pos)) =
      some ([0x05, 0x10, 0x20, 0x30], 2, 3) := by decide +kernel
/-- R245: a gap above MAX_DELAY during the relay. -/
theorem test_rxByte_timeout_closes_relay :
    (next? (exec (.rxByte 0x30) { inRelay with now := 13 })).map
      (fun t => (t.tx.out, t.rx.cntTimeout, t.rx.len)) =
      some ([0x05, 0x10, 0x20, 0x00, 0x00, 0x00, 0x4B, 0xD5], 1, 0x30) := by decide +kernel
/-- Relay family: RX_RESET during a relay. -/
theorem test_rxReset :
    (next? (exec .rxReset inRelay)).map (fun t => (t.tx.out, t.rx.state, t.tx.copy)) =
      some ([0x05, 0x10, 0x20, 0x00, 0x00, 0x00, 0x4B, 0xD5], .idle, false) := by decide +kernel
theorem test_rxReset_keeps_counts :
    (next? (exec .rxReset atHdr)).map (fun t => (t.rx.pos, t.rx.len, t.rx.hdrLen)) = some (2, 5, 2) := by
  decide +kernel
/-- A step from the reset state performs the word placed by `withFetchWord`, whatever the instance. -/
theorem test_withFetchWord (s : State) :
    step (s.withFetchWord 32 0x21000001) = exec (.crcAdd 0x01) { s with now := s.now } := by
  rfl

/-! ## Witnesses -/

theorem witness_wellFormed_extremes :
    (Instr.txStart 0xFFFF).wf = true ∧ (Instr.txCopy (BitVec.ofInt 32 (-32768))).wf = true ∧
    (Instr.txCopy 0x7FFF).wf = true := by decide
theorem witness_decodes : decode 0x13008000 = .ok (.txCopy (BitVec.ofInt 32 (-32768))) := by decide
theorem witness_step :
    { stateA with queue := [.command 0x21000001 7] }.queue = .command 0x21000001 7 :: [] ∧
    decode 0x21000001 = .ok (.crcAdd 1) := by decide
theorem witness_illegal :
    { stateA with queue := [.command 0x01000141 7] }.queue = .command 0x01000141 7 :: [] ∧
    ∀ r ∈ decodeTable, (0x01000141 : Word) &&& r.mask ≠ r.pattern := by decide
/-- The ends of each range of reserved opcodes. -/
theorem witness_reserved_opcodes :
    ([0x03000000, 0x0F000001, 0x14000000, 0x1FFFFFFF, 0x23000000, 0x2F000000, 0x34000000,
        0xFF000000] : List Word).map (fun w => (w.extractLsb' 24 8).toNat) =
      [0x03, 0x0F, 0x14, 0x1F, 0x23, 0x2F, 0x34, 0xFF] := by
  decide
theorem witness_idle_block : stateA.queue = [] := rfl
theorem witness_reset : { frameOpen with queue := [.reset, .command 0 0] }.queue = .reset :: [.command 0 0] := rfl
theorem witness_bufRead : (15#16).toNat < stateA.p.bufCap ∧ stateA.p.bufCap ≤ (16#16).toNat := by decide
theorem witness_keeps_buffer :
    (∃ t, exec (.rxByte 0x30) inRelay = .next t) ∧ (∀ b, Instr.rxByte 0x30 = .rxByte b → 1 ≠ inRelay.rx.pos.toNat) ∧
    (∀ k b, Instr.rxByte 0x30 = .bufWrite k b → 1 ≠ k.toNat) :=
  ⟨⟨_, rfl⟩, fun _ _ => by decide, fun _ _ h => by cases h⟩
theorem witness_crc_reserved :
    opField 0x20000001 = 0x20 ∧ (0x20000001 : Word) ≠ 0x20000000 ∧ opField 0x21000100 = 0x21 ∧
    (0x21000100 : Word).extractLsb' 8 16 ≠ 0 := by decide
theorem witness_single_bit :
    (0x1021 : Half) ≠ 0 ∧ 7 < 8 ∧ crcOf 0x1021 0 ([0x03, 0x01, 0x02, 0x03, 0xFA] ++ 0xED :: []) = 0 := by
  decide +kernel
theorem witness_codes : ∃ t, exec (.txStart 128) stateA = .next t := ⟨_, rfl⟩
theorem witness_isolated : ∃ t, exec (.crcAdd 1) inRelay = .next t := ⟨_, rfl⟩
theorem witness_lengths :
    (127#14).toNat ≤ Config.refA.params.maxPacket ∧ (128#14).toNat ≤ Config.refL.params.maxPacket ∧
    (300#14).toNat ≤ Config.refL.params.maxPacket := by decide
theorem witness_stuffing : Config.refB.params.stuffEn = true := rfl
theorem witness_txStart :
    frameOpen.tx.isOpen = true ∧
    (stateA.tx.isOpen = false ∧ stateA.p.maxPacket < (128#32).toNat) ∧
    (stateA.tx.isOpen = false ∧ (127#32).toNat ≤ stateA.p.maxPacket) := by decide
theorem witness_txByte :
    stateA.tx.isOpen = false ∧
    ({ frameOpen with tx.remain := 0 }.tx.isOpen = true ∧ { frameOpen with tx.remain := 0 }.tx.remain = 0) ∧
    (frameOpen.tx.isOpen = true ∧ { frameOpen with tx.remain := 1 }.tx.remain ≠ 0) := by decide
theorem witness_txEnd :
    stateX.tx.isOpen = false ∧ (inRelay.tx.isOpen = true ∧ inRelay.tx.copy = true) ∧
    (frameOpen.tx.isOpen = true ∧ frameOpen.tx.copy = false ∧ { frameOpen with tx.remain := 1 }.tx.remain ≠ 0 ∧
      { frameOpen with tx.remain := 0 }.tx.remain = 0) ∧
    frameOpen.p.breakMode = .fold 0x01 0x02 ∧ stateX.p.breakMode = .xor 0x0001 0x0002 := by decide
/-- The clauses of TX_COPY at their boundaries: a copy point with the relayed length one below `rx_pos`, at
`rx_pos`, at MAX_PACKET and one above it; and no copy point. -/
theorem witness_txCopy :
    let atCopyPoint (s : State) : Prop :=
      s.rx.hdrFired = true ∧ (s.rx.state = .data ∨ s.rx.state = .crc1 ∨ s.rx.state = .crc2) ∧
      (s.rx.pos.toNat = s.rx.hdrLen.toNat ∨ s.rx.len = 0) ∧ s.rx.pos.toNat ≤ s.p.bufCap
    inRelay.tx.isOpen = true ∧ (stateA.tx.isOpen = false ∧ ¬ atCopyPoint stateA) ∧
    atHdr.tx.isOpen = false ∧ atCopyPoint atHdr ∧
    atHdr.rx.len.toNat + (BitVec.ofInt 32 (-4)).toInt < atHdr.rx.pos.toNat ∧
    atHdr.rx.len.toNat + (BitVec.ofInt 32 (-3)).toInt = atHdr.rx.pos.toNat ∧
    atHdr.rx.len.toNat + (122#32).toInt = atHdr.p.maxPacket ∧
    (atHdr.p.maxPacket : Int) < atHdr.rx.len.toNat + (123#32).toInt := by decide
theorem witness_frame_closes :
    ∃ t, exec (.txEnd false) frameOpen = .next t ∧ frameOpen.tx.isOpen = true ∧ t.tx.isOpen = false :=
  ⟨_, rfl, rfl, rfl⟩
theorem witness_relay_ends :
    ∃ t, exec .rxReset inRelay = .next t ∧ inRelay.tx.copy = true ∧ t.tx.copy = false ∧
      inRelay.tx.isOpen = true :=
  ⟨_, rfl, rfl, rfl, rfl⟩
theorem witness_far_end :
    Config.refA.params.crcPoly.getLsbD 0 = true ∧ Config.refX.params.crcPoly.getLsbD 0 = true ∧
    Config.refA.params.breakMode = .fold 1 2 ∧ Config.refX.params.breakMode = .xor 1 2 := by decide
/-- A gap of MAX_DELAY is in time, one unit more is late (R173). -/
theorem witness_late :
    (atHdr.rx.state ≠ .idle ∧
      atHdr.p.maxDelay.toNat < ({ atHdr with now := 13 }.now - atHdr.rx.ts).toNat) ∧
    (({ atHdr with now := 12 }.now - atHdr.rx.ts).toNat ≤ atHdr.p.maxDelay.toNat) := by decide
theorem witness_marker :
    inTime escaped ∧ escaped.p.stuffEn = true ∧ escaped.rx.state ≠ .idle ∧ escaped.rx.state ≠ .error ∧
    (0xC0 : Byte) = escaped.p.marker ∧ (0xDB : Byte) ≠ escaped.p.marker ∧ (0xDB : Byte) = escaped.p.esc ∧
    { escaped with rx.esc := false }.rx.esc = false := by decide
theorem witness_escaped_byte :
    ∃ t, exec (.rxByte 0xDB) { escaped with rx.esc := false } = .next t ∧ escaped.p.stuffEn = true ∧
      (0xDB : Byte) = escaped.p.esc ∧ escaped.rx.state ≠ .idle ∧ escaped.rx.state ≠ .error ∧
      inTime { escaped with rx.esc := false } ∧ ((15 : Word) - escaped.now).toNat ≤ escaped.p.maxDelay.toNat :=
  ⟨_, rfl, by decide⟩
theorem witness_idle_byte :
    (stateB.rx.state = .idle ∧ stateB.p.markerEn = true ∧ (0xC0 : Byte) = stateB.p.marker ∧
      (0xC1 : Byte) ≠ stateB.p.marker) ∧
    (stateA.rx.state = .idle ∧ stateA.p.markerEn = false) := by decide
theorem witness_length_bytes :
    let s1 : State := { stateB with rx.state := .len1 }
    let s2 : State := { stateB with rx.state := .len2, rx.len := 127 }
    (inTime s1 ∧ delivered s1 0 = some 0 ∧ delivered s1 0xFF = some 0xFF) ∧
    (inTime s2 ∧ delivered s2 0x80 = some 0x80) := by decide +kernel
theorem witness_oversized :
    let s : State := { stateA with rx.state := .data0, rx.len := 128 }
    inTime s ∧ s.rx.state = .data0 ∧ delivered s 1 = some 1 ∧ s.p.maxPacket < s.rx.len.toNat := by
  decide +kernel
theorem witness_zero_length :
    let s : State := { stateL with rx.state := .data0 }
    inTime s ∧ s.rx.state = .data0 ∧ delivered s 0x1B = some 0x1B ∧ s.rx.len = 0 := by decide +kernel
/-- DATA, and DATA0 with a length at each end of its range. -/
theorem witness_payload :
    let s1 : State := { stateA with rx.state := .data0, rx.len := 1 }
    let s2 : State := { stateA with rx.state := .data0, rx.len := 127 }
    (inTime atHdr ∧ delivered atHdr 0x30 = some 0x30 ∧ atHdr.rx.state = .data) ∧
    (inTime s1 ∧ delivered s1 0 = some 0 ∧ s1.rx.len ≠ 0) ∧ (inTime s2 ∧ s2.rx.len.toNat ≤ s2.p.maxPacket) := by
  decide +kernel
theorem witness_crc1 :
    let s : State := { atHdr with rx.state := .crc1 }
    inTime s ∧ s.rx.state = .crc1 ∧ delivered s 0xFA = some 0xFA := by decide +kernel
/-- L1-1's frame at its last byte: 0xED is accepted, any other byte is not. -/
def lastByte : State :=
  { stateA with
    rx.state := .crc2, rx.pos := 3, rx.len := 3, rx.crc := crcOf 0x1021 0 [0x03, 0x01, 0x02, 0x03, 0xFA]
    rx.ts := 4, now := 5, rx.buf := [(0, 1), (1, 2), (2, 3)] }
theorem witness_crc2 :
    inTime lastByte ∧ lastByte.rx.state = .crc2 ∧ delivered lastByte 0xED = some 0xED ∧
    crc16Add lastByte.p.crcPoly lastByte.rx.crc 0xED = 0 ∧ crc16Add lastByte.p.crcPoly lastByte.rx.crc 0xEC ≠ 0 := by
  decide +kernel
theorem witness_inv_lastByte : Inv lastByte := by
  constructor <;> decide +kernel
theorem witness_error :
    let s : State := { stateA with rx.state := .error, rx.len := 128, now := 10 }
    (s.rx.state = .error ∧ (s.now - s.rx.ts).toNat ≤ s.p.maxDelay.toNat) ∧
    ∃ t, step { s with queue := [.command 0x02000000 0] } = .next t ∧ t.rx.state ≠ .error :=
  ⟨by decide +kernel, _, rfl, by decide +kernel⟩
theorem witness_inv_idle : Inv stateA ∧ stateA.rx.state = .idle := by
  refine ⟨?_, rfl⟩
  constructor <;> decide
theorem witness_counters :
    (∃ t, exec (.rxByte 0) stateA = .next t) ∧ inTime stateA ∧
    (∃ t, exec (.rxByte 0) { atHdr with now := 13 } = .next t) ∧ ¬ inTime { atHdr with now := 13 } ∧
    ((∃ t, exec .rxReset atHdr = .next t) ∧ (∀ b, Instr.rxReset ≠ .rxByte b) ∧
      ∀ r v, Instr.rxReset ≠ .regWrite r v) := by
  refine ⟨⟨_, rfl⟩, by decide, ⟨_, rfl⟩, by decide, ⟨_, rfl⟩, fun _ h => ?_, fun _ _ h => ?_⟩ <;> cases h
theorem witness_milestones : Inv lastByte ∧ ∃ t, exec (.rxByte 0xED) lastByte = .next t :=
  ⟨witness_inv_lastByte, _, rfl⟩
theorem witness_inv_step :
    Inv { lastByte with queue := [.command 0x010000ED 5] } ∧
    ∃ t, step { lastByte with queue := [.command 0x010000ED 5] } = .next t := by
  refine ⟨?_, _, rfl⟩
  constructor <;> decide +kernel
theorem witness_refused :
    let s : State := { frameOpen with tx.remain := 0, queue := [.command 0x11000001 0] }
    ∃ t, step s = .next t ∧ t.lastErr = .txOverrun := ⟨_, rfl, rfl⟩
theorem witness_refused_illegal :
    ∃ t, step { stateA with queue := [.command 0xFF000000 0] } = .next t ∧ t.lastErr = .badCmd :=
  ⟨_, rfl, rfl⟩
theorem witness_parameters : ∃ t, step { stateA with queue := [.reset] } = .next t := ⟨_, rfl⟩
theorem witness_idle_timestamp :
    stateA.rx.state = .idle ∧ Instr.rxByte 3 ≠ .regRead 0x05 ∧ ∃ t, exec (.rxByte 3) stateA = .next t :=
  ⟨rfl, by decide, _, rfl⟩
theorem witness_batching :
    ∃ t, Sys2Proof.core.run 2 { stateA with queue := [.reset, .command 0 0] } = .next t := ⟨_, rfl⟩
theorem witness_error_stream :
    let s : State := { stateA with rx.state := .error, rx.ts := 1, queue := feed [(3, 11), (1, 12)] }
    s.rx.state = .error ∧ gapsWithin s.p.maxDelay ((0, s.rx.ts) :: [(3, 11), (1, 12)]) ∧
    ∃ t, Sys2Proof.core.run 2 s = .next t :=
  ⟨rfl, by simp only [gapsWithin]; decide, _, rfl⟩
/-- SEND of the one-byte payload `41`, on REF-A. -/
def sending : State := { stateA with queue := (sendCommands [0x41] false).map (issue 0) }
theorem witness_send :
    sending.tx.isOpen = false ∧ [0x41#8].length ≤ sending.p.maxPacket ∧
    sending.queue = (sendCommands [0x41] false).map (issue 0) := ⟨rfl, by decide, rfl⟩
/-- The wire frame of the payload `41`, one byte per clock unit. -/
def arrivals41 : List (Byte × Word) := [(0x01, 20), (0x41, 21), (0x6B, 22), (0xD4, 23)]
theorem arrivals41_frame : arrivals41.map Prod.fst = wireFrame Config.refA.params [0x41] := by
  decide +kernel
theorem arrivals41_gaps : gapsWithin stateA.p.maxDelay arrivals41 := by
  simp only [gapsWithin, arrivals41]
  decide
theorem witness_roundTrip :
    let r : State := { stateA with queue := feed arrivals41 }
    ∃ t, sending.tx.isOpen = false ∧ 1 ≤ [0x41#8].length ∧ [0x41#8].length ≤ sending.p.maxPacket ∧
      [0x41#8].length ≤ sending.p.bufCap ∧ sending.queue = (sendCommands [0x41] false).map (issue 0) ∧
      Sys2Proof.core.run ([0x41#8].length + 2) sending = .next t ∧ r.inst = sending.inst ∧
      r.rx.state = .idle ∧ sending.tx.out ++ arrivals41.map Prod.fst = t.tx.out ∧
      gapsWithin r.p.maxDelay arrivals41 ∧ r.queue = feed arrivals41 := by
  obtain ⟨t, ht⟩ := exists_next (o := Sys2Proof.core.run 3 sending) (by decide +kernel)
  refine ⟨t, rfl, by decide, by decide, by decide, rfl, ht, rfl, rfl, ?_, arrivals41_gaps, rfl⟩
  have h : (next? (Sys2Proof.core.run 3 sending)).map (·.tx.out) =
      some (sending.tx.out ++ arrivals41.map Prod.fst) := by decide +kernel
  rw [ht] at h
  exact (Option.some.inj h).symm
/-- The same frame after a gap: the receiver is mid-frame and the first byte comes late. -/
theorem witness_gap :
    let s : State := { atHdr with rx.ts := 9, queue := feed arrivals41 }
    s.rx.state ≠ .idle ∧ [0x41#8] ≠ [] ∧ [0x41#8].length ≤ s.p.maxPacket ∧ 0 < s.p.bufCap ∧
    arrivals41.map Prod.fst = wireFrame s.p [0x41] ∧ gapsWithin s.p.maxDelay arrivals41 ∧
    (∀ a ∈ arrivals41.head?, s.p.maxDelay.toNat < (a.2 - s.rx.ts).toNat) ∧ s.queue = feed arrivals41 := by
  refine ⟨by decide, by decide, by decide, by decide, arrivals41_frame, arrivals41_gaps, ?_, rfl⟩
  intro a h
  cases h
  decide
/-- The relay scenario with the payload `41` and a watch length of 1, TX_COPY after the payload byte. -/
theorem witness_relay :
    let before := arrivals41.take 2
    let after := arrivals41.drop 2
    let s : State :=
      { stateA with rx.hdrLen := 1, queue := feed before ++ issue 30 (.txCopy 0) :: feed after }
    s.rx.state = .idle ∧ s.tx.isOpen = false ∧ s.tx.copy = false ∧ 1 ≤ s.rx.hdrLen.toNat ∧
    s.rx.hdrLen.toNat ≤ [0x41#8].length ∧ [0x41#8].length ≤ s.p.maxPacket ∧ s.rx.hdrLen.toNat ≤ s.p.bufCap ∧
    before.map Prod.fst =
      markerBytes s.p ++
        stuffAll s.p (lengthBytes (BitVec.ofNat 14 [0x41#8].length) ++ [0x41#8].take s.rx.hdrLen.toNat) ∧
    (before ++ after).map Prod.fst = wireFrame s.p [0x41] ∧ gapsWithin s.p.maxDelay (before ++ after) ∧
    s.queue = feed before ++ issue 30 (.txCopy 0) :: feed after :=
  ⟨rfl, rfl, rfl, by decide, by decide, by decide, by decide, by decide +kernel, arrivals41_frame,
    arrivals41_gaps, rfl⟩

/-- The case of log 12: with an even polynomial the folded corruption byte leaves the CRC residue at zero. -/
theorem test_fold_mark_even_polynomial :
    crc16Add 0 1 0 = 0x0100 ∧ crcOf 0 1 [0x01, 0x00] = 0 := by decide +kernel

end Sys2Proof.Tests
end

