-- ==== Sys2Proof/Proofs/RegisterWrite.lean ====
section
/-! PROOFS. Which row a word decodes to, and what a register write does (spec/30_encoding.md R101 to R103,
spec/10_state.md R55, R56, spec/43_register_access.md R262). -/

namespace Sys2Proof

/-! The decode table, by opcode. -/

/-- R103: every row fixes the whole opcode. -/
theorem decodeTable_mask_fixes_opcode : ∀ r ∈ decodeTable, opField r.mask = 0xFF := by decide

/-- R102: no opcode has two rows. -/
theorem decodeTable_opcodes_nodup : (decodeTable.map fun r => opField r.pattern).Nodup := by decide

/-- R103: a row admits only words with its own opcode. -/
theorem opField_pattern_of_admits {r : Row} {w : Word} (hr : r ∈ decodeTable) (h : r.admits w = true) :
    opField r.pattern = opField w := by
  have hpattern : w &&& r.mask = r.pattern := by simpa [Row.admits] using h
  have hmask : r.mask.extractLsb' 24 8 = BitVec.allOnes 8 := decodeTable_mask_fixes_opcode r hr
  rw [← hpattern, opField, opField, BitVec.extractLsb'_and, hmask, BitVec.and_allOnes]

/-- R103: a word decodes to the row that admits it, whichever that is. -/
theorem decode_eq_build_of_admits {r : Row} {w : Word} (hr : r ∈ decodeTable) (h : r.admits w = true) :
    decode w = .ok (r.build w) := by
  have hsome : (decodeTable.find? fun r => r.admits w).isSome = true :=
    List.find?_isSome.mpr ⟨r, hr, h⟩
  obtain ⟨found, hfind⟩ := Option.isSome_iff_exists.mp hsome
  have hmem : found ∈ decodeTable := List.mem_of_find?_eq_some hfind
  have hadmits : found.admits w = true := List.find?_some (p := fun r : Row => r.admits w) hfind
  have hop : opField found.pattern = opField r.pattern :=
    (opField_pattern_of_admits hmem hadmits).trans (opField_pattern_of_admits hr h).symm
  have hrow : found = r := List.inj_on_of_nodup_map decodeTable_opcodes_nodup hmem hr hop
  simp only [decode, hfind, hrow]

/-! The REG_WRITE word. -/

/-- R101 format R: the bits of a word made of an opcode, a register number and a value. -/
theorem getLsbD_append_fields (op r : Byte) (v : Half) (i : Nat) :
    (op ++ r ++ v : Word).getLsbD i =
      if i < 16 then v.getLsbD i else if i < 24 then r.getLsbD (i - 16) else op.getLsbD (i - 24) := by
  have houter : (op ++ r ++ v : Word).getLsbD i = if i < 16 then v.getLsbD i else (op ++ r).getLsbD (i - 16) :=
    BitVec.getLsbD_append
  rw [houter, BitVec.getLsbD_append]
  split
  · rfl
  · exact if_congr (by omega) rfl (by rw [Nat.sub_sub])

/-- R101 format R: the encoder's word is the fields side by side. -/
theorem append_eq_regWord (op r : Byte) (v : Half) : op ++ r ++ v = regWord op r v := by
  apply BitVec.eq_of_getLsbD_eq
  intro i hi
  rw [getLsbD_append_fields]
  interval_cases i <;> simp [regWord, opWord]

theorem regField_append (op r : Byte) (v : Half) : regField (op ++ r ++ v) = r := by
  apply BitVec.eq_of_getLsbD_eq
  intro i hi
  simp [regField, getLsbD_append_fields, hi, show 16 + i < 24 by omega]

theorem halfField_append (op r : Byte) (v : Half) : halfField (op ++ r ++ v) = v := by
  apply BitVec.eq_of_getLsbD_eq
  intro i hi
  simp [halfField, getLsbD_append_fields, hi]

/-- R103: the row of REG_WRITE. -/
def regWriteRow : Row :=
  ⟨"REG_WRITE", 0x31000000, 0xFF000000, fun w => .regWrite (regField w) (halfField w)⟩

theorem regWriteRow_mem : regWriteRow ∈ decodeTable := by simp [regWriteRow, decodeTable]

theorem regWriteRow_admits (r : Byte) (v : Half) : regWriteRow.admits (0x31#8 ++ r ++ v) = true := by
  have hmasked : (0x31#8 ++ r ++ v) &&& 0xFF000000 = opWord 0x31 := by
    rw [append_eq_regWord]
    exact Laws.EncodeKeepsFixedBits.regWord_masked 0x31 r v
  exact beq_iff_eq.mpr hmasked

/-- R101, R102: every word with the opcode of REG_WRITE is a REG_WRITE of its two fields. -/
theorem decode_regWrite (r : Byte) (v : Half) : decode (0x31#8 ++ r ++ v) = .ok (.regWrite r v) := by
  rw [decode_eq_build_of_admits regWriteRow_mem (regWriteRow_admits r v)]
  simp only [regWriteRow, regField_append, halfField_append]

end Sys2Proof

namespace Sys2Proof.Machine

/-! The register map. -/

/-- R55: the registers marked RO. -/
def Reg.readOnly : Reg → Bool
  | .hdrLen | .readLen | .cntTimeout | .cntJunk | .cntCrc | .cntOverrun => false
  | _ => true

/-- R56: a register write has an effect on exactly the registers that are not RO. -/
theorem Reg.write?_eq_none_iff (v : Half) (s : State) (reg : Reg) :
    reg.write? v s = none ↔ reg.readOnly = true := by
  cases reg <;> simp [Reg.write?, Reg.readOnly]

/-- R55: the numbers of the RO registers. -/
theorem ofNumber_readOnly :
    ∀ r ∈ ([0x00, 0x01, 0x02, 0x03, 0x04, 0x05, 0x06, 0x20, 0x21, 0x22, 0x30, 0x3F] : List Byte),
      (Reg.ofNumber r).any Reg.readOnly = true := by
  decide

/-- R55: the numbers that name a register are the eighteen of the map. -/
theorem ofNumber_eq_none_of_not_mem : ∀ r : Byte,
    r ∉ ([0x00, 0x01, 0x02, 0x03, 0x04, 0x05, 0x06, 0x08, 0x09, 0x10, 0x11, 0x12, 0x13, 0x20, 0x21,
      0x22, 0x30, 0x3F] : List Byte) → Reg.ofNumber r = none := by
  decide

/-! REG_WRITE (R262), by what the register number names. -/

theorem exec_regWrite_of_write {r : Byte} {reg : Reg} {v : Half} {s s' : State}
    (hreg : Reg.ofNumber r = some reg) (hwrite : reg.write? v s = some s') :
    exec (.regWrite r v) s = .next (answered .ok 0 s') := by
  simp only [exec, execRegWrite, hreg, hwrite]
  rfl

theorem exec_regWrite_of_readOnly {r : Byte} {reg : Reg} {v : Half} {s : State}
    (hreg : Reg.ofNumber r = some reg) (hro : reg.readOnly = true) :
    exec (.regWrite r v) s = .next (answered .readOnly 0 s) := by
  simp only [exec, execRegWrite, hreg, (Reg.write?_eq_none_iff v s reg).mpr hro]
  rfl

theorem exec_regWrite_of_reserved {r : Byte} {v : Half} {s : State} (hreg : Reg.ofNumber r = none) :
    exec (.regWrite r v) s = .next (answered .badReg 0 s) := by
  simp only [exec, execRegWrite, hreg]
  rfl

/-- Settles O12: the word by the decode table, the command by what the register number names. -/
theorem regWriteWritesOnlyRwRegisters : Obligations.RegWriteWritesOnlyRwRegisters := by
  refine ⟨decode_regWrite, fun s v => ⟨exec_regWrite_of_write rfl rfl, exec_regWrite_of_write rfl rfl,
    exec_regWrite_of_write rfl rfl, exec_regWrite_of_write rfl rfl, exec_regWrite_of_write rfl rfl,
    exec_regWrite_of_write rfl rfl, fun r hr => ?_, fun r hr => ?_⟩⟩
  · obtain ⟨reg, hreg, hro⟩ := Option.any_eq_true _ _ |>.mp (ofNumber_readOnly r hr)
    exact exec_regWrite_of_readOnly hreg hro
  · exact exec_regWrite_of_reserved (ofNumber_eq_none_of_not_mem r hr)

end Sys2Proof.Machine
end

