-- ==== Sys2Proof/Proofs/CommandFrames.lean ====
section
/-! PROOFS. Which parts of the state each command can change: the frame of every arm of `exec`, once
(spec/10_state.md R50, spec/41_receiver.md, spec/42_transmitter.md, spec/43_register_access.md). -/

namespace Sys2Proof.Machine

/-! The receiver: a byte changes the receiver and the sender, and nothing else. -/

theorem len1Arm_frame (v : Byte) (s : State) : ∃ r, (len1Arm v s).1 = { s with rx := r } := by
  unfold len1Arm
  split
  · exact ⟨_, rfl⟩
  · exact ⟨_, rfl⟩

theorem idleArm_frame (v : Byte) (s : State) : ∃ r, (idleArm v s).1 = { s with rx := r } := by
  rw [idleArm_eq]
  split
  · split
    · exact ⟨_, rfl⟩
    · exact ⟨_, rfl⟩
  · exact len1Arm_frame v { s with rx := freshFrame s.rx }

theorem dataArm_frame (v : Byte) (s : State) : ∃ r x, (dataArm v s).1 = { s with rx := r, tx := x } := by
  rw [dataArm_eq]
  exact ⟨_, _, rfl⟩

theorem data0Arm_frame (v : Byte) (s : State) : ∃ r x, (data0Arm v s).1 = { s with rx := r, tx := x } := by
  unfold data0Arm
  split
  · exact ⟨_, s.tx, rfl⟩
  · split
    · exact ⟨_, s.tx, rfl⟩
    · exact dataArm_frame v { s with rx.state := .data }

theorem crc2Arm_frame (v : Byte) (s : State) : ∃ r x, (crc2Arm v s).1 = { s with rx := r, tx := x } := by
  rw [crc2Arm_eq]
  split
  · exact ⟨_, _, rfl⟩
  · exact ⟨_, _, rfl⟩

/-- R171: no arm changes anything outside the receiver and the sender. -/
theorem rxArm_frame (v : Byte) (s : State) : ∃ r x, (rxArm v s).1 = { s with rx := r, tx := x } := by
  unfold rxArm
  split
  case h_1 => exact (idleArm_frame v s).imp fun _ h => ⟨s.tx, h⟩
  case h_2 => exact (len1Arm_frame v s).imp fun _ h => ⟨s.tx, h⟩
  case h_3 => exact ⟨_, s.tx, rfl⟩
  case h_4 => exact data0Arm_frame v s
  case h_5 => exact dataArm_frame v s
  case h_6 => exact ⟨_, s.tx, rfl⟩
  case h_7 => exact crc2Arm_frame v s
  case h_8 => exact ⟨s.rx, s.tx, rfl⟩

/-- R171: a received byte changes nothing outside the receiver and the sender, in time or late. -/
theorem receive_frame (b : Byte) (s : State) : ∃ r x, (receive b s).1 = { s with rx := r, tx := x } := by
  by_cases h : inTime s
  · rw [receive_of_inTime b h]
    split
    · exact rxArm_frame _ (atArm s)
    · split
      · exact ⟨_, _, rfl⟩
      · exact ⟨_, s.tx, rfl⟩
  · rw [receive_of_late b h]
    obtain ⟨r, hr⟩ := idleArm_frame b (afterTimeout s)
    exact ⟨r, (afterTimeout s).tx, hr⟩

/-! Every command, by the part of the state it writes beside the answer. -/

theorem exec_rxByte_frame (b : Byte) (s : State) :
    ∃ d r x, exec (.rxByte b) s = .next (respond .ok d { s with rx := r, tx := x }) := by
  obtain ⟨r, x, h⟩ := receive_frame b s
  exact ⟨_, r, x, by rw [← h]; rfl⟩

/-- R196. -/
theorem exec_rxReset (s : State) : exec .rxReset s = .next (respond .ok 0 (abortedFrame s)) := by
  rw [← abort_eq]
  rfl

theorem exec_txStart_frame (n : Word) (s : State) :
    ∃ e x, exec (.txStart n) s = .next (respond e 0 { s with tx := x }) := by
  simp only [exec, execTxStart]
  split
  · exact ⟨.txBusy, s.tx, rfl⟩
  · split
    · exact ⟨.txLen, s.tx, rfl⟩
    · exact ⟨.ok, _, rfl⟩

theorem exec_txByte_frame (b : Byte) (s : State) :
    ∃ e x, exec (.txByte b) s = .next (respond e 0 { s with tx := x }) := by
  simp only [exec, execTxByte]
  split
  · exact ⟨_, _, rfl⟩
  · exact ⟨.txNotOpen, s.tx, rfl⟩

theorem exec_txEnd_frame (f : Bool) (s : State) :
    ∃ e x, exec (.txEnd f) s = .next (respond e 0 { s with tx := x }) := by
  simp only [exec, execTxEnd]
  split
  · exact ⟨.txNotOpen, s.tx, rfl⟩
  · split
    · exact ⟨.txBusy, s.tx, rfl⟩
    · exact ⟨.ok, _, rfl⟩

theorem exec_txCopy_frame (d : Word) (s : State) :
    ∃ e x, exec (.txCopy d) s = .next (respond e 0 { s with tx := x }) := by
  simp only [exec, execTxCopy]
  split
  · exact ⟨.txBusy, s.tx, rfl⟩
  · split
    · exact ⟨.copyIllegal, s.tx, rfl⟩
    · split
      · exact ⟨.copyIllegal, s.tx, rfl⟩
      · split
        · exact ⟨.txLen, s.tx, rfl⟩
        · exact ⟨.ok, _, rfl⟩

theorem exec_regRead_frame (r : Byte) (s : State) :
    ∃ e d, exec (.regRead r) s = .next (respond e d s) := by
  simp only [exec, execRegRead]
  split
  · exact ⟨.badReg, 0, rfl⟩
  · exact ⟨.ok, _, rfl⟩

/-- R56: a register write stores into the receiver only. -/
theorem Reg.write?_frame {v : Half} {s s' : State} {reg : Reg} (h : reg.write? v s = some s') :
    ∃ r, s' = { s with rx := r } := by
  cases reg <;> cases h <;> exact ⟨_, rfl⟩

theorem exec_regWrite_frame (n : Byte) (v : Half) (s : State) :
    ∃ e r, exec (.regWrite n v) s = .next (respond e 0 { s with rx := r }) := by
  cases hreg : Reg.ofNumber n with
  | none => exact ⟨.badReg, s.rx, exec_regWrite_of_reserved hreg⟩
  | some reg =>
    cases hwrite : reg.write? v s with
    | none =>
      exact ⟨.readOnly, s.rx, exec_regWrite_of_readOnly hreg ((Reg.write?_eq_none_iff v s reg).mp hwrite)⟩
    | some s' =>
      obtain ⟨r, rfl⟩ := Reg.write?_frame hwrite
      exact ⟨.ok, r, exec_regWrite_of_write hreg hwrite⟩

theorem exec_bufRead_frame (k : Half) (s : State) :
    ∃ e d, exec (.bufRead k) s = .next (respond e d s) := by
  simp only [exec, execBufRead]
  split
  · exact ⟨.ok, _, rfl⟩
  · exact ⟨.badIndex, 0, rfl⟩

theorem exec_bufWrite_frame (k : Half) (b : Byte) (s : State) :
    ∃ e m, exec (.bufWrite k b) s = .next (respond e 0 { s with rx.buf := m }) := by
  simp only [exec, execBufWrite]
  split
  · exact ⟨.ok, _, rfl⟩
  · exact ⟨.badIndex, s.rx.buf, rfl⟩

/-- What a command can leave, by the part of the state it writes beside the answer. -/
inductive ExecFrame (s : State) : Instr → State → Prop
  | receivesByte (b : Byte) (d : Word) (r : Receiver) (x : Sender) :
    ExecFrame s (.rxByte b) (respond .ok d { s with rx := r, tx := x })
  | forcesIdle : ExecFrame s .rxReset (respond .ok 0 (abortedFrame s))
  | writesSenderAtMost (i : Instr) (e : ErrCode) (d : Word) (x : Sender) :
    ExecFrame s i (respond e d { s with tx := x })
  | restartsAuxCrc (c : Half) : ExecFrame s .crcRestart (respond .ok 0 { s with auxCrc := c })
  | addsToAuxCrc (b : Byte) (c : Half) : ExecFrame s (.crcAdd b) (respond .ok 0 { s with auxCrc := c })
  | writesRegister (n : Byte) (v : Half) (e : ErrCode) (r : Receiver) :
    ExecFrame s (.regWrite n v) (respond e 0 { s with rx := r })
  | writesBuffer (k : Half) (b : Byte) (e : ErrCode) (m : List Cell) :
    ExecFrame s (.bufWrite k b) (respond e 0 { s with rx.buf := m })

/-- Every command that performs leaves a state of its frame. -/
theorem execFrame_of_exec {i : Instr} {s t : State} (h : exec i s = .next t) : ExecFrame s i t := by
  cases i with
  | nop => cases h; exact .writesSenderAtMost _ _ _ s.tx
  | rxByte b =>
    obtain ⟨d, r, x, ht⟩ := exec_rxByte_frame b s
    cases ht.symm.trans h; exact .receivesByte b d r x
  | rxReset => cases (exec_rxReset s).symm.trans h; exact .forcesIdle
  | txStart n =>
    obtain ⟨e, x, ht⟩ := exec_txStart_frame n s
    cases ht.symm.trans h; exact .writesSenderAtMost _ e 0 x
  | txByte b =>
    obtain ⟨e, x, ht⟩ := exec_txByte_frame b s
    cases ht.symm.trans h; exact .writesSenderAtMost _ e 0 x
  | txEnd f =>
    obtain ⟨e, x, ht⟩ := exec_txEnd_frame f s
    cases ht.symm.trans h; exact .writesSenderAtMost _ e 0 x
  | txCopy d =>
    obtain ⟨e, x, ht⟩ := exec_txCopy_frame d s
    cases ht.symm.trans h; exact .writesSenderAtMost _ e 0 x
  | crcRestart => cases h; exact .restartsAuxCrc crcSeed
  | crcAdd b => cases h; exact .addsToAuxCrc b _
  | crcValue => cases h; exact .writesSenderAtMost _ _ _ s.tx
  | regRead n =>
    obtain ⟨e, d, ht⟩ := exec_regRead_frame n s
    cases ht.symm.trans h; exact .writesSenderAtMost _ e d s.tx
  | regWrite n v =>
    obtain ⟨e, r, ht⟩ := exec_regWrite_frame n v s
    cases ht.symm.trans h; exact .writesRegister n v e r
  | bufRead k =>
    obtain ⟨e, d, ht⟩ := exec_bufRead_frame k s
    cases ht.symm.trans h; exact .writesSenderAtMost _ e d s.tx
  | bufWrite k b =>
    obtain ⟨e, m, ht⟩ := exec_bufWrite_frame k b s
    cases ht.symm.trans h; exact .writesBuffer k b e m

/-! The host's accumulator (R50). -/

/-- R50: only CRC_RESTART and CRC_ADD write `aux_crc`. -/
theorem exec_keeps_auxCrc {i : Instr} {s t : State} (h : exec i s = .next t)
    (hrestart : i ≠ .crcRestart) (hadd : ∀ b, i ≠ .crcAdd b) : t.auxCrc = s.auxCrc := by
  cases execFrame_of_exec h with
  | receivesByte | forcesIdle | writesSenderAtMost | writesRegister | writesBuffer => rfl
  | restartsAuxCrc => exact absurd rfl hrestart
  | addsToAuxCrc b => exact absurd rfl (hadd b)

/-- R50: the host's CRC commands leave the receiver and the sender whole. -/
theorem hostCrc_keeps_rx_tx {i : Instr} {s t : State} (h : exec i s = .next t)
    (hi : i = .crcRestart ∨ (∃ b, i = .crcAdd b) ∨ i = .crcValue) : t.rx = s.rx ∧ t.tx = s.tx := by
  obtain rfl | ⟨b, rfl⟩ | rfl := hi
  case inl => cases h; exact ⟨rfl, rfl⟩
  case inr.inl => cases h; exact ⟨rfl, rfl⟩
  case inr.inr => cases h; exact ⟨rfl, rfl⟩

/-- Settles O24: the frame of every command for `aux_crc`, and the three CRC commands by their
definitions. -/
theorem hostAccumulatorIsIsolated : Obligations.HostAccumulatorIsIsolated :=
  fun _ _ _ h => ⟨exec_keeps_auxCrc h, hostCrc_keeps_rx_tx h⟩

end Sys2Proof.Machine
end

