-- ==== Sys2Proof/Proofs/Counters.lean ====
section
/-! PROOFS. What each diagnostic counter counts (spec/10_state.md R43, R52; spec/41_receiver.md R173 to R193):
the arm of the receiver that a byte reaches counts at most one event, the timeout guard counts the timeout,
and nothing else counts. -/

namespace Sys2Proof.Machine

/-! The four counters together. -/

/-- R52: the four diagnostic counters. -/
def counters (r : Receiver) : Half × Half × Half × Half := (r.cntTimeout, r.cntJunk, r.cntCrc, r.cntOverrun)

theorem counters_eq_iff (r r' : Receiver) :
    counters r = counters r' ↔
      r.cntTimeout = r'.cntTimeout ∧ r.cntJunk = r'.cntJunk ∧ r.cntCrc = r'.cntCrc ∧
        r.cntOverrun = r'.cntOverrun := by
  simp [counters]

/-- R52: the receiver after one event is counted, or after none. -/
def countEvent (e : Option Counter) (r : Receiver) : Receiver := e.elim r fun k => count k r

theorem countEvent_cntTimeout (e : Option Counter) (r : Receiver) :
    (countEvent e r).cntTimeout = r.cntTimeout + if e = some .timeout then 1 else 0 := by
  rcases e with _ | _ | _ | _ | _ <;> simp [countEvent]

theorem countEvent_cntJunk (e : Option Counter) (r : Receiver) :
    (countEvent e r).cntJunk = r.cntJunk + if e = some .junk then 1 else 0 := by
  rcases e with _ | _ | _ | _ | _ <;> simp [countEvent]

theorem countEvent_cntCrc (e : Option Counter) (r : Receiver) :
    (countEvent e r).cntCrc = r.cntCrc + if e = some .crc then 1 else 0 := by
  rcases e with _ | _ | _ | _ | _ <;> simp [countEvent]

theorem countEvent_cntOverrun (e : Option Counter) (r : Receiver) :
    (countEvent e r).cntOverrun = r.cntOverrun + if e = some .overrun then 1 else 0 := by
  rcases e with _ | _ | _ | _ | _ <;> simp [countEvent]

/-- R52: what counting an event, or none, leaves in each counter. -/
theorem counters_eq_countEvent_iff (e : Option Counter) (r r' : Receiver) :
    counters r = counters (countEvent e r') ↔
      r.cntTimeout = r'.cntTimeout + (if e = some .timeout then 1 else 0) ∧
      r.cntJunk = r'.cntJunk + (if e = some .junk then 1 else 0) ∧
      r.cntCrc = r'.cntCrc + (if e = some .crc then 1 else 0) ∧
      r.cntOverrun = r'.cntOverrun + (if e = some .overrun then 1 else 0) := by
  rw [counters_eq_iff, countEvent_cntTimeout, countEvent_cntJunk, countEvent_cntCrc, countEvent_cntOverrun]

/-- What a count does to the counters depends on the counters only. -/
theorem counters_countEvent_congr {r r' : Receiver} (e : Option Counter) (h : counters r = counters r') :
    counters (countEvent e r) = counters (countEvent e r') := by
  obtain ⟨htimeout, hjunk, hcrc, hoverrun⟩ := (counters_eq_iff r r').mp h
  rw [counters_eq_countEvent_iff, ← htimeout, ← hjunk, ← hcrc, ← hoverrun, ← counters_eq_countEvent_iff]

/-! What each arm counts. -/

/-- R179: LEN1 counts a zero length byte. -/
def len1Counts (v : Byte) : Option Counter := if v = 0 then some .junk else none

/-- R178: IDLE counts a byte that starts no frame. -/
def idleCounts (p : Config.Params) (v : Byte) : Option Counter :=
  if p.markerEn = true then if v = p.marker then none else some .junk else len1Counts v

/-- R186: DATA counts a payload byte that is not stored. -/
def dataCounts (p : Config.Params) (r : Receiver) : Option Counter :=
  if r.pos.toNat < p.bufCap then none else some .overrun

/-- R183 to R185: DATA0 counts as DATA does where its byte is a payload byte. -/
def data0Counts (p : Config.Params) (r : Receiver) : Option Counter :=
  if p.maxPacket < r.len.toNat then none else if r.len = 0 then none else dataCounts p r

/-- R192: CRC2 counts a residue that is not zero. -/
def crc2Counts (p : Config.Params) (v : Byte) (r : Receiver) : Option Counter :=
  if crc16Add p.crcPoly r.crc v = 0 then none else some .crc

/-- R52: the one event the arm of the current state counts for a byte, if any. -/
def armCounts (p : Config.Params) (v : Byte) (r : Receiver) : Option Counter :=
  match r.state with
  | .idle => idleCounts p v
  | .len1 => len1Counts v
  | .data0 => data0Counts p r
  | .data => dataCounts p r
  | .crc2 => crc2Counts p v r
  | .len2 | .crc1 | .error => none

theorem counters_len1Arm (v : Byte) (s : State) :
    counters (len1Arm v s).1.rx = counters (countEvent (len1Counts v) s.rx) := by
  unfold len1Arm len1Counts
  split
  · rfl
  · rfl

theorem counters_idleArm (v : Byte) (s : State) :
    counters (idleArm v s).1.rx = counters (countEvent (idleCounts s.p v) s.rx) := by
  rw [idleArm_eq, idleCounts]
  split
  · split
    · rfl
    · rfl
  · rw [counters_len1Arm, len1Counts]
    split
    · rfl
    · rfl

theorem counters_dataArm (v : Byte) (s : State) :
    counters (dataArm v s).1.rx = counters (countEvent (dataCounts s.p s.rx) s.rx) := by
  by_cases hcap : s.rx.pos.toNat < s.p.bufCap
  · simp only [dataArm_eq, counters, payloadReceived, dataCounts, if_pos hcap, countEvent, Option.elim]
  · simp only [dataArm_eq, counters, payloadReceived, dataCounts, if_neg hcap, countEvent, Option.elim, count]

theorem counters_data0Arm (v : Byte) (s : State) :
    counters (data0Arm v s).1.rx = counters (countEvent (data0Counts s.p s.rx) s.rx) := by
  unfold data0Arm data0Counts
  split
  · rfl
  · split
    · rfl
    · rw [counters_dataArm, dataCounts, dataCounts]
      split
      · rfl
      · rfl

theorem counters_crc2Arm (v : Byte) (s : State) :
    counters (crc2Arm v s).1.rx = counters (countEvent (crc2Counts s.p v s.rx) s.rx) := by
  rw [crc2Arm_eq, crc2Counts]
  split
  · rfl
  · rfl

/-- R52: an arm counts its one event. -/
theorem counters_rxArm (v : Byte) (s : State) :
    counters (rxArm v s).1.rx = counters (countEvent (armCounts s.p v s.rx) s.rx) := by
  cases hstate : s.rx.state <;> simp only [rxArm, armCounts, hstate]
  case idle => exact counters_idleArm v s
  case len1 => exact counters_len1Arm v s
  case len2 => rfl
  case data0 => exact counters_data0Arm v s
  case data => exact counters_dataArm v s
  case crc1 => rfl
  case crc2 => exact counters_crc2Arm v s
  case error => rfl

/-! Which event an arm counts, and when. -/

theorem len1Counts_eq_some_iff (v : Byte) (e : Counter) : len1Counts v = some e ↔ v = 0 ∧ e = .junk := by
  simp [len1Counts, eq_comm (b := e)]

theorem idleCounts_eq_some_iff (p : Config.Params) (v : Byte) (e : Counter) :
    idleCounts p v = some e ↔
      ((p.markerEn = true ∧ v ≠ p.marker) ∨ (p.markerEn = false ∧ v = 0)) ∧ e = .junk := by
  cases hmarker : p.markerEn <;> simp [idleCounts, hmarker, len1Counts_eq_some_iff, eq_comm (b := e)]

theorem dataCounts_eq_some_iff (p : Config.Params) (r : Receiver) (e : Counter) :
    dataCounts p r = some e ↔ p.bufCap ≤ r.pos.toNat ∧ e = .overrun := by
  simp [dataCounts, eq_comm (b := e)]

theorem data0Counts_eq_some_iff (p : Config.Params) (r : Receiver) (e : Counter) :
    data0Counts p r = some e ↔
      (r.len ≠ 0 ∧ r.len.toNat ≤ p.maxPacket ∧ p.bufCap ≤ r.pos.toNat) ∧ e = .overrun := by
  simp [data0Counts, dataCounts_eq_some_iff]
  tauto

theorem crc2Counts_eq_some_iff (p : Config.Params) (v : Byte) (r : Receiver) (e : Counter) :
    crc2Counts p v r = some e ↔ crc16Add p.crcPoly r.crc v ≠ 0 ∧ e = .crc := by
  simp [crc2Counts, eq_comm (b := e)]

/-- R52, R173: an arm counts junk, a bad CRC or an overrun, never a timeout: that is the guard's. -/
theorem armCounts_eq_some_iff (p : Config.Params) (v : Byte) (r : Receiver) (e : Counter) :
    armCounts p v r = some e ↔
      (((r.state = .idle ∧ p.markerEn = true ∧ v ≠ p.marker) ∨ (r.state = .idle ∧ p.markerEn = false ∧ v = 0) ∨
          (r.state = .len1 ∧ v = 0)) ∧ e = .junk) ∨
      ((r.state = .crc2 ∧ crc16Add p.crcPoly r.crc v ≠ 0) ∧ e = .crc) ∨
      (((r.state = .data ∨ r.state = .data0 ∧ r.len ≠ 0 ∧ r.len.toNat ≤ p.maxPacket) ∧
          p.bufCap ≤ r.pos.toNat) ∧ e = .overrun) := by
  cases hstate : r.state <;> simp only [armCounts, hstate]
  case idle => simp [idleCounts_eq_some_iff]
  case len1 => simp [len1Counts_eq_some_iff]
  case len2 => simp
  case data0 => simp [data0Counts_eq_some_iff, and_assoc]
  case data => simp [dataCounts_eq_some_iff]
  case crc1 => simp
  case crc2 => simp [crc2Counts_eq_some_iff]
  case error => simp

/-! What a received byte counts. -/

/-- R175: stuffing is not decoded in IDLE. -/
theorem delivered_of_idle {s : State} (b : Byte) (h : s.rx.state = .idle) : delivered s b = some b := by
  simp [delivered, stuffingActive, h]

/-- R52, R171: the one event a byte in time counts, if any: that of the arm it is delivered to. -/
def byteCounts (s : State) (b : Byte) : Option Counter := (delivered s b).bind fun v => armCounts s.p v s.rx

/-- R52, R171: a byte the stuffing layer takes counts nothing. -/
theorem counters_receive_of_inTime {s : State} (b : Byte) (h : inTime s) :
    counters (receive b s).1.rx = counters (countEvent (byteCounts s b) s.rx) := by
  rw [receive_of_inTime b h, byteCounts]
  cases delivered s b with
  | none =>
    dsimp only
    split
    · rfl
    · rfl
  | some v => exact (counters_rxArm v (atArm s)).trans (counters_countEvent_congr (armCounts s.p v s.rx) rfl)

/-- R52, R173: a late byte counts the timeout, and then what IDLE counts. -/
theorem counters_receive_of_late {s : State} (b : Byte) (h : ¬ inTime s) :
    counters (receive b s).1.rx = counters (countEvent (idleCounts s.p b) (count .timeout s.rx)) := by
  rw [receive_of_late b h]
  exact (counters_idleArm b (afterTimeout s)).trans (counters_countEvent_congr (idleCounts s.p b) rfl)

theorem byteCounts_ne_timeout (s : State) (b : Byte) : byteCounts s b ≠ some .timeout := by
  cases hb : delivered s b <;> simp [byteCounts, hb, armCounts_eq_some_iff]

/-- R52: the junk bytes. -/
theorem byteCounts_eq_junk_iff (s : State) (b : Byte) :
    byteCounts s b = some .junk ↔
      (s.rx.state = .idle ∧ s.p.markerEn = true ∧ b ≠ s.p.marker) ∨
        (s.rx.state = .idle ∧ s.p.markerEn = false ∧ b = 0) ∨ (s.rx.state = .len1 ∧ delivered s b = some 0) := by
  by_cases hidle : s.rx.state = .idle
  · simp [byteCounts, delivered_of_idle b hidle, armCounts_eq_some_iff, hidle]
  · cases hb : delivered s b <;> simp [byteCounts, hb, armCounts_eq_some_iff, hidle]

/-- R52: the rejected trailers. -/
theorem byteCounts_eq_crc_iff (s : State) (b : Byte) :
    byteCounts s b = some .crc ↔
      ∃ v, delivered s b = some v ∧ s.rx.state = .crc2 ∧ crc16Add s.p.crcPoly s.rx.crc v ≠ 0 := by
  cases hb : delivered s b <;> simp [byteCounts, hb, armCounts_eq_some_iff]

/-- R52: the payload bytes that are not stored. -/
theorem byteCounts_eq_overrun_iff (s : State) (b : Byte) :
    byteCounts s b = some .overrun ↔
      (s.rx.state = .data ∨ s.rx.state = .data0 ∧ s.rx.len ≠ 0 ∧ s.rx.len.toNat ≤ s.p.maxPacket) ∧
        (delivered s b).isSome = true ∧ s.p.bufCap ≤ s.rx.pos.toNat := by
  cases hb : delivered s b <;> simp [byteCounts, hb, armCounts_eq_some_iff]

/-! The commands. -/

theorem rx_of_exec_rxByte {b : Byte} {s t : State} (h : exec (.rxByte b) s = .next t) :
    t.rx = (receive b s).1.rx := by
  cases h
  rfl

/-- R52: only RX_BYTE and REG_WRITE change a counter. -/
theorem exec_keeps_counters {i : Instr} {s t : State} (h : exec i s = .next t) (hrx : ∀ b, i ≠ .rxByte b)
    (hwrite : ∀ n v, i ≠ .regWrite n v) : counters t.rx = counters s.rx := by
  cases execFrame_of_exec h with
  | receivesByte b => exact absurd rfl (hrx b)
  | writesRegister n v => exact absurd rfl (hwrite n v)
  | forcesIdle | writesSenderAtMost | restartsAuxCrc | addsToAuxCrc | writesBuffer => rfl

/-- R52: what a byte in time leaves in each counter. -/
theorem exec_rxByte_counters_of_inTime {s t : State} {b : Byte} (h : exec (.rxByte b) s = .next t)
    (hin : inTime s) : counters t.rx = counters (countEvent (byteCounts s b) s.rx) :=
  rx_of_exec_rxByte h ▸ counters_receive_of_inTime b hin

/-- R52, R173: what a late byte leaves in each counter. -/
theorem exec_rxByte_counters_of_late {s t : State} {b : Byte} (h : exec (.rxByte b) s = .next t)
    (hlate : ¬ inTime s) : counters t.rx = counters (countEvent (idleCounts s.p b) (count .timeout s.rx)) :=
  rx_of_exec_rxByte h ▸ counters_receive_of_late b hlate

/-- Settles O47: the counters after a byte in time, after a late byte, and after any other command. -/
theorem countersCountTheirEvents : Obligations.CountersCountTheirEvents := by
  refine ⟨fun s t b h hin => ?inTime, fun s t b h hlate => ?late, fun i s t h hrx hwrite => ?other⟩
  case inTime =>
    obtain ⟨htimeout, hjunk, hcrc, hoverrun⟩ :=
      (counters_eq_countEvent_iff _ _ _).mp (exec_rxByte_counters_of_inTime h hin)
    refine ⟨?_, ?_, ?_, ?_⟩
    · simpa [byteCounts_ne_timeout] using htimeout
    · simpa only [byteCounts_eq_junk_iff] using hjunk
    · rw [hcrc]
      cases hb : delivered s b <;> simp [byteCounts_eq_crc_iff, hb]
    · simpa only [byteCounts_eq_overrun_iff] using hoverrun
  case late =>
    have hcount := (counters_eq_countEvent_iff _ _ _).mp (exec_rxByte_counters_of_late h hlate)
    simpa [idleCounts_eq_some_iff] using hcount
  case other => exact (counters_eq_iff _ _).mp (exec_keeps_counters h hrx hwrite)

end Sys2Proof.Machine
end

