-- ==== Sys2Proof/Proofs/DecodeOutcomes.lean ====
section
/-! PROOFS. Both outcomes of the decoder, each tied to the rows of its table (spec/30_encoding.md R102 to R105),
and with them NOP's word and the words of spec/95_test_vectors.md. -/

namespace Sys2Proof

/-! The rows, by position and by opcode. -/

/-- R103: the rows of the table, counted from NOP's. -/
def tableRow (k : Fin 14) : Row := decodeTable.get k

theorem tableRow_mem (k : Fin 14) : tableRow k ∈ decodeTable := List.get_mem decodeTable k

/-- R102: a row is known by its opcode. -/
theorem row_eq_of_opField_eq {r r' : Row} (hr : r ∈ decodeTable) (hr' : r' ∈ decodeTable)
    (h : opField r.pattern = opField r'.pattern) : r = r' :=
  List.inj_on_of_nodup_map decodeTable_opcodes_nodup hr hr' h

/-! The two outcomes. -/

/-- R103: the commands a word decodes to are those built by the rows that admit it. -/
theorem decode_eq_ok_iff (w : Word) (i : Instr) :
    decode w = .ok i ↔ ∃ r ∈ decodeTable, r.admits w = true ∧ r.build w = i := by
  constructor
  · intro h
    rw [decode] at h
    split at h
    next r hfind =>
      exact ⟨r, List.mem_of_find?_eq_some hfind,
        List.find?_some (p := fun r : Row => r.admits w) hfind, Except.ok.inj h⟩
    next => cases h
  · rintro ⟨r, hr, hadmits, rfl⟩
    exact decode_eq_build_of_admits hr hadmits

/-- R104: a word that no row admits is refused. -/
theorem decode_eq_rejection {w : Word} (h : ∀ r ∈ decodeTable, r.admits w = false) :
    decode w = .error (rejection w) := by
  have hfind : (decodeTable.find? fun r => r.admits w) = none :=
    List.find?_eq_none.mpr fun r hr => by simp [h r hr]
  rw [decode, hfind]

/-- R104: a refused word with the opcode of a row is refused for that row's reserved-zero field. -/
theorem rejection_eq_reservedField {w : Word} {r : Row} (hr : r ∈ decodeTable)
    (hop : opField r.pattern = opField w) : rejection w = .reservedField r.mnemonic := by
  have hsome : (decodeTable.find? fun r => opField r.pattern == opField w).isSome = true :=
    List.find?_isSome.mpr ⟨r, hr, beq_iff_eq.mpr hop⟩
  obtain ⟨found, hfind⟩ := Option.isSome_iff_exists.mp hsome
  have hfound : opField found.pattern = opField w :=
    beq_iff_eq.mp (List.find?_some (p := fun r : Row => opField r.pattern == opField w) hfind)
  have hrow : found = r :=
    row_eq_of_opField_eq (List.mem_of_find?_eq_some hfind) hr (hfound.trans hop.symm)
  simp only [rejection, hfind, hrow]

/-- R104: a word whose opcode no row has is refused for its opcode. -/
theorem rejection_eq_reservedOpcode {w : Word} (h : ∀ r ∈ decodeTable, opField r.pattern ≠ opField w) :
    rejection w = .reservedOpcode (opField w) := by
  have hfind : (decodeTable.find? fun r => opField r.pattern == opField w) = none :=
    List.find?_eq_none.mpr fun r hr => mt beq_iff_eq.mp (h r hr)
  rw [rejection, hfind]

/-- R104: the refusal of a word with the opcode of a row that does not admit it. -/
theorem decode_eq_reservedField {w : Word} {r : Row} (hr : r ∈ decodeTable)
    (hop : opField r.pattern = opField w) (hadmits : r.admits w = false) :
    decode w = .error (.reservedField r.mnemonic) := by
  rw [← rejection_eq_reservedField hr hop]
  refine decode_eq_rejection fun other hother => Bool.eq_false_iff.mpr fun h => ?_
  have hrow : other = r :=
    row_eq_of_opField_eq hother hr ((opField_pattern_of_admits hother h).trans hop.symm)
  rw [hrow, hadmits] at h
  cases h

/-- R104: the refusal of a word whose opcode no row has, whatever its other bits are. -/
theorem decode_eq_reservedOpcode {w : Word} (h : ∀ r ∈ decodeTable, opField r.pattern ≠ opField w) :
    decode w = .error (.reservedOpcode (opField w)) := by
  rw [← rejection_eq_reservedOpcode h]
  exact decode_eq_rejection fun r hr =>
    Bool.eq_false_iff.mpr fun hadmits => h r hr (opField_pattern_of_admits hr hadmits)

/-! NOP (R105). -/

/-- R103: the row of NOP. -/
def nopRow : Row := ⟨"NOP", 0x00000000, 0xFFFFFFFF, fun _ => .nop⟩

theorem nopRow_mem : nopRow ∈ decodeTable := List.mem_cons_self

/-- NOP has no operand: its mask keeps every bit of the word. -/
theorem nopRow_admits_iff (w : Word) : nopRow.admits w = true ↔ w = 0 := by
  have hmask : w &&& nopRow.mask = w := BitVec.and_allOnes
  rw [Row.admits, hmask]
  exact beq_iff_eq

/-- R102: of all rows, only NOP's builds NOP. -/
theorem eq_nopRow_of_build {r : Row} {w : Word} (hr : r ∈ decodeTable) (h : r.build w = .nop) : r = nopRow := by
  obtain hhead | htail := List.mem_cons.mp hr
  · exact hhead
  · fin_cases htail <;> cases h

/-- R105: NOP is the all-zero word and no other. -/
theorem decode_eq_nop_iff (w : Word) : decode w = .ok .nop ↔ w = 0 := by
  rw [decode_eq_ok_iff, ← nopRow_admits_iff]
  constructor
  · rintro ⟨r, hr, hadmits, hbuild⟩
    exact eq_nopRow_of_build hr hbuild ▸ hadmits
  · exact fun hadmits => ⟨nopRow, nopRow_mem, hadmits, rfl⟩

end Sys2Proof

namespace Sys2Proof.Machine

/-- R105: NOP answers OK and changes nothing else. -/
theorem exec_nop (s : State) : exec .nop s = .next (answered .ok 0 s) := rfl

/-- Settles O10: the word by the one row that builds NOP, the command by its arm. -/
theorem nopIsTheZeroWord : Obligations.NopIsTheZeroWord := ⟨decode_eq_nop_iff, exec_nop⟩

/-- Settles O4: each legal word by the row that admits it, each illegal one by the row whose opcode it has, or
by having no row's opcode. -/
theorem listedWordsDecode : Obligations.ListedWordsDecode := by
  refine ⟨?rxByte, ?txCopyMinusOne, ?txCopyLeast, ?txEnd, decode_regWrite 0x08 2, ?bufWrite,
    (decode_eq_nop_iff 0).mpr rfl, ?rxByteHigh, ?txEndHigh, ?regReadLow, ?bufReadLow, ?crcRestartLow,
    decode_eq_reservedOpcode (by decide), decode_eq_reservedOpcode (by decide)⟩
  case rxByte => exact decode_eq_build_of_admits (tableRow_mem 1) rfl
  case txCopyMinusOne => exact decode_eq_build_of_admits (tableRow_mem 6) rfl
  case txCopyLeast => exact decode_eq_build_of_admits (tableRow_mem 6) rfl
  case txEnd => exact decode_eq_build_of_admits (tableRow_mem 5) rfl
  case bufWrite => exact decode_eq_build_of_admits (tableRow_mem 13) rfl
  case rxByteHigh => exact decode_eq_reservedField (tableRow_mem 1) rfl rfl
  case txEndHigh => exact decode_eq_reservedField (tableRow_mem 5) rfl rfl
  case regReadLow => exact decode_eq_reservedField (tableRow_mem 10) rfl rfl
  case bufReadLow => exact decode_eq_reservedField (tableRow_mem 12) rfl rfl
  case crcRestartLow => exact decode_eq_reservedField (tableRow_mem 7) rfl rfl

end Sys2Proof.Machine
end

