-- ==== Sys2Proof/Proofs/CrcUnit.lean ====
section
/-! PROOFS. The nibble-table method (spec/40_crc.md R152), and the words and meanings of the host's three CRC
commands (R157 to R159). -/

namespace Sys2Proof.Machine

/-! Four turns of R150's loop at once. -/

/-- R150: four turns of the loop, for the bits of a nibble, most significant first. -/
def nibbleTurns (poly c : Half) (n : BitVec 4) : Half :=
  [3, 2, 1, 0].foldl (fun c i => crcShift poly c (n.getLsbD i)) c

theorem nibbleTurns_eq_shifts (poly c : Half) (n : BitVec 4) :
    nibbleTurns poly c n =
      crcShift poly (crcShift poly (crcShift poly (crcShift poly c (n.getLsbD 3)) (n.getLsbD 2))
        (n.getLsbD 1)) (n.getLsbD 0) := rfl

/-- The eight turns for a byte are those for its high nibble and then those for its low one. -/
theorem crc16Add_eq_nibbleTurns (poly c : Half) (b : Byte) :
    crc16Add poly c b = nibbleTurns poly (nibbleTurns poly c (b.extractLsb' 4 4)) (b.extractLsb' 0 4) := by
  simp [crc16Add_eq_shifts, nibbleTurns_eq_shifts]

/-- R152: `i << 12`, a nibble at the top of an accumulator. -/
def topNibble (i : BitVec 4) : Half := i.setWidth 16 <<< 12

theorem extractLsb'_topNibble : ∀ i : BitVec 4, (topNibble i).extractLsb' 12 4 = i := by decide

theorem topNibble_shiftLeft : ∀ i : BitVec 4, topNibble i <<< 4 = 0#16 := by decide

theorem crcTable_eq_nibbleTurns (poly : Half) (i : BitVec 4) :
    crcTable poly i = nibbleTurns poly (topNibble i) 0#4 := rfl

/-- Four turns are linear over GF(2) in accumulator and nibble together, as one turn is. -/
theorem nibbleTurns_xor (poly c d : Half) (n m : BitVec 4) :
    nibbleTurns poly (c ^^^ d) (n ^^^ m) = nibbleTurns poly c n ^^^ nibbleTurns poly d m := by
  simp only [nibbleTurns_eq_shifts, BitVec.getLsbD_xor, crcShift_xor]

/-- The polynomial is not fed back where the input bit equals the bit shifted out. -/
theorem crcShift_top_bit (poly c : Half) : crcShift poly c (c.getLsbD 15) = c <<< 1 := by
  simp only [crcShift, Bool.xor_self, Bool.false_eq_true, if_false]

/-- Nor in any of the four turns whose nibble equals the accumulator's top one. -/
theorem nibbleTurns_of_top_nibble_eq (poly : Half) {c : Half} {n : BitVec 4} (h : c.extractLsb' 12 4 = n) :
    nibbleTurns poly c n = c <<< 4 := by
  have hbit : ∀ k < 4, n.getLsbD (3 - k) = (c <<< k).getLsbD 15 := by
    intro k hk
    rw [← h]
    interval_cases k <;> simp
  calc nibbleTurns poly c n
      = crcShift poly (crcShift poly (crcShift poly (crcShift poly c ((c <<< 0).getLsbD 15))
          ((c <<< 1).getLsbD 15)) ((c <<< 2).getLsbD 15)) ((c <<< 3).getLsbD 15) := by
        rw [← hbit 0 (by decide), ← hbit 1 (by decide), ← hbit 2 (by decide), ← hbit 3 (by decide)]
        exact nibbleTurns_eq_shifts poly c n
    _ = c <<< 4 := by
        simp only [BitVec.shiftLeft_zero, crcShift_top_bit, ← BitVec.shiftLeft_add, Nat.reduceAdd]

/-- Four turns on an accumulator, split into a part that meets the nibble and a part that meets zeros. -/
theorem nibbleTurns_split (poly c d : Half) (n : BitVec 4) :
    nibbleTurns poly c n = nibbleTurns poly (c ^^^ d) n ^^^ nibbleTurns poly d 0#4 := by
  rw [← nibbleTurns_xor, BitVec.xor_assoc, BitVec.xor_self, BitVec.xor_zero, BitVec.xor_zero]

/-- R152: the table index, put back in the top nibble, turns that nibble into the incoming one. -/
theorem top_nibble_xor_index (c : Half) (n : BitVec 4) :
    (c ^^^ topNibble (c.extractLsb' 12 4 ^^^ n)).extractLsb' 12 4 = n := by
  rw [BitVec.extractLsb'_xor, extractLsb'_topNibble, ← BitVec.xor_assoc, BitVec.xor_self, BitVec.zero_xor]

/-- R152: one lookup does four turns. With the table index taken out of it, the accumulator's top nibble is
the incoming one, so that part is only shifted; the index meets zeros, which is its table entry. -/
theorem nibbleTurns_eq_crcNibble (poly c : Half) (n : BitVec 4) :
    nibbleTurns poly c n = crcNibble poly c n := by
  have hshifted : nibbleTurns poly (c ^^^ topNibble (c.extractLsb' 12 4 ^^^ n)) n = c <<< 4 := by
    rw [nibbleTurns_of_top_nibble_eq poly (top_nibble_xor_index c n), BitVec.shiftLeft_xor_distrib,
      topNibble_shiftLeft, BitVec.xor_zero]
  rw [nibbleTurns_split poly c (topNibble (c.extractLsb' 12 4 ^^^ n)) n, hshifted, crcNibble,
    crcTable_eq_nibbleTurns]

/-- Settles O20: each of the two lookups does the four turns of its nibble. -/
theorem nibbleMethodAgreesWithBitwise : Obligations.NibbleMethodAgreesWithBitwise := by
  intro poly c b
  rw [crc16AddNibble, crc16Add_eq_nibbleTurns, nibbleTurns_eq_crcNibble, nibbleTurns_eq_crcNibble]

end Sys2Proof.Machine

namespace Sys2Proof

open Laws.EncodeKeepsFixedBits (fixedBits)

/-! The words of the CRC commands. -/

/-- R102, R103: a row builds only commands whose fixed bits are the row's own. -/
theorem fixedBits_build {r : Row} (hr : r ∈ decodeTable) (w : Word) :
    fixedBits (r.build w) = (r.pattern, r.mask) := by
  fin_cases hr <;> rfl

/-- R103: a word has the fixed bits of the command it decodes to. -/
theorem masked_of_decode {w : Word} {i : Instr} (h : decode w = .ok i) :
    w &&& (fixedBits i).2 = (fixedBits i).1 := by
  obtain ⟨r, hr, hadmits, rfl⟩ := (decode_eq_ok_iff w i).mp h
  rw [fixedBits_build hr]
  exact beq_iff_eq.mp hadmits

/-- R101 format N: a row that fixes every bit has one word, and no other row builds its command. -/
theorem decode_eq_ok_iff_eq_pattern {r : Row} {i : Instr} (hr : r ∈ decodeTable)
    (hmask : r.mask = BitVec.allOnes 32) (hbuild : r.build r.pattern = i) (w : Word) :
    decode w = .ok i ↔ w = r.pattern := by
  have hfixed : fixedBits i = (r.pattern, BitVec.allOnes 32) := by
    rw [← hbuild, fixedBits_build hr, hmask]
  constructor
  · intro h
    simpa only [hfixed, BitVec.and_allOnes] using masked_of_decode h
  · rintro rfl
    have hadmits : r.admits r.pattern = true := by
      rw [Row.admits, hmask, BitVec.and_allOnes, beq_self_eq_true]
    rw [decode_eq_build_of_admits hr hadmits, hbuild]

/-- R103: a field that a row's mask keeps whole holds the row's value in every word the row admits. -/
theorem extractLsb'_of_admits {r : Row} {w : Word} {start len : Nat}
    (hmask : r.mask.extractLsb' start len = BitVec.allOnes len) (h : r.admits w = true) :
    w.extractLsb' start len = r.pattern.extractLsb' start len := by
  have hpattern : w &&& r.mask = r.pattern := beq_iff_eq.mp h
  rw [← hpattern, BitVec.extractLsb'_and, hmask, BitVec.and_allOnes]

/-- R157: CRC_RESTART has one word. -/
theorem decode_eq_crcRestart_iff (w : Word) : decode w = .ok .crcRestart ↔ w = 0x20000000 :=
  decode_eq_ok_iff_eq_pattern (tableRow_mem 7) rfl rfl w

/-- R157: every other word with the opcode of CRC_RESTART is refused. -/
theorem decode_crcRestart_refused {w : Word} (hop : opField w = 0x20) (hw : w ≠ 0x20000000) :
    decode w = .error (.reservedField "CRC_RESTART") := by
  refine decode_eq_reservedField (tableRow_mem 7) hop.symm (Bool.eq_false_iff.mpr fun hadmits => hw ?_)
  exact (decode_eq_crcRestart_iff w).mp (decode_eq_build_of_admits (tableRow_mem 7) hadmits)

/-- R159: CRC_VALUE has one word. -/
theorem decode_eq_crcValue_iff (w : Word) : decode w = .ok .crcValue ↔ w = 0x22000000 :=
  decode_eq_ok_iff_eq_pattern (tableRow_mem 9) rfl rfl w

/-- R158: the word of CRC_ADD is its opcode, sixteen zeros and the byte. -/
theorem decode_crcAdd (b : Byte) : decode (0x210000#24 ++ b) = .ok (.crcAdd b) := by
  have hmasked : (0x210000#24 ++ b) &&& (0xFFFFFF#24 ++ 0#8) = 0x210000#24 ++ 0#8 := by
    rw [BitVec.and_append, BitVec.and_zero]
    rfl
  have hbyte : byteField (0x210000#24 ++ b) = b := BitVec.extractLsb'_append_eq_right
  calc decode (0x210000#24 ++ b)
      = .ok (.crcAdd (byteField (0x210000#24 ++ b))) :=
        decode_eq_build_of_admits (tableRow_mem 8) (beq_iff_eq.mpr hmasked)
    _ = .ok (.crcAdd b) := by rw [hbyte]

/-- R158: a word with the opcode of CRC_ADD and a bit set between opcode and byte is refused. -/
theorem decode_crcAdd_refused {w : Word} (hop : opField w = 0x21) (hreserved : w.extractLsb' 8 16 ≠ 0) :
    decode w = .error (.reservedField "CRC_ADD") :=
  decode_eq_reservedField (tableRow_mem 8) hop.symm
    (Bool.eq_false_iff.mpr fun hadmits => hreserved (extractLsb'_of_admits rfl hadmits))

end Sys2Proof

namespace Sys2Proof.Machine

/-! The CRC commands' meanings. -/

/-- R157, R151: the seed is 0. -/
theorem exec_crcRestart (s : State) : exec .crcRestart s = .next (answered .ok 0 { s with auxCrc := 0 }) := rfl

/-- R158. -/
theorem exec_crcAdd (s : State) (b : Byte) :
    exec (.crcAdd b) s =
      .next (answered .ok 0 { s with auxCrc := crc16Add s.p.crcPoly s.auxCrc b }) := rfl

/-- R159. -/
theorem exec_crcValue (s : State) :
    exec .crcValue s = .next (answered .ok (s.auxCrc.setWidth 32) s) := rfl

/-- Settles O16: the one word, the refusal of every other with its opcode, and the arm. -/
theorem crcRestartSeedsTheHostAccumulator : Obligations.CrcRestartSeedsTheHostAccumulator :=
  ⟨decode_eq_crcRestart_iff, fun _ => decode_crcRestart_refused, exec_crcRestart⟩

/-- Settles O17: the word and its refusals, the arm, the zero byte, and R158's example by computing it. -/
theorem crcAddFoldsOneByte : Obligations.CrcAddFoldsOneByte :=
  ⟨decode_crcAdd, fun _ => decode_crcAdd_refused, exec_crcAdd, crc16Add_zero_zero, by decide⟩

/-- Settles O18: the one word, the arm, and R159's example by computing it. -/
theorem crcValueReadsTheHostAccumulator : Obligations.CrcValueReadsTheHostAccumulator :=
  ⟨decode_eq_crcValue_iff, exec_crcValue, by decide +kernel⟩

end Sys2Proof.Machine
end

