-- ==== Sys2Proof/Proofs/ReceiverArms.lean ====
section
/-! PROOFS. What RX_BYTE answers in each receiver state and what RX_RESET does (spec/41_receiver.md R178 to R193,
R196): a byte in time that passes the stuffing layer is answered by the arm of the current state. -/

namespace Sys2Proof.Machine

/-! From the command to the arm. -/

/-- R194: no milestone, the data word 0. -/
theorem Events.word_none : Events.none.word = 0 := by decide

/-- R194: FRAME alone is bit 2. -/
theorem Events.word_frame : ({ frame := true } : Events).word = 4 := by decide

/-- R171, R194: a byte in time that passes the stuffing layer is answered by the arm of the current state. -/
theorem exec_rxByte_of_rxArm {s t : State} {b v : Byte} {e : Events} {d : Word} (hin : inTime s)
    (hv : delivered s b = some v) (harm : rxArm v (atArm s) = (t, e)) (hd : e.word = d) :
    exec (.rxByte b) s = .next (answered .ok d t) := by
  simp only [exec, execRxByte, receive_of_inTime b hin, hv, harm, hd]
  rfl

section Arm
variable {s : State} (v : Byte)

theorem rxArm_of_idle (h : s.rx.state = .idle) : rxArm v s = idleArm v s := by simp only [rxArm, h]
theorem rxArm_of_len1 (h : s.rx.state = .len1) : rxArm v s = len1Arm v s := by simp only [rxArm, h]
theorem rxArm_of_len2 (h : s.rx.state = .len2) : rxArm v s = len2Arm v s := by simp only [rxArm, h]
theorem rxArm_of_data0 (h : s.rx.state = .data0) : rxArm v s = data0Arm v s := by simp only [rxArm, h]
theorem rxArm_of_data (h : s.rx.state = .data) : rxArm v s = dataArm v s := by simp only [rxArm, h]
theorem rxArm_of_crc1 (h : s.rx.state = .crc1) : rxArm v s = crc1Arm v s := by simp only [rxArm, h]
theorem rxArm_of_crc2 (h : s.rx.state = .crc2) : rxArm v s = crc2Arm v s := by simp only [rxArm, h]
theorem rxArm_of_error (h : s.rx.state = .error) : rxArm v s = (s, .none) := by simp only [rxArm, h]

end Arm

theorem stuffingActive_of_idle {s : State} (h : s.rx.state = .idle) : stuffingActive s = false := by
  simp [stuffingActive, h]

theorem stuffingActive_of_error {s : State} (h : s.rx.state = .error) : stuffingActive s = false := by
  simp [stuffingActive, h]

/-- R175: a byte that the stuffing layer does not look at reaches the arm unchanged. -/
theorem delivered_of_not_stuffingActive {s : State} (b : Byte) (h : stuffingActive s = false) :
    delivered s b = some b := by
  simp [delivered, h]

/-- R174: where the stuffing layer does not decode, an arm sees the state with the timestamp written. -/
theorem atArm_of_not_stuffingActive {s : State} (h : stuffingActive s = false) :
    atArm s = { s with rx.ts := s.now } := by
  simp [atArm, h]

/-! IDLE and the length bytes. -/

/-- R172, R175: in IDLE, whatever the gap, a byte is answered by R178's arm. -/
theorem exec_rxByte_of_idleArm {s t : State} {b : Byte} (h : s.rx.state = .idle)
    (harm : idleArm b { s with rx.ts := s.now } = (t, .none)) :
    exec (.rxByte b) s = .next (answered .ok 0 t) := by
  have hoff := stuffingActive_of_idle h
  refine exec_rxByte_of_rxArm (.inl h) (delivered_of_not_stuffingActive b hoff) ?_ Events.word_none
  rw [atArm_of_not_stuffingActive hoff, ← harm]
  exact rxArm_of_idle b h

/-- R179: a zero first length byte. -/
theorem len1Arm_zero (s : State) :
    len1Arm 0 s = ({ s with rx := { s.rx with state := .idle, cntJunk := s.rx.cntJunk + 1 } }, .none) := by
  rw [len1Arm, if_pos rfl]
  rfl

/-- R180: any other first length byte, its two forms written out. -/
theorem len1Arm_of_ne_zero {v : Byte} (s : State) (h : v ≠ 0) :
    len1Arm v s =
      ({ s with
          rx.crc := crc16Add s.p.crcPoly s.rx.crc v
          rx.len := if s.p.longLen = true ∧ v.getLsbD 7 = true then (v &&& 0x7F).setWidth 15 else v.setWidth 15
          rx.state := if s.p.longLen = true ∧ v.getLsbD 7 = true then .len2 else .data0 }, .none) := by
  simp only [len1Arm, if_neg h, firstLengthPart, secondLengthByteFollows, Bool.and_eq_true]

/-- Settles O38: R178's four cases, the last two through LEN1's arm on a fresh frame. -/
theorem idleByteStartsAFrameOrIsJunk : Obligations.IdleByteStartsAFrameOrIsJunk := by
  intro s b hidle
  refine ⟨fun hm hb => ?marker, fun hm hb => ?noise, fun hm hb => ?zero, fun hm hb => ?length⟩
  case marker =>
    refine exec_rxByte_of_idleArm hidle ?_
    rw [idleArm_eq, if_pos hm, if_pos hb]
    rfl
  case noise =>
    refine exec_rxByte_of_idleArm hidle ?_
    rw [idleArm_eq, if_pos hm, if_neg hb]
  case zero =>
    refine exec_rxByte_of_idleArm hidle ?_
    rw [idleArm_eq, if_neg (Bool.eq_false_iff.mp hm), hb, len1Arm_zero, ← hidle]
    rfl
  case length =>
    refine exec_rxByte_of_idleArm hidle ?_
    rw [idleArm_eq, if_neg (Bool.eq_false_iff.mp hm), len1Arm_of_ne_zero _ hb]
    rfl

/-- Settles O39: LEN1's arm on zero and on any other byte, and LEN2's. -/
theorem lengthBytesAreRead : Obligations.LengthBytesAreRead := by
  intro s b v hin hv
  refine ⟨fun h hzero => ?junk, fun h hne => ?first, fun h => ?second⟩
  case junk =>
    refine exec_rxByte_of_rxArm hin hv ?_ Events.word_none
    rw [rxArm_of_len1 (s := atArm s) v h, hzero, len1Arm_zero]
    rfl
  case first =>
    refine exec_rxByte_of_rxArm hin hv ?_ Events.word_none
    rw [rxArm_of_len1 (s := atArm s) v h, len1Arm_of_ne_zero _ hne]
    rfl
  case second =>
    refine exec_rxByte_of_rxArm hin hv ?_ Events.word_none
    rw [rxArm_of_len2 (s := atArm s) v h]
    rfl

/-! The payload. -/

/-- Settles O40: DATA0's first case. -/
theorem oversizedLengthEntersError : Obligations.OversizedLengthEntersError := by
  intro s b v hin h hv hlen
  refine exec_rxByte_of_rxArm hin hv ?_ Events.word_none
  rw [rxArm_of_data0 (s := atArm s) v h]
  exact if_pos hlen

/-- R185 to R189: a payload byte, the first one or a later one. -/
theorem rxArm_of_payload {s : State} (v : Byte)
    (h : s.rx.state = .data ∨ s.rx.state = .data0 ∧ s.rx.len ≠ 0 ∧ s.rx.len.toNat ≤ s.p.maxPacket) :
    rxArm v s =
      ({ s with rx := payloadReceived s.p v { s.rx with state := .data }, tx := forwarded s.p v s.tx },
        payloadEvents s.rx) := by
  obtain hdata | ⟨hdata0, hne, hle⟩ := h
  · rw [rxArm_of_data v hdata, dataArm_eq, ← hdata]
  · rw [rxArm_of_data0 v hdata0, data0Arm, if_neg (Nat.not_lt.mpr hle), if_neg hne, dataArm_eq]
    rfl

/-- R187, R188, R194: the data of a payload byte's response. -/
theorem payloadEvents_word (r : Receiver) :
    (payloadEvents r).word =
      (if !r.hdrFired && decide (r.hdrLen.toNat = (r.pos + 1).toNat) then 1 else 0) +
        (if !r.readFired && decide (r.readLen.toNat = (r.pos + 1).toNat) then 2 else 0) := by
  rw [payloadEvents]
  generalize (!r.hdrFired && decide (r.hdrLen.toNat = (r.pos + 1).toNat)) = hdr
  generalize (!r.readFired && decide (r.readLen.toNat = (r.pos + 1).toNat)) = read
  revert hdr read
  decide

/-- R187, R188: a milestone's flag is set once the milestone has fired, now or before. -/
theorem or_not_and_self (fired now : Bool) : (fired || (!fired && now)) = (fired || now) := by
  cases fired <;> rfl

/-- Settles O42: the payload byte's closed form and the word of its milestones. -/
theorem payloadByteIsProcessed : Obligations.PayloadByteIsProcessed := by
  intro s b v hin hv h
  refine exec_rxByte_of_rxArm hin hv ?_ (payloadEvents_word s.rx)
  rw [rxArm_of_payload (s := atArm s) v h]
  simp only [or_not_and_self]
  rfl

/-! The trailer. -/

/-- Settles O43: CRC1's arm. -/
theorem firstTrailerByteIsFolded : Obligations.FirstTrailerByteIsFolded := by
  intro s b v hin h hv
  exact exec_rxByte_of_rxArm hin hv (rxArm_of_crc1 v h) Events.word_none

/-- Settles O44: CRC2's arm on a zero residue and on any other, and the invariant's clause for the trailer. -/
theorem frameIsAcceptedOnZeroResidue : Obligations.FrameIsAcceptedOnZeroResidue := by
  intro s b v hin h hv
  have harm : rxArm v (atArm s) = crc2Arm v (atArm s) := rxArm_of_crc2 v h
  rw [crc2Arm_eq] at harm
  refine ⟨fun hzero => ?accepted, fun hne => ?rejected, fun hinv => hinv.trailerPos (.inr h)⟩
  case accepted => exact exec_rxByte_of_rxArm hin hv (harm.trans (if_pos hzero)) Events.word_frame
  case rejected => exact exec_rxByte_of_rxArm hin hv (harm.trans (if_neg hne)) Events.word_none

/-! One step, and what it can be. -/

/-- R4, R19: a step waits, resets the block, performs a command, or answers BAD_CMD. -/
theorem step_cases {s t : State} (h : step s = .next t) :
    (s.queue = [] ∧ t = s) ∨
    (∃ rest, s.queue = .reset :: rest ∧ t = blockReset rest s) ∨
    ∃ w now rest, s.queue = .command w now :: rest ∧
      ((∃ i, decode w = .ok i ∧ exec i (present now rest s) = .next t) ∨
        (∃ e, decode w = .error e ∧ t = badCmd (present now rest s))) := by
  unfold step at h
  split at h
  next hq => exact .inl ⟨hq, (Host.Outcome.next.inj h).symm⟩
  next rest hq => exact .inr (.inl ⟨rest, hq, (Host.Outcome.next.inj h).symm⟩)
  next w now rest hq =>
    refine .inr (.inr ⟨w, now, rest, hq, ?_⟩)
    split at h
    next i hd => exact .inl ⟨i, hd, h⟩
    next e hd => exact .inr ⟨e, hd, (Host.Outcome.next.inj h).symm⟩

/-! ERROR. -/

/-- R193. -/
theorem exec_rxByte_of_error {s : State} (b : Byte) (h : s.rx.state = .error)
    (hgap : (s.now - s.rx.ts).toNat ≤ s.p.maxDelay.toNat) :
    exec (.rxByte b) s = .next (answered .ok 0 { s with rx.ts := s.now }) := by
  have hoff := stuffingActive_of_error h
  refine exec_rxByte_of_rxArm (.inr hgap) (delivered_of_not_stuffingActive b hoff) ?_ Events.word_none
  rw [atArm_of_not_stuffingActive hoff]
  exact rxArm_of_error b h

/-- R56: no register write reaches `rx_state`. -/
theorem Reg.write?_keeps_rxState {v : Half} {s s' : State} {reg : Reg} (h : reg.write? v s = some s') :
    s'.rx.state = s.rx.state := by
  cases reg <;> cases h <;> rfl

theorem exec_regWrite_keeps_rxState {n : Byte} {v : Half} {s t : State}
    (h : exec (.regWrite n v) s = .next t) : t.rx.state = s.rx.state := by
  cases hreg : Reg.ofNumber n with
  | none => cases (exec_regWrite_of_reserved hreg).symm.trans h; rfl
  | some reg =>
    cases hwrite : reg.write? v s with
    | none =>
      cases (exec_regWrite_of_readOnly hreg ((Reg.write?_eq_none_iff v s reg).mp hwrite)).symm.trans h; rfl
    | some s' =>
      cases (exec_regWrite_of_write hreg hwrite).symm.trans h
      exact (Reg.write?_keeps_rxState hwrite :)

/-- R33: of the commands, only RX_BYTE and RX_RESET move the receiver to another state. -/
theorem exec_keeps_rxState {i : Instr} {s t : State} (h : exec i s = .next t) (hbyte : ∀ b, i ≠ .rxByte b)
    (hreset : i ≠ .rxReset) : t.rx.state = s.rx.state := by
  cases execFrame_of_exec h with
  | receivesByte b => exact absurd rfl (hbyte b)
  | forcesIdle => exact absurd rfl hreset
  | writesRegister n v => exact exec_regWrite_keeps_rxState h
  | writesSenderAtMost | restartsAuxCrc | addsToAuxCrc | writesBuffer => rfl

/-- R193: the commands that leave ERROR. -/
theorem command_of_exec_leaves_error {i : Instr} {s t : State} (h : s.rx.state = .error)
    (hexec : exec i s = .next t) (hleft : t.rx.state ≠ .error) :
    i = .rxReset ∨ ∃ b, i = .rxByte b ∧ s.p.maxDelay.toNat < (s.now - s.rx.ts).toNat := by
  by_contra hcon
  rw [not_or, not_exists] at hcon
  obtain ⟨hreset, hbyte⟩ := hcon
  refine hleft ?_
  by_cases hi : ∃ b, i = .rxByte b
  · obtain ⟨b, rfl⟩ := hi
    have hgap : (s.now - s.rx.ts).toNat ≤ s.p.maxDelay.toNat := by
      simpa using hbyte b
    cases (exec_rxByte_of_error b h hgap).symm.trans hexec
    exact h
  · exact (exec_keeps_rxState hexec (not_exists.mp hi) hreset).trans h

/-- Settles O45: the arm of ERROR, and of all steps those that change `rx_state`. -/
theorem errorAbsorbsBytes : Obligations.ErrorAbsorbsBytes := by
  refine ⟨fun s b => exec_rxByte_of_error b, fun s t h hstep hleft => ?_⟩
  obtain ⟨-, rfl⟩ | ⟨rest, hq, -⟩ | ⟨w, now, rest, hq, ⟨i, hd, hexec⟩ | ⟨e, -, rfl⟩⟩ := step_cases hstep
  case inl => exact absurd h hleft
  case inr.inl => exact .inl ⟨rest, hq⟩
  case inr.inr.inl =>
    refine .inr ⟨w, now, rest, hq, ?_⟩
    obtain rfl | ⟨b, rfl, hlate⟩ := command_of_exec_leaves_error (s := present now rest s) h hexec hleft
    · exact .inl hd
    · exact .inr ⟨b, hd, hlate⟩
  case inr.inr.inr => exact absurd h hleft

/-! RX_RESET. -/

/-- R196: RX_RESET has one word. -/
theorem decode_eq_rxReset_iff (w : Word) : decode w = .ok .rxReset ↔ w = 0x02000000 :=
  decode_eq_ok_iff_eq_pattern (tableRow_mem 2) rfl rfl w

/-- R40, R242: in IDLE a reachable state has no relay open and no escape pending, so there is nothing to abort. -/
theorem abortedFrame_of_idle {s : State} (hinv : Inv s) (h : s.rx.state = .idle) : abortedFrame s = s := by
  have hcopy : s.tx.copy = false := by
    refine Bool.eq_false_iff.mpr fun hc => ?_
    simpa [h] using hinv.relayMidFrame hc
  have hesc : s.rx.esc = false := Bool.eq_false_iff.mpr fun he => (hinv.escPending he).2.1 h
  simp only [abortedFrame, relayEnded, hcopy, Bool.false_eq_true, if_false]
  rw [← h, ← hesc]

/-- Settles O46: the one word, the abort, and the abort of an idle receiver. -/
theorem rxResetForcesIdle : Obligations.RxResetForcesIdle := by
  refine ⟨decode_eq_rxReset_iff, exec_rxReset, fun s hinv h => ?_⟩
  rw [exec_rxReset, abortedFrame_of_idle hinv h]
  rfl

end Sys2Proof.Machine
end

