-- ==== Sys2Proof/Proofs/SendRun.lean ====
section
/-! PROOFS. Runs of issued commands, and the run of the pseudo-command SEND (spec/30_encoding.md R101, R111, R120,
R124; spec/42_transmitter.md R223 to R232). -/

namespace Sys2Proof

open Laws.EncodeKeepsFixedBits (fixedBits Statement)

/-! The words of the commands a round trip issues. -/

/-- R101 to R103: a command's word decodes to the command, where its row reads its operand back. -/
theorem decode_encode_of_row {r : Row} {i : Instr} (hr : r ∈ decodeTable) (hfixed : fixedBits i = (r.pattern, r.mask))
    (hbits : Statement i) (hbuild : r.build (encode i) = i) : decode (encode i) = .ok i := by
  have hadmits : r.admits (encode i) = true := by
    rw [Statement, hfixed] at hbits
    exact beq_iff_eq.mpr hbits
  rw [decode_eq_build_of_admits hr hadmits, hbuild]

/-- R101 format B: the byte of a word. -/
theorem byteField_lowWord (op b : Byte) : byteField (lowWord op (b.setWidth 16)) = b := by
  apply BitVec.eq_of_getLsbD_eq
  intro i hi
  interval_cases i <;> simp [byteField, lowWord, opWord]

/-- R101 formats L and S: the low half of a word. -/
theorem halfField_lowWord (op : Byte) (low : Half) : halfField (lowWord op low) = low := by
  apply BitVec.eq_of_getLsbD_eq
  intro i hi
  interval_cases i <;> simp [halfField, lowWord, opWord]

theorem decode_encode_rxByte (b : Byte) : decode (encode (.rxByte b)) = .ok (.rxByte b) :=
  decode_encode_of_row (tableRow_mem 1) rfl (Laws.EncodeKeepsFixedBits.rxByte b)
    (congrArg Instr.rxByte (byteField_lowWord 0x01 b))

theorem decode_encode_txByte (b : Byte) : decode (encode (.txByte b)) = .ok (.txByte b) :=
  decode_encode_of_row (tableRow_mem 4) rfl (Laws.EncodeKeepsFixedBits.txByte b)
    (congrArg Instr.txByte (byteField_lowWord 0x11 b))

/-- R101 format L: only a length below 2^16 has a word. -/
theorem decode_encode_txStart {n : Word} (h : n.toNat < 2 ^ 16) :
    decode (encode (.txStart n)) = .ok (.txStart n) := by
  have hfield : lengthField (encode (.txStart n)) = n := by
    rw [lengthField, encode, halfField_lowWord]
    apply BitVec.eq_of_toNat_eq
    simp only [BitVec.toNat_setWidth]
    omega
  exact decode_encode_of_row (tableRow_mem 3) rfl (Laws.EncodeKeepsFixedBits.txStart n)
    (congrArg Instr.txStart hfield)

theorem decode_encode_txEnd (f : Bool) : decode (encode (.txEnd f)) = .ok (.txEnd f) := by
  have hfield : flagField (encode (.txEnd f)) = f := by
    revert f
    decide
  exact decode_encode_of_row (tableRow_mem 5) rfl (Laws.EncodeKeepsFixedBits.txEnd f)
    (congrArg Instr.txEnd hfield)

end Sys2Proof

namespace Sys2Proof.Machine

/-! Runs. -/

/-- R4, R91: a step performs the command issued first. -/
theorem step_of_issue {s : State} {now : Word} {i : Instr} {rest : List HostInput}
    (hq : s.queue = issue now i :: rest) (hd : decode (encode i) = .ok i) :
    step s = exec i (present now rest s) := by
  simp only [step, hq, issue, hd]

theorem run_zero (s : State) : Sys2Proof.core.run 0 s = .next s := rfl

theorem run_succ {s t : State} (h : step s = .next t) (k : Nat) :
    Sys2Proof.core.run (k + 1) s = Sys2Proof.core.run k t := by
  have hcore : Sys2Proof.core.step s = .next t := h
  simp only [Host.Core.run, hcore]

/-- A run in two parts. -/
theorem run_add {m : Nat} {s t : State} (h : Sys2Proof.core.run m s = .next t) (n : Nat) :
    Sys2Proof.core.run (m + n) s = Sys2Proof.core.run n t := by
  induction m generalizing s with
  | zero =>
    cases h
    rw [Nat.zero_add]
  | succ m ih =>
    rw [Nat.succ_add]
    simp only [Host.Core.run] at h ⊢
    split at h
    next u hu => simpa only [hu] using ih h
    next => cases h
    next => cases h

/-! The transmitter's commands where they are not refused. -/

/-- R223, R224. -/
theorem exec_txStart_of_closed {s : State} {n : Word} (hopen : s.tx.isOpen = false)
    (hn : n.toNat ≤ s.p.maxPacket) :
    exec (.txStart n) s = .next (answered .ok 0 { s with tx := txBegin s.p (n.setWidth 14) s.tx }) := by
  simp only [exec, execTxStart, hopen, Bool.false_eq_true, if_false, if_neg (Nat.not_lt.mpr hn)]
  rfl

/-- R226. -/
theorem exec_txByte_of_owed {s : State} (b : Byte) (hopen : s.tx.isOpen = true) (hremain : s.tx.remain ≠ 0) :
    exec (.txByte b) s = .next (answered .ok 0 { s with tx := payloadSent s.p b s.tx }) := by
  simp only [exec, execTxByte, hopen, if_true, txPut_eq, if_neg hremain]
  rfl

/-- R232. -/
theorem exec_txEnd_of_open {s : State} (f : Bool) (hopen : s.tx.isOpen = true) (hcopy : s.tx.copy = false) :
    exec (.txEnd f) s = .next (answered .ok 0 { s with tx := closedFrame s.p f s.tx }) := by
  simp only [exec, execTxEnd, hopen, hcopy, Bool.not_true, Bool.false_eq_true, if_false, txClose_eq]
  rfl

/-- R229, R230: a frame that owes nothing and is not broken gets its own CRC as trailer. -/
theorem closedFrame_clean (p : Config.Params) {t : Sender} (h : t.remain = 0) :
    closedFrame p false t =
      { t with
        out := t.out ++ stuffAll p [hiByte t.crc, loByte t.crc]
        isOpen := false
        copy := false } := by
  have hmark : closingMark p false false t.crc = (t.crc, t.crc) := by
    unfold closingMark
    cases p.breakMode <;> rfl
  have hwhole : decide (t.remain ≠ 0) = false := by simp [h]
  have hpadding : List.replicate t.remain.toNat (0 : Byte) = [] := by rw [h]; rfl
  simp only [closedFrame, hwhole, hpadding, crcOf_nil, hmark, List.nil_append]
  rw [h]

/-! SEND. -/

/-- R226, R228: the sender after the payload bytes `xs` are sent on the open frame. -/
def payloadSentAll (p : Config.Params) (xs : List Byte) (t : Sender) : Sender :=
  xs.foldl (fun t v => payloadSent p v t) t

theorem payloadSentAll_eq (p : Config.Params) (xs : List Byte) (t : Sender) :
    payloadSentAll p xs t =
      { t with
        crc := crcOf p.crcPoly t.crc xs
        out := t.out ++ stuffAll p xs
        remain := t.remain - BitVec.ofNat 14 xs.length } := by
  unfold payloadSentAll
  induction xs generalizing t with
  | nil => simp
  | cons x xs ih =>
    rw [List.foldl_cons, ih]
    simp only [payloadSent, crcOf_cons, stuffAll_cons, List.append_assoc, List.length_cons]
    congr 1
    rw [BitVec.ofNat_add]
    bv_omega

/-- A run of TX_BYTEs within the declared length. -/
theorem run_txBytes {now : Word} {rest : List HostInput} {xs : List Byte} {s : State}
    (hq : s.queue = (xs.map Instr.txByte).map (issue now) ++ rest) (hopen : s.tx.isOpen = true)
    (hremain : xs.length ≤ s.tx.remain.toNat) :
    ∃ t, Sys2Proof.core.run xs.length s = .next t ∧ t.inst = s.inst ∧ t.rx = s.rx ∧ t.queue = rest ∧
      t.tx = payloadSentAll s.p xs s.tx := by
  induction xs generalizing s with
  | nil => exact ⟨s, run_zero s, rfl, rfl, hq, rfl⟩
  | cons x xs ih =>
    rw [List.length_cons] at hremain
    have howed : s.tx.remain ≠ 0 := fun h => by simp [h] at hremain
    have hstep := (step_of_issue hq (decode_encode_txByte x)).trans (exec_txByte_of_owed x hopen howed)
    have hleft : (s.tx.remain - 1).toNat = s.tx.remain.toNat - 1 := by bv_omega
    obtain ⟨t, hrun, hinst, hrx, hrest, htx⟩ :=
      ih (s := answered .ok 0 { present now _ s with tx := payloadSent s.p x s.tx }) rfl hopen
        (hleft ▸ Nat.le_sub_one_of_lt hremain)
    exact ⟨t, (run_succ hstep _).trans hrun, hinst, hrx, hrest, htx⟩

/-- R11 (a). -/
theorem maxPacket_le (s : State) : s.p.maxPacket ≤ 16383 := by
  have hwf := s.inst.wf
  simp only [Config.Params.wf, Bool.and_eq_true, decide_eq_true_eq] at hwf
  obtain ⟨⟨⟨⟨-, hmax⟩, -⟩, -⟩, -⟩ := hwf
  exact hmax

/-- R224: the step of an issued TX_START that is not refused. -/
theorem step_txStart {s : State} {n : Nat} {now : Word} {rest : List HostInput}
    (hq : s.queue = issue now (.txStart (BitVec.ofNat 32 n)) :: rest) (hopen : s.tx.isOpen = false)
    (hn : n ≤ s.p.maxPacket) :
    ∃ t, step s = .next t ∧ t.inst = s.inst ∧ t.rx = s.rx ∧ t.queue = rest ∧
      t.tx = txBegin s.p (BitVec.ofNat 14 n) s.tx := by
  have hmax := maxPacket_le s
  have htoNat : (BitVec.ofNat 32 n).toNat = n := by
    rw [BitVec.toNat_ofNat]
    omega
  have hwidth : (BitVec.ofNat 32 n).setWidth 14 = BitVec.ofNat 14 n := by
    apply BitVec.eq_of_toNat_eq
    rw [BitVec.toNat_setWidth, htoNat, BitVec.toNat_ofNat]
  have hstep := (step_of_issue hq (decode_encode_txStart (by omega))).trans
    (exec_txStart_of_closed hopen (htoNat.symm ▸ hn))
  exact ⟨_, hstep, rfl, rfl, rfl, congrArg (txBegin s.p · s.tx) hwidth⟩

/-- R232: the step of an issued TX_END that is not refused. -/
theorem step_txEnd {s : State} {f : Bool} {now : Word} {rest : List HostInput}
    (hq : s.queue = issue now (.txEnd f) :: rest) (hopen : s.tx.isOpen = true) (hcopy : s.tx.copy = false) :
    ∃ t, step s = .next t ∧ t.inst = s.inst ∧ t.rx = s.rx ∧ t.queue = rest ∧ t.lastErr = .ok ∧
      t.tx = closedFrame s.p f s.tx :=
  ⟨_, (step_of_issue hq (decode_encode_txEnd f)).trans (exec_txEnd_of_open f hopen hcopy),
    rfl, rfl, rfl, rfl, rfl⟩

/-- R120, R124: the sender after a complete clean frame. -/
theorem closedFrame_of_payloadSentAll (p : Config.Params) (payload : List Byte) (t : Sender) :
    closedFrame p false (payloadSentAll p payload (txBegin p (BitVec.ofNat 14 payload.length) t)) =
      { out := t.out ++ wireFrame p payload
        crc := crcOf p.crcPoly crcSeed (lengthBytes (BitVec.ofNat 14 payload.length) ++ payload)
        remain := 0, isOpen := false, copy := false, ovr := false } := by
  rw [payloadSentAll_eq, txBegin_eq, closedFrame_clean p (BitVec.sub_self _)]
  simp only [wireFrame, crcOf_append, stuffAll_append, List.append_assoc, BitVec.sub_self]
  rfl

/-- R111, R120, R124: what SEND leaves: its wire frame put out, the sender closed, the receiver as it was. -/
theorem run_send {s : State} {payload : List Byte} {now : Word} {rest : List HostInput}
    (hopen : s.tx.isOpen = false) (hlen : payload.length ≤ s.p.maxPacket)
    (hq : s.queue = (sendCommands payload false).map (issue now) ++ rest) :
    ∃ t, Sys2Proof.core.run (payload.length + 2) s = .next t ∧ t.inst = s.inst ∧ t.rx = s.rx ∧
      t.queue = rest ∧ t.lastErr = .ok ∧
      t.tx =
        { out := s.tx.out ++ wireFrame s.p payload
          crc := crcOf s.p.crcPoly crcSeed (lengthBytes (BitVec.ofNat 14 payload.length) ++ payload)
          remain := 0, isOpen := false, copy := false, ovr := false } := by
  have hqueue : s.queue = issue now (.txStart (BitVec.ofNat 32 payload.length)) ::
      ((payload.map Instr.txByte).map (issue now) ++ issue now (.txEnd false) :: rest) := by
    simp [hq, sendCommands]
  obtain ⟨a, hstart, hainst, harx, haq, hatx⟩ := step_txStart hqueue hopen hlen
  have hmax := maxPacket_le s
  have hp : a.p = s.p := congrArg Config.Instance.params hainst
  have hbegun := hatx.trans (txBegin_eq s.p (BitVec.ofNat 14 payload.length) s.tx)
  have howed : payload.length ≤ a.tx.remain.toNat := by
    rw [hbegun, BitVec.toNat_ofNat]
    omega
  obtain ⟨b, hbytes, hbinst, hbrx, hbq, hbtx⟩ := run_txBytes haq (by rw [hbegun]) howed
  have hsent := hbtx.trans (payloadSentAll_eq a.p payload a.tx)
  obtain ⟨c, hend, hcinst, hcrx, hcq, hcerr, hctx⟩ :=
    step_txEnd hbq (by rw [hsent, hbegun]) (by rw [hsent, hbegun])
  refine ⟨c, ?_, hcinst.trans (hbinst.trans hainst), hcrx.trans (hbrx.trans harx), hcq, hcerr, ?_⟩
  · rw [run_succ hstart, run_add hbytes 1, run_succ hend, run_zero]
  · have hbp : b.p = s.p := (congrArg Config.Instance.params hbinst).trans hp
    rw [hctx, hbp, hbtx, hp, hatx, closedFrame_of_payloadSentAll]

end Sys2Proof.Machine
end

