-- ==== Sys2Proof/Proofs/FrameTransport.lean ====
section
/-! PROOFS. How the bytes of a frame reach the receiver's arms (spec/30_encoding.md R126; spec/41_receiver.md R171 to
R175): stuffed bytes that arrive in time act as the arms act on the bytes themselves, and report FRAME no earlier. -/

namespace Sys2Proof.Machine

/-! Runs that do not report FRAME, and runs that report it with their last command. -/

/-- R194: FRAME is reported by the milestone. -/
theorem Events.word_getLsbD_two (e : Events) : e.word.getLsbD 2 = e.frame := by
  obtain ⟨hdr, read, frame⟩ := e
  revert hdr read frame
  decide

/-- A run of `n` commands, none of which reports FRAME. -/
def QuietlyReaches (n : Nat) (s t : State) : Prop :=
  Sys2Proof.core.run n s = .next t ∧
    ∀ k u, 0 < k → k ≤ n → Sys2Proof.core.run k s = .next u → reportsFrame u = false

/-- A run of `n` commands of which the last one, and no other, reports FRAME. -/
def ReportsFrameLast (n : Nat) (s t : State) : Prop :=
  Sys2Proof.core.run n s = .next t ∧ reportsFrame t = true ∧
    ∀ k u, 0 < k → k < n → Sys2Proof.core.run k s = .next u → reportsFrame u = false

theorem QuietlyReaches.refl (s : State) : QuietlyReaches 0 s s :=
  ⟨run_zero s, fun _ _ hpos hle => absurd hpos (Nat.not_lt.mpr hle)⟩

theorem QuietlyReaches.of_step {s t : State} (h : step s = .next t) (hquiet : reportsFrame t = false) :
    QuietlyReaches 1 s t := by
  refine ⟨run_succ h 0, fun k u hpos hle hrun => ?_⟩
  obtain rfl : k = 1 := by omega
  cases (run_succ h 0).symm.trans hrun
  exact hquiet

theorem ReportsFrameLast.of_step {s t : State} (h : step s = .next t) (hframe : reportsFrame t = true) :
    ReportsFrameLast 1 s t :=
  ⟨run_succ h 0, hframe, fun _ _ hpos hlt => absurd hpos (Nat.not_lt.mpr (Nat.le_of_lt_succ hlt))⟩

/-- What a command after a quiet run reports, by its place in the rest of the run. -/
theorem QuietlyReaches.reportsFrame_eq_false {m k : Nat} {s t u : State} (h : QuietlyReaches m s t) (hpos : 0 < k)
    (hrun : Sys2Proof.core.run k s = .next u)
    (hrest : ∀ j, 0 < j → k = m + j → Sys2Proof.core.run j t = .next u → reportsFrame u = false) :
    reportsFrame u = false := by
  obtain hle | hlt := le_or_gt k m
  · exact h.2 k u hpos hle hrun
  · obtain ⟨j, rfl⟩ := Nat.exists_eq_add_of_lt hlt
    exact hrest (j + 1) j.succ_pos rfl ((run_add h.1 (j + 1)).symm.trans hrun)

theorem QuietlyReaches.trans {m n : Nat} {s t u : State} (h : QuietlyReaches m s t) (h' : QuietlyReaches n t u) :
    QuietlyReaches (m + n) s u := by
  refine ⟨(run_add h.1 n).trans h'.1, fun k v hpos hle hrun => ?_⟩
  exact h.reportsFrame_eq_false hpos hrun fun j hj hk => h'.2 j v hj (by omega)

theorem QuietlyReaches.then_reportsFrameLast {m n : Nat} {s t u : State} (h : QuietlyReaches m s t)
    (h' : ReportsFrameLast n t u) : ReportsFrameLast (m + n) s u := by
  obtain ⟨hrun', hframe, hquiet⟩ := h'
  refine ⟨(run_add h.1 n).trans hrun', hframe, fun k v hpos hlt hrun => ?_⟩
  exact h.reportsFrame_eq_false hpos hrun fun j hj hk => hquiet j v hj (by omega)

/-- Runs from states with the same first step. -/
theorem run_eq_of_step_eq {s s' : State} (h : step s = step s') {k : Nat} (hpos : 0 < k) :
    Sys2Proof.core.run k s = Sys2Proof.core.run k s' := by
  obtain ⟨k, rfl⟩ := Nat.exists_eq_succ_of_ne_zero hpos.ne'
  have hcore : Sys2Proof.core.step s = Sys2Proof.core.step s' := h
  simp only [Host.Core.run, hcore]

theorem ReportsFrameLast.of_step_eq {n : Nat} {s s' t : State} (h : ReportsFrameLast n s' t)
    (hstep : step s = step s') (hpos : 0 < n) : ReportsFrameLast n s t := by
  obtain ⟨hrun, hframe, hquiet⟩ := h
  refine ⟨(run_eq_of_step_eq hstep hpos).trans hrun, hframe, fun k u hk hlt hrun' => ?_⟩
  exact hquiet k u hk hlt ((run_eq_of_step_eq hstep hk).symm.trans hrun')

/-! What the arms see of a state. -/

/-- The parameters, receiver and sender of `q`, at the ports and with the timestamp of `o`. -/
def atPortsOf (o q : State) : State :=
  { o with inst := q.inst, rx := { q.rx with ts := o.rx.ts }, tx := q.tx }

section Arms
variable (v : Byte) (o q : State)

theorem len1Arm_atPortsOf : len1Arm v (atPortsOf o q) = (atPortsOf o (len1Arm v q).1, (len1Arm v q).2) := by
  by_cases h : v = 0
  · simp only [len1Arm, if_pos h]
    rfl
  · simp only [len1Arm, if_neg h]
    rfl

theorem dataArm_atPortsOf : dataArm v (atPortsOf o q) = (atPortsOf o (dataArm v q).1, (dataArm v q).2) := by
  rw [dataArm_eq, dataArm_eq]
  rfl

theorem data0Arm_atPortsOf : data0Arm v (atPortsOf o q) = (atPortsOf o (data0Arm v q).1, (data0Arm v q).2) := by
  have hlen : (atPortsOf o q).rx.len = q.rx.len := rfl
  have hp : (atPortsOf o q).p = q.p := rfl
  unfold data0Arm
  rw [hlen, hp]
  split
  · rfl
  · split
    · rfl
    · exact dataArm_atPortsOf v o { q with rx.state := .data }

theorem crc2Arm_atPortsOf : crc2Arm v (atPortsOf o q) = (atPortsOf o (crc2Arm v q).1, (crc2Arm v q).2) := by
  have hcrc : (atPortsOf o q).rx.crc = q.rx.crc := rfl
  have hp : (atPortsOf o q).p = q.p := rfl
  rw [crc2Arm_eq, crc2Arm_eq, hcrc, hp]
  split
  · rfl
  · rfl

/-- R171: inside a frame the arms neither see nor change a port or the timestamp. -/
theorem rxArm_atPortsOf (h : q.rx.state ≠ .idle) :
    rxArm v (atPortsOf o q) = (atPortsOf o (rxArm v q).1, (rxArm v q).2) := by
  cases hstate : q.rx.state
  case idle => exact absurd hstate h
  case len1 => rw [rxArm_of_len1 v hstate, rxArm_of_len1 (s := atPortsOf o q) v hstate, len1Arm_atPortsOf]
  case len2 => rw [rxArm_of_len2 v hstate, rxArm_of_len2 (s := atPortsOf o q) v hstate]; rfl
  case data0 => rw [rxArm_of_data0 v hstate, rxArm_of_data0 (s := atPortsOf o q) v hstate, data0Arm_atPortsOf]
  case data => rw [rxArm_of_data v hstate, rxArm_of_data (s := atPortsOf o q) v hstate, dataArm_atPortsOf]
  case crc1 => rw [rxArm_of_crc1 v hstate, rxArm_of_crc1 (s := atPortsOf o q) v hstate]; rfl
  case crc2 => rw [rxArm_of_crc2 v hstate, rxArm_of_crc2 (s := atPortsOf o q) v hstate, crc2Arm_atPortsOf]
  case error => rw [rxArm_of_error v hstate, rxArm_of_error (s := atPortsOf o q) v hstate]

end Arms

/-- No arm changes the parameters. -/
theorem rxArm_inst (v : Byte) (q : State) : (rxArm v q).1.inst = q.inst := by
  obtain ⟨r, x, h⟩ := rxArm_frame v q
  rw [h]

/-! One byte on the wire. -/

theorem gapsWithin_cons_cons (maxDelay : Word) (a b : Byte × Word) (rest : List (Byte × Word)) :
    gapsWithin maxDelay (a :: b :: rest) ↔
      (b.2 - a.2).toNat ≤ maxDelay.toNat ∧ gapsWithin maxDelay (b :: rest) := Iff.rfl

/-- Only the clock value of the first arrival counts. -/
theorem gapsWithin_head_congr (maxDelay : Word) (x y : Byte) (now : Word) (rest : List (Byte × Word)) :
    gapsWithin maxDelay ((x, now) :: rest) ↔ gapsWithin maxDelay ((y, now) :: rest) := by
  cases rest <;> exact Iff.rfl

/-- The state `s` stands where the frame has come to `q`, and the arrivals are still to come, each in time. -/
structure Awaits (q s : State) (arrivals : List (Byte × Word)) : Prop where
  atPorts : ∃ o, s = atPortsOf o q
  queue : s.queue = feed arrivals
  gaps : gapsWithin q.p.maxDelay ((0, s.rx.ts) :: arrivals)

/-- Inside a frame, where the stuffing layer decodes, with no escape pending. -/
structure InFrame (q : State) : Prop where
  notIdle : q.rx.state ≠ .idle
  notError : q.rx.state ≠ .error
  noEscape : q.rx.esc = false

/-- The step of an issued RX_BYTE. -/
theorem step_of_feed {s : State} {b : Byte} {now : Word} {rest : List (Byte × Word)}
    (hq : s.queue = feed ((b, now) :: rest)) : step s = exec (.rxByte b) (present now (feed rest) s) :=
  step_of_issue hq (decode_encode_rxByte b)

/-- R175: a pending escape is used up by the byte it precedes. -/
def escapeUsed (q : State) : State := { q with rx.esc := q.rx.esc && !stuffingActive q }

theorem escapeUsed_of_noEscape {q : State} (h : q.rx.esc = false) : escapeUsed q = q := by
  rw [escapeUsed, h, Bool.false_and, ← h]

theorem escapeUsed_of_pending {q : State} (h : q.rx.esc = false) (hactive : stuffingActive q = true) :
    escapeUsed { q with rx.esc := true } = q := by
  have hactive' : stuffingActive { q with rx.esc := true } = true := hactive
  rw [escapeUsed, hactive', Bool.not_true, Bool.and_false, ← h]

/-- R174, R175: what the arm of a byte that just arrived sees. -/
theorem atArm_atPortsOf (now : Word) (rest : List HostInput) (o q : State) :
    atArm (present now rest (atPortsOf o q)) =
      atPortsOf { o with rx.ts := now, now := now, queue := rest } (escapeUsed q) := rfl

theorem answered_atPortsOf (e : ErrCode) (d : Word) (o q : State) :
    answered e d (atPortsOf o q) = atPortsOf (answered e d o) q := rfl

/-- R171, R174: a byte that is delivered acts as its arm does. -/
theorem Awaits.step_of_delivered {q s : State} {b v : Byte} {now : Word} {rest : List (Byte × Word)}
    (h : Awaits q s ((b, now) :: rest)) (hidle : q.rx.state ≠ .idle) (hv : delivered q b = some v) :
    ∃ t, step s = .next t ∧ reportsFrame t = (rxArm v (escapeUsed q)).2.frame ∧
      Awaits (rxArm v (escapeUsed q)).1 t rest := by
  obtain ⟨⟨o, rfl⟩, hqueue, hgaps⟩ := h
  obtain ⟨hgap, hgaps⟩ := (gapsWithin_cons_cons _ _ _ _).mp hgaps
  have harm := rxArm_atPortsOf v { o with rx.ts := now, now := now, queue := feed rest } (escapeUsed q) hidle
  rw [← atArm_atPortsOf] at harm
  have hstep := (step_of_feed hqueue).trans
    (exec_rxByte_of_rxArm (s := present now (feed rest) (atPortsOf o q)) (.inr hgap) hv harm rfl)
  have hp : (rxArm v (escapeUsed q)).1.p = q.p := congrArg Config.Instance.params (rxArm_inst v (escapeUsed q))
  refine ⟨_, hstep, Events.word_getLsbD_two _, ⟨⟨_, answered_atPortsOf _ _ _ _⟩, rfl, ?_⟩⟩
  rw [hp]
  exact (gapsWithin_head_congr _ _ _ _ _).mp hgaps

/-- R175: an escape byte inside a stuffed frame is remembered. -/
theorem exec_rxByte_of_escape {s : State} {b : Byte} (hin : inTime s) (hv : delivered s b = none)
    (hne : b ≠ s.p.marker) :
    exec (.rxByte b) s = .next (answered .ok 0 { s with rx.ts := s.now, rx.esc := true }) := by
  simp only [exec, execRxByte, receive_of_inTime b hin, hv, if_neg hne, Events.word_none]
  rfl

theorem Awaits.step_of_escape {q s : State} {b : Byte} {now : Word} {rest : List (Byte × Word)}
    (h : Awaits q s ((b, now) :: rest)) (hv : delivered q b = none) (hne : b ≠ q.p.marker) :
    ∃ t, step s = .next t ∧ reportsFrame t = false ∧ Awaits { q with rx.esc := true } t rest := by
  obtain ⟨⟨o, rfl⟩, hqueue, hgaps⟩ := h
  obtain ⟨hgap, hgaps⟩ := (gapsWithin_cons_cons _ _ _ _).mp hgaps
  have hstep : step (atPortsOf o q) = .next (atPortsOf
      (answered .ok 0 { o with rx.ts := now, now := now, queue := feed rest }) { q with rx.esc := true }) :=
    (step_of_feed hqueue).trans
      (exec_rxByte_of_escape (s := present now (feed rest) (atPortsOf o q)) (.inr hgap) hv hne)
  exact ⟨_, hstep, by rfl, ⟨⟨_, rfl⟩, rfl, (gapsWithin_head_congr _ _ _ _ _).mp hgaps⟩⟩

/-! One body byte, stuffed where it must be. -/

/-- R11 (c): in the stuffing mode marker and escape byte have their top bit set and differ. -/
theorem stuffing_params (s : State) (h : s.p.stuffEn = true) :
    s.p.markerEn = true ∧ s.p.marker.getLsbD 7 = true ∧ s.p.esc.getLsbD 7 = true ∧ s.p.esc ≠ s.p.marker := by
  have hwf := s.inst.wf
  simp only [Config.Params.wf, h, Bool.not_true, Bool.false_or, Bool.and_eq_true, bne_iff_ne] at hwf
  obtain ⟨⟨-, ⟨⟨hmarkerEn, hmarker⟩, hesc⟩, hne⟩, -⟩ := hwf
  exact ⟨hmarkerEn, hmarker, hesc, hne⟩

/-- R126, R175: inside a frame a byte that needs no escape is delivered as it is. -/
theorem delivered_of_plain {q : State} {x : Byte} (hesc : q.rx.esc = false)
    (hplain : ¬ (q.p.stuffEn = true ∧ (x = q.p.marker ∨ x = q.p.esc))) : delivered q x = some x := by
  unfold delivered
  split
  next hactive =>
    have hstuff : q.p.stuffEn = true := by
      simp only [stuffingActive, Bool.and_eq_true] at hactive
      exact hactive.1.1
    obtain ⟨hmarker, hescape⟩ : x ≠ q.p.marker ∧ x ≠ q.p.esc := by
      simpa [hstuff] using hplain
    simp [hmarker, hescape, hesc]
  next => rfl

/-- R175: the escape byte of a stuffed byte is taken by the stuffing layer. -/
theorem delivered_escape {q : State} (hactive : stuffingActive q = true) (hesc : q.rx.esc = false)
    (hne : q.p.esc ≠ q.p.marker) : delivered q q.p.esc = none := by
  simp [delivered, hactive, hesc, hne]

/-- R126: a byte with its top bit set is restored from the byte sent after the escape byte. -/
theorem clearTop_or_top {x : Byte} (h : x.getLsbD 7 = true) : x &&& 0x7F ||| 0x80 = x := by
  revert h x
  decide

/-- R126: what is sent after the escape byte has its top bit clear. -/
theorem clearTop_ne {x y : Byte} (h : y.getLsbD 7 = true) : x &&& 0x7F ≠ y := by
  rintro rfl
  simp at h

/-- R175: the byte after an escape byte is delivered restored. -/
theorem delivered_restored {q : State} {x : Byte} (hactive : stuffingActive q = true) (hesc : q.rx.esc = true)
    (hmarker : q.p.marker.getLsbD 7 = true) (hx : x.getLsbD 7 = true) :
    delivered q (x &&& 0x7F) = some x := by
  simp only [delivered, hactive, hesc, if_true, if_neg (clearTop_ne hmarker), clearTop_or_top hx]

theorem InFrame.stuffingActive_eq {q : State} (h : InFrame q) : stuffingActive q = q.p.stuffEn := by
  simp [stuffingActive, h.notIdle, h.notError]

/-- R126, R171, R175: one body byte, as one byte on the wire or as two, acts as the arm does on the byte itself,
with the last of its arrivals. -/
theorem Awaits.reach_of_stuffed {q s : State} {x : Byte} {now rest : List (Byte × Word)}
    (h : Awaits q s (now ++ rest)) (hin : InFrame q) (hbytes : now.map Prod.fst = stuffed q.p x) :
    ∃ m u t, now.length = m + 1 ∧ QuietlyReaches m s u ∧ step u = .next t ∧
      reportsFrame t = (rxArm x q).2.frame ∧ Awaits (rxArm x q).1 t rest := by
  by_cases hneeds : q.p.stuffEn = true ∧ (x = q.p.marker ∨ x = q.p.esc)
  case neg =>
    rw [stuffed, if_neg hneeds, List.map_eq_singleton_iff] at hbytes
    obtain ⟨⟨b, clock⟩, rfl, rfl⟩ := hbytes
    have hstep := h.step_of_delivered hin.notIdle (delivered_of_plain hin.noEscape hneeds)
    rw [escapeUsed_of_noEscape hin.noEscape] at hstep
    obtain ⟨t, hstep⟩ := hstep
    exact ⟨0, s, t, rfl, .refl s, hstep⟩
  case pos =>
    obtain ⟨hstuff, hx⟩ := hneeds
    obtain ⟨-, hmarker, hesc, hne⟩ := stuffing_params q hstuff
    have hactive : stuffingActive q = true := hin.stuffingActive_eq.trans hstuff
    have htop : x.getLsbD 7 = true := by
      obtain rfl | rfl := hx
      · exact hmarker
      · exact hesc
    rw [stuffed, if_pos ⟨hstuff, hx⟩] at hbytes
    obtain ⟨⟨b, clock⟩, tail, rfl, rfl, htail⟩ := List.map_eq_cons_iff.mp hbytes
    obtain ⟨⟨b', clock'⟩, rfl, rfl⟩ := List.map_eq_singleton_iff.mp htail
    obtain ⟨u, hescape, hquiet, hu⟩ := h.step_of_escape (delivered_escape hactive hin.noEscape hne) hne
    have hstep := hu.step_of_delivered hin.notIdle (delivered_restored hactive rfl hmarker htop)
    rw [escapeUsed_of_pending hin.noEscape hactive] at hstep
    obtain ⟨t, hstep⟩ := hstep
    exact ⟨1, u, t, rfl, .of_step hescape hquiet, hstep⟩

/-! A sequence of body bytes. -/

/-- Body bytes that the arms take one after the other inside a frame, none of them reporting FRAME. -/
inductive TakesBytes : State → List Byte → State → Prop
  | nil (q : State) : TakesBytes q [] q
  | cons {q q' : State} {x : Byte} {xs : List Byte} (hin : InFrame q) (hquiet : (rxArm x q).2.frame = false)
    (hrest : TakesBytes (rxArm x q).1 xs q') : TakesBytes q (x :: xs) q'

theorem TakesBytes.single {q : State} {x : Byte} (hin : InFrame q) (hquiet : (rxArm x q).2.frame = false) :
    TakesBytes q [x] (rxArm x q).1 := .cons hin hquiet (.nil _)

theorem TakesBytes.append {q q' q'' : State} {xs ys : List Byte} (h : TakesBytes q xs q')
    (h' : TakesBytes q' ys q'') : TakesBytes q (xs ++ ys) q'' := by
  induction h with
  | nil => exact h'
  | cons hin hquiet _ ih => exact .cons hin hquiet (ih h')

theorem TakesBytes.inst {q q' : State} {xs : List Byte} (h : TakesBytes q xs q') : q'.inst = q.inst := by
  induction h with
  | nil => rfl
  | cons _ _ _ ih => exact ih.trans (rxArm_inst _ _)

/-- R126: body bytes on the wire, stuffed, act as the arms do on the bytes themselves. -/
theorem Awaits.reach_of_takesBytes {q q' : State} {xs : List Byte} (hxs : TakesBytes q xs q') :
    ∀ {s : State} {now rest : List (Byte × Word)}, Awaits q s (now ++ rest) →
      now.map Prod.fst = stuffAll q.p xs → ∃ t, QuietlyReaches now.length s t ∧ Awaits q' t rest := by
  induction hxs with
  | nil q =>
    intro s now rest h hbytes
    obtain rfl := List.map_eq_nil_iff.mp hbytes
    exact ⟨s, .refl s, h⟩
  | @cons q q' x xs hin hquiet _ ih =>
    intro s now rest h hbytes
    obtain ⟨first, more, rfl, hfirst, hmore⟩ := List.map_eq_append_iff.mp hbytes
    rw [List.append_assoc] at h
    obtain ⟨m, u, t, hlen, hreach, hstep, hframe, ht⟩ := h.reach_of_stuffed hin hfirst
    have hp : (rxArm x q).1.p = q.p := congrArg Config.Instance.params (rxArm_inst x q)
    obtain ⟨t', hreach', ht'⟩ := ih ht (hp ▸ hmore)
    refine ⟨t', ?_, ht'⟩
    rw [List.length_append, hlen]
    exact (hreach.trans (.of_step hstep (hframe.trans hquiet))).trans hreach'

end Sys2Proof.Machine
end

