-- ==== Sys2Proof/Proofs/RoundTrip.lean ====
section
/-! PROOFS. A wire frame, from IDLE to its FRAME (spec/41_receiver.md R178 to R192, R198; spec/40_crc.md R154): the
length field, the payload, the trailer, and with them the round trip. -/

namespace Sys2Proof.Machine

/-! The trailer's residue. -/

/-- R150: folding an accumulator's own high byte into it feeds no polynomial back. -/
theorem crc16Add_hiByte (poly c : Half) : crc16Add poly c (hiByte c) = c <<< 8 := by
  have hhigh : c.extractLsb' 12 4 = (hiByte c).extractLsb' 4 4 := by
    apply BitVec.eq_of_getLsbD_eq
    intro i hi
    interval_cases i <;> simp [hiByte]
  have hlow : (c <<< 4).extractLsb' 12 4 = (hiByte c).extractLsb' 0 4 := by
    apply BitVec.eq_of_getLsbD_eq
    intro i hi
    interval_cases i <;> simp [hiByte]
  rw [crc16Add_eq_nibbleTurns, nibbleTurns_of_top_nibble_eq poly hhigh, nibbleTurns_of_top_nibble_eq poly hlow,
    ← BitVec.shiftLeft_add]

/-- R154: the second trailer byte leaves the residue 0. -/
theorem crc16Add_own_trailer (poly c : Half) : crc16Add poly (crc16Add poly c (hiByte c)) (loByte c) = 0 := by
  have hnext : loByte c = hiByte (c <<< 8) := by
    apply BitVec.eq_of_getLsbD_eq
    intro i hi
    interval_cases i <;> simp [hiByte, loByte]
  have hgone : c <<< 8 <<< 8 = 0 := by
    rw [← BitVec.shiftLeft_add]
    exact BitVec.shiftLeft_eq_zero (Nat.le_refl 16)
  rw [crc16Add_hiByte, hnext, crc16Add_hiByte, hgone]

/-! The length field. -/

/-- R176: the state at the start of a frame, in LEN1. -/
def frameStarted (s : State) : State := { s with rx := freshFrame s.rx }

/-- R180, R182: the state after the length field of `n`, before the byte that DATA0 judges it with. -/
def lengthRead (n : BitVec 14) (s : State) : State :=
  { s with rx :=
    { freshFrame s.rx with
      state := .data0, len := n.setWidth 15, crc := crcOf s.p.crcPoly 0 (lengthBytes n) } }

theorem frameStarted_inFrame (s : State) : InFrame (frameStarted s) := ⟨nofun, nofun, rfl⟩

/-- R180: a first length byte that is not zero. -/
theorem rxArm_first_length (s : State) {v : Byte} (h : v ≠ 0) :
    rxArm v (frameStarted s) =
      ({ s with rx :=
          { freshFrame s.rx with
            crc := crc16Add s.p.crcPoly 0 v
            len := firstLengthPart s.p v
            state := if secondLengthByteFollows s.p v then .len2 else .data0 } }, .none) := by
  rw [rxArm_of_len1 (s := frameStarted s) v rfl]
  exact if_neg h

/-- R121, R180: a length up to 127 is read from its one byte. -/
theorem takes_short_length (s : State) {n : BitVec 14} (hpos : 1 ≤ n.toNat) (hshort : n.toNat ≤ 127) :
    TakesBytes (frameStarted s) (lengthBytes n) (lengthRead n s) := by
  have hbytes : lengthBytes n = [n.setWidth 8] := if_pos hshort
  have hne : n.setWidth 8 ≠ 0 := by bv_omega
  have htop : (n.setWidth 8).getLsbD 7 = false := by
    rw [BitVec.getLsbD_setWidth, BitVec.getLsbD]
    simpa using Nat.testBit_lt_two_pow (Nat.lt_succ_of_le hshort)
  have hone : secondLengthByteFollows s.p (n.setWidth 8) = false := by
    rw [secondLengthByteFollows, htop, Bool.and_false]
  have hwidth : (n.setWidth 8).setWidth 15 = n.setWidth 15 := by bv_omega
  have harm := rxArm_first_length s hne
  simp only [firstLengthPart, hone, Bool.false_eq_true, if_false, hwidth] at harm
  have htakes := TakesBytes.single (x := n.setWidth 8) (frameStarted_inFrame s) (by rw [harm]; rfl)
  rw [hbytes]
  rw [harm] at htakes
  rw [lengthRead, hbytes]
  exact htakes

/-- R121, R123: the two bytes of a long length put together. -/
theorem withSecondLengthPart_of_long (n : BitVec 14) :
    withSecondLengthPart (((n.setWidth 8 &&& 0x7F ||| 0x80) &&& 0x7F : Byte).setWidth 15) ((n >>> 7).setWidth 8) =
      n.setWidth 15 := by
  apply BitVec.eq_of_getLsbD_eq
  intro i hi
  interval_cases i <;> simp [withSecondLengthPart]

/-- R121, R180, R182: a longer length is read from its two bytes. -/
theorem takes_long_length (s : State) {n : BitVec 14} (hlong : 127 < n.toNat) (hmax : n.toNat ≤ s.p.maxPacket) :
    TakesBytes (frameStarted s) (lengthBytes n) (lengthRead n s) := by
  have hbytes : lengthBytes n = [n.setWidth 8 &&& 0x7F ||| 0x80, (n >>> 7).setWidth 8] :=
    if_neg (Nat.not_le.mpr hlong)
  generalize hfirst : (n.setWidth 8 &&& 0x7F ||| 0x80 : Byte) = first at hbytes
  generalize hsecond : ((n >>> 7).setWidth 8 : Byte) = second at hbytes
  have htop : first.getLsbD 7 = true := by
    rw [← hfirst]
    simp
  have hne : first ≠ 0 := by
    rintro rfl
    simp at htop
  have hlongLen : s.p.longLen = true := decide_eq_true (Nat.lt_of_lt_of_le hlong hmax)
  have htwo : secondLengthByteFollows s.p first = true := by
    rw [secondLengthByteFollows, hlongLen, htop]
    rfl
  have hlen : withSecondLengthPart ((first &&& 0x7F).setWidth 15) second = n.setWidth 15 := by
    rw [← hfirst, ← hsecond]
    exact withSecondLengthPart_of_long n
  have harm := rxArm_first_length s hne
  simp only [firstLengthPart, htwo, if_true] at harm
  have hin : InFrame (rxArm first (frameStarted s)).1 := by
    rw [harm]
    exact ⟨nofun, nofun, rfl⟩
  have htakes := TakesBytes.cons (x := first) (frameStarted_inFrame s) (by rw [harm]; rfl)
    (.single (x := second) hin (by rw [harm, rxArm_of_len2 _ rfl]; rfl))
  rw [harm, rxArm_of_len2 _ rfl] at htakes
  simp only [len2Arm, hlen] at htakes
  rw [hbytes, lengthRead, hbytes]
  exact htakes

/-- R121, R123: the length field of a legal length is read as that length. -/
theorem takes_length (s : State) {n : BitVec 14} (hpos : 1 ≤ n.toNat) (hmax : n.toNat ≤ s.p.maxPacket) :
    TakesBytes (frameStarted s) (lengthBytes n) (lengthRead n s) := by
  obtain hshort | hlong := le_or_gt n.toNat 127
  · exact takes_short_length s hpos hshort
  · exact takes_long_length s hlong hmax

/-! The payload. -/

/-- The receiver between two payload bytes of a frame that started in `start`: `got` has arrived, `due` is still to
come. -/
structure InPayload (start : State) (got due : List Byte) (q : State) : Prop where
  inst : q.inst = start.inst
  state : q.rx.state = if due = [] then .crc1 else if got = [] then .data0 else .data
  len : q.rx.len.toNat = got.length + due.length
  pos : q.rx.pos.toNat = got.length
  crc : q.rx.crc =
    crcOf start.p.crcPoly 0 (lengthBytes (BitVec.ofNat 14 (got.length + due.length)) ++ got)
  noEscape : q.rx.esc = false
  stored : ∀ (i : Nat) (h : i < got.length), i < start.p.bufCap → memRead i q.rx = got[i]
  cntTimeout : q.rx.cntTimeout = start.rx.cntTimeout
  cntJunk : q.rx.cntJunk = start.rx.cntJunk
  cntCrc : q.rx.cntCrc = start.rx.cntCrc
  cntOverrun : got.length ≤ start.p.bufCap → q.rx.cntOverrun = start.rx.cntOverrun

theorem inPayload_of_lengthRead (s : State) {payload : List Byte} (hne : payload ≠ [])
    (hmax : payload.length ≤ s.p.maxPacket) :
    InPayload s [] payload (lengthRead (BitVec.ofNat 14 payload.length) s) where
  inst := rfl
  state := by rw [if_neg hne]; rfl
  len := by
    have hbound := maxPacket_le s
    simp only [lengthRead, BitVec.toNat_setWidth, BitVec.toNat_ofNat, List.length_nil]
    omega
  pos := rfl
  crc := by simp [lengthRead]
  noEscape := rfl
  stored := nofun
  cntTimeout := rfl
  cntJunk := rfl
  cntCrc := rfl
  cntOverrun := fun _ => rfl

/-- R186: the buffer after a payload byte. -/
theorem memRead_payloadReceived (p : Config.Params) (v : Byte) (r : Receiver) (i : Nat) :
    memRead i (payloadReceived p v r) = if r.pos.toNat < p.bufCap ∧ i = r.pos.toNat then v else memRead i r := by
  by_cases hcap : r.pos.toNat < p.bufCap
  · have hbuf : memRead i (payloadReceived p v r) = memRead i (memWrite r.pos.toNat v r) := by
      simp only [memRead, payloadReceived, if_pos hcap]
      rfl
    rw [hbuf, memRead_memWrite]
    exact if_congr (by simp [hcap]) rfl rfl
  · have hbuf : memRead i (payloadReceived p v r) = memRead i r := by
      simp only [memRead, payloadReceived, if_neg hcap]
    rw [hbuf, if_neg fun h => hcap h.1]

section Due
variable {start q : State} {got due : List Byte} {x : Byte}

theorem InPayload.params_eq (h : InPayload start got due q) : q.p = start.p :=
  congrArg Config.Instance.params h.inst

/-- R183 to R185: a byte that is due is a payload byte. -/
theorem InPayload.due_is_payload (h : InPayload start got (x :: due) q)
    (hmax : got.length + (due.length + 1) ≤ start.p.maxPacket) :
    q.rx.state = .data ∨ q.rx.state = .data0 ∧ q.rx.len ≠ 0 ∧ q.rx.len.toNat ≤ q.p.maxPacket := by
  have hstate : q.rx.state = if got = [] then .data0 else .data := h.state
  have hlen : q.rx.len.toNat = got.length + (due.length + 1) := h.len
  by_cases hgot : got = []
  · refine .inr ⟨by rw [hstate, if_pos hgot], fun hzero => ?_, by rw [hlen, h.params_eq]; exact hmax⟩
    rw [hzero] at hlen
    exact absurd hlen (by simp)
  · exact .inl (by rw [hstate, if_neg hgot])

theorem InPayload.inFrame (h : InPayload start got (x :: due) q)
    (hmax : got.length + (due.length + 1) ≤ start.p.maxPacket) : InFrame q := by
  obtain hs | ⟨hs, -⟩ := h.due_is_payload hmax
  · exact ⟨by rw [hs]; nofun, by rw [hs]; nofun, h.noEscape⟩
  · exact ⟨by rw [hs]; nofun, by rw [hs]; nofun, h.noEscape⟩

/-- R34: `rx_pos` does not wrap. -/
theorem InPayload.pos_succ (h : InPayload start got (x :: due) q)
    (hmax : got.length + (due.length + 1) ≤ start.p.maxPacket) : (q.rx.pos + 1).toNat = got.length + 1 := by
  have hbound := maxPacket_le start
  rw [BitVec.toNat_add, h.pos]
  exact Nat.mod_eq_of_lt (show got.length + 1 < 2 ^ 14 by omega)

/-- R186: the byte is stored behind the ones before it. -/
theorem InPayload.stored_succ (h : InPayload start got (x :: due) q) (i : Nat) (hi : i < (got ++ [x]).length)
    (hcap : i < start.p.bufCap) : memRead i (payloadReceived q.p x { q.rx with state := .data }) = (got ++ [x])[i] := by
  rw [memRead_payloadReceived, List.getElem_append]
  rw [List.length_append, List.length_singleton] at hi
  by_cases hold : i < got.length
  · rw [dif_pos hold, if_neg (by simp only [h.pos]; omega)]
    exact h.stored i hold hcap
  · obtain rfl : i = got.length := by omega
    rw [dif_neg hold, if_pos ⟨by simpa only [h.pos, h.params_eq] using hcap, h.pos.symm⟩]
    simp

/-- R186: no overrun is counted while capacity remains. -/
theorem InPayload.cntOverrun_succ (h : InPayload start got (x :: due) q)
    (hcap : (got ++ [x]).length ≤ start.p.bufCap) :
    (payloadReceived q.p x { q.rx with state := .data }).cntOverrun = start.rx.cntOverrun := by
  rw [List.length_append, List.length_singleton] at hcap
  have hroom : q.rx.pos.toNat < q.p.bufCap := by
    rw [h.params_eq, h.pos]
    omega
  simp only [payloadReceived, if_pos hroom]
  exact h.cntOverrun (by omega)

/-- R186 to R188: what a payload byte that is due leaves. -/
theorem InPayload.received (h : InPayload start got (x :: due) q)
    (hmax : got.length + (due.length + 1) ≤ start.p.maxPacket) (tx : Sender) :
    InPayload start (got ++ [x]) due { q with rx := payloadReceived q.p x { q.rx with state := .data }, tx := tx } where
  inst := h.inst
  state := by
    have hlast : (q.rx.pos + 1).toNat = q.rx.len.toNat ↔ due = [] := by
      rw [h.pos_succ hmax, h.len, List.length_cons, ← List.length_eq_zero_iff]
      omega
    simp only [payloadReceived, hlast, List.append_ne_nil_of_right_ne_nil got (List.cons_ne_nil x []), if_false]
  len := by
    simp only [payloadReceived, h.len, List.length_append, List.length_cons, List.length_nil]
    omega
  pos := by
    rw [List.length_append]
    exact h.pos_succ hmax
  crc := by
    have hsum : (got ++ [x]).length + due.length = got.length + (x :: due).length := by
      simp only [List.length_append, List.length_cons, List.length_nil]
      omega
    rw [hsum, ← List.append_assoc, crcOf_append, ← h.crc, ← h.params_eq]
    rfl
  noEscape := h.noEscape
  stored := h.stored_succ
  cntTimeout := h.cntTimeout
  cntJunk := h.cntJunk
  cntCrc := h.cntCrc
  cntOverrun := h.cntOverrun_succ

/-- R185 to R189: a payload byte that is due is taken. -/
theorem InPayload.next (h : InPayload start got (x :: due) q)
    (hmax : got.length + (due.length + 1) ≤ start.p.maxPacket) :
    InFrame q ∧ (rxArm x q).2.frame = false ∧ InPayload start (got ++ [x]) due (rxArm x q).1 := by
  rw [rxArm_of_payload x (h.due_is_payload hmax)]
  exact ⟨h.inFrame hmax, rfl, h.received hmax (forwarded q.p x q.tx)⟩

end Due

/-- R185 to R189: the payload bytes still due are taken one after the other. -/
theorem InPayload.takes {start : State} {due : List Byte} :
    ∀ {got : List Byte} {q : State}, InPayload start got due q → got.length + due.length ≤ start.p.maxPacket →
      ∃ q', TakesBytes q due q' ∧ InPayload start (got ++ due) [] q' := by
  induction due with
  | nil =>
    intro got q h _
    rw [List.append_nil]
    exact ⟨q, .nil q, h⟩
  | cons x due ih =>
    intro got q h hmax
    obtain ⟨hin, hquiet, hnext⟩ := h.next hmax
    have hmax' : (got ++ [x]).length + due.length ≤ start.p.maxPacket := by
      simp only [List.length_append, List.length_cons, List.length_nil] at hmax ⊢
      omega
    obtain ⟨q', htakes, hdone⟩ := ih hnext hmax'
    refine ⟨q', .cons hin hquiet htakes, ?_⟩
    rwa [List.append_assoc] at hdone

/-! The trailer. -/

/-- R191, R198: the receiver after a frame that started in `start` is accepted. -/
structure FrameReceived (start : State) (payload : List Byte) (t : State) : Prop where
  idle : t.rx.state = .idle
  flen : t.rx.flen.toNat = payload.length
  stored : ∀ (i : Nat) (h : i < payload.length), i < start.p.bufCap → memRead i t.rx = payload[i]
  cntTimeout : t.rx.cntTimeout = start.rx.cntTimeout
  cntJunk : t.rx.cntJunk = start.rx.cntJunk
  cntCrc : t.rx.cntCrc = start.rx.cntCrc
  cntOverrun : payload.length ≤ start.p.bufCap → t.rx.cntOverrun = start.rx.cntOverrun

/-- R124: the accumulator of a frame at its trailer. -/
def frameCrc (p : Config.Params) (payload : List Byte) : Half :=
  crcOf p.crcPoly 0 (lengthBytes (BitVec.ofNat 14 payload.length) ++ payload)

/-- R190, R191: the two trailer bytes of a clean frame. -/
theorem InPayload.trailer {start q : State} {payload : List Byte} (h : InPayload start payload [] q) :
    ∃ q', TakesBytes q [hiByte (frameCrc start.p payload)] q' ∧ InFrame q' ∧
      (rxArm (loByte (frameCrc start.p payload)) q').2.frame = true ∧
      FrameReceived start payload (rxArm (loByte (frameCrc start.p payload)) q').1 := by
  have hstate : q.rx.state = .crc1 := h.state
  have hcrc : q.rx.crc = frameCrc start.p payload := h.crc
  generalize frameCrc start.p payload = c at hcrc
  have hin : InFrame q := ⟨by rw [hstate]; nofun, by rw [hstate]; nofun, h.noEscape⟩
  have harm : rxArm (hiByte c) q = crc1Arm (hiByte c) q := rxArm_of_crc1 _ hstate
  have hzero : crc16Add q.p.crcPoly (crc16Add q.p.crcPoly q.rx.crc (hiByte c)) (loByte c) = 0 := by
    rw [hcrc]
    exact crc16Add_own_trailer _ _
  have hlast : rxArm (loByte c) (crc1Arm (hiByte c) q).1 = _ :=
    (rxArm_of_crc2 _ rfl).trans ((crc2Arm_eq _ _).trans (if_pos hzero))
  have htakes : TakesBytes q [hiByte c] (crc1Arm (hiByte c) q).1 := harm ▸ .single hin (by rw [harm]; rfl)
  refine ⟨_, htakes, ⟨nofun, nofun, h.noEscape⟩, ?_, ?_⟩
  · rw [hlast]
  · rw [hlast]
    exact ⟨rfl, h.pos, h.stored, h.cntTimeout, h.cntJunk, h.cntCrc, h.cntOverrun⟩

/-! The whole frame. -/

/-- R120: the body of a frame: all its bytes but the marker and the last trailer byte. -/
theorem takes_frame (start : State) {payload : List Byte} (hne : payload ≠ [])
    (hmax : payload.length ≤ start.p.maxPacket) :
    ∃ q, TakesBytes (frameStarted start)
        (lengthBytes (BitVec.ofNat 14 payload.length) ++ payload ++ [hiByte (frameCrc start.p payload)]) q ∧
      InFrame q ∧ (rxArm (loByte (frameCrc start.p payload)) q).2.frame = true ∧
      FrameReceived start payload (rxArm (loByte (frameCrc start.p payload)) q).1 := by
  have hbound := maxPacket_le start
  have hpos : 0 < payload.length := List.length_pos_iff.mpr hne
  have hn : (BitVec.ofNat 14 payload.length).toNat = payload.length := by
    rw [BitVec.toNat_ofNat]
    omega
  have hlength := takes_length start (n := BitVec.ofNat 14 payload.length) (by omega) (by omega)
  obtain ⟨a, hpayload, ha⟩ := (inPayload_of_lengthRead start hne hmax).takes (by simpa using hmax)
  obtain ⟨b, htrailer, hb⟩ := InPayload.trailer (payload := payload) ha
  exact ⟨b, (hlength.append hpayload).append htrailer, hb⟩

/-- R120: a wire frame up to its last trailer byte, and that byte. -/
theorem wireFrame_eq (p : Config.Params) (payload : List Byte) :
    wireFrame p payload =
      markerBytes p ++
        (stuffAll p (lengthBytes (BitVec.ofNat 14 payload.length) ++ payload ++ [hiByte (frameCrc p payload)]) ++
          stuffed p (loByte (frameCrc p payload))) := by
  simp only [wireFrame, frameCrc, crcSeed, stuffAll_append, stuffAll_cons, stuffAll_nil, List.append_nil,
    List.append_assoc]

theorem FrameReceived.atPortsOf {start q : State} {payload : List Byte} (h : FrameReceived start payload q)
    (o : State) : FrameReceived start payload (atPortsOf o q) :=
  ⟨h.idle, h.flen, h.stored, h.cntTimeout, h.cntJunk, h.cntCrc, h.cntOverrun⟩

/-- R178 to R191: from LEN1, a wire frame after its marker is received, FRAME reported with its last byte. -/
theorem Awaits.frame_received {start s : State} {payload : List Byte} {arrivals : List (Byte × Word)}
    (h : Awaits (frameStarted start) s arrivals) (hne : payload ≠ []) (hmax : payload.length ≤ start.p.maxPacket)
    (hbytes : arrivals.map Prod.fst =
      stuffAll start.p
          (lengthBytes (BitVec.ofNat 14 payload.length) ++ payload ++ [hiByte (frameCrc start.p payload)]) ++
        stuffed start.p (loByte (frameCrc start.p payload))) :
    ∃ t, ReportsFrameLast arrivals.length s t ∧ FrameReceived start payload t := by
  obtain ⟨q, htakes, hin, hframe, hreceived⟩ := takes_frame start hne hmax
  obtain ⟨body, last, rfl, hbody, hlast⟩ := List.map_eq_append_iff.mp hbytes
  obtain ⟨u, hquiet, hu⟩ := h.reach_of_takesBytes htakes hbody
  have hp : start.p = q.p := congrArg Config.Instance.params htakes.inst.symm
  rw [hp] at hlast hframe hreceived
  rw [← List.append_nil last] at hu
  obtain ⟨m, v, t, hlen, hquiet', hstep, hreport, ht⟩ := hu.reach_of_stuffed hin hlast
  obtain ⟨o, rfl⟩ := ht.atPorts
  refine ⟨_, ?_, hreceived.atPortsOf o⟩
  rw [List.length_append, hlen]
  exact hquiet.then_reportsFrameLast (hquiet'.then_reportsFrameLast (.of_step hstep (hreport.trans hframe)))

/-! From IDLE. -/

/-- R178: a configured marker starts the frame. -/
theorem Awaits.of_marker {s : State} {now : Word} {rest : List (Byte × Word)} (hidle : s.rx.state = .idle)
    (hmarker : s.p.markerEn = true) (hq : s.queue = feed ((s.p.marker, now) :: rest))
    (hgaps : gapsWithin s.p.maxDelay ((s.p.marker, now) :: rest)) :
    ∃ t, QuietlyReaches 1 s t ∧ Awaits (frameStarted s) t rest := by
  have hstep : step s = .next (atPortsOf
      (answered .ok 0 { s with rx.ts := now, now := now, queue := feed rest }) (frameStarted s)) :=
    (step_of_feed hq).trans
      ((idleByteStartsAFrameOrIsJunk (present now (feed rest) s) s.p.marker hidle).1 hmarker rfl)
  exact ⟨_, .of_step hstep rfl, ⟨⟨_, rfl⟩, rfl, (gapsWithin_head_congr _ _ _ _ _).mp hgaps⟩⟩

/-- R172: no time has passed. -/
theorem no_gap (now maxDelay : Word) : (now - now).toNat ≤ maxDelay.toNat := by
  rw [BitVec.sub_self]
  exact Nat.zero_le _

/-- R180: LEN1 raises no milestone. -/
theorem len1Arm_events (v : Byte) (s : State) : (len1Arm v s).2 = .none := by
  unfold len1Arm
  split
  · rfl
  · rfl

/-- R11 (c): without a marker there is no stuffing. -/
theorem stuffEn_of_no_marker {s : State} (h : s.p.markerEn = false) : s.p.stuffEn = false := by
  refine Bool.eq_false_iff.mpr fun hstuff => ?_
  obtain ⟨hmarker, -⟩ := stuffing_params s hstuff
  exact Bool.false_ne_true (h.symm.trans hmarker)

/-- R178: with no marker configured, IDLE reads a byte as LEN1 does at the start of a frame. -/
theorem exec_rxByte_idle_eq_frameStarted {s : State} {b : Byte} (hidle : s.rx.state = .idle)
    (hmarker : s.p.markerEn = false) :
    exec (.rxByte b) s = exec (.rxByte b) { frameStarted s with rx.ts := s.now } := by
  generalize hstarted : { frameStarted s with rx.ts := s.now } = started
  have hstuff : stuffingActive started = false := by
    rw [← hstarted, stuffingActive]
    simp only [State.p, frameStarted, stuffEn_of_no_marker hmarker, Bool.false_and]
  have hin : inTime started := by
    rw [← hstarted]
    exact .inr (no_gap s.now s.p.maxDelay)
  have hidleArm : idleArm b { s with rx.ts := s.now } = ((len1Arm b started).1, .none) := by
    rw [idleArm_eq, if_neg (Bool.eq_false_iff.mp hmarker), ← len1Arm_events b started, ← hstarted]
    rfl
  have harm : rxArm b (atArm started) = ((len1Arm b started).1, .none) := by
    rw [atArm_of_not_stuffingActive hstuff, ← len1Arm_events b started, ← hstarted]
    rfl
  rw [exec_rxByte_of_idleArm hidle hidleArm,
    exec_rxByte_of_rxArm hin (delivered_of_not_stuffingActive b hstuff) harm Events.word_none]

/-- R178: so a first byte in IDLE is received as if the frame had just started. -/
theorem Awaits.of_no_marker {s : State} {b : Byte} {now : Word} {rest : List (Byte × Word)}
    (hidle : s.rx.state = .idle) (hmarker : s.p.markerEn = false) (hq : s.queue = feed ((b, now) :: rest))
    (hgaps : gapsWithin s.p.maxDelay ((b, now) :: rest)) :
    ∃ s', step s = step s' ∧ Awaits (frameStarted s) s' ((b, now) :: rest) := by
  refine ⟨{ frameStarted s with rx.ts := now }, ?_, ⟨⟨{ s with rx.ts := now }, rfl⟩, hq, ?_⟩⟩
  · rw [step_of_feed hq, step_of_feed (s := { frameStarted s with rx.ts := now }) hq]
    exact exec_rxByte_idle_eq_frameStarted (s := present now (feed rest) s) hidle hmarker
  · exact (gapsWithin_cons_cons _ _ _ _).mpr ⟨no_gap now s.p.maxDelay, hgaps⟩

theorem stuffed_ne_nil (p : Config.Params) (x : Byte) : stuffed p x ≠ [] := by
  unfold stuffed
  split
  · exact List.cons_ne_nil _ _
  · exact List.cons_ne_nil _ _

/-- R198: an idle receiver receives a wire frame that arrives in time, FRAME reported with its last byte. -/
theorem wireFrame_received {s : State} {payload : List Byte} {arrivals : List (Byte × Word)}
    (hidle : s.rx.state = .idle) (hne : payload ≠ []) (hmax : payload.length ≤ s.p.maxPacket)
    (hbytes : arrivals.map Prod.fst = wireFrame s.p payload) (hgaps : gapsWithin s.p.maxDelay arrivals)
    (hq : s.queue = feed arrivals) :
    ∃ t, ReportsFrameLast arrivals.length s t ∧ FrameReceived s payload t := by
  rw [wireFrame_eq] at hbytes
  cases hmarker : s.p.markerEn
  case true =>
    rw [markerBytes, if_pos hmarker] at hbytes
    obtain ⟨⟨b, now⟩, rest, rfl, rfl, hrest⟩ := List.map_eq_cons_iff.mp hbytes
    obtain ⟨u, hquiet, hu⟩ := Awaits.of_marker hidle hmarker hq hgaps
    obtain ⟨t, hlast, hreceived⟩ := hu.frame_received hne hmax hrest
    refine ⟨t, ?_, hreceived⟩
    rw [List.length_cons, Nat.add_comm]
    exact hquiet.then_reportsFrameLast hlast
  case false =>
    rw [markerBytes, if_neg (Bool.eq_false_iff.mp hmarker), List.nil_append] at hbytes
    cases arrivals with
    | nil => exact absurd hbytes.symm (List.append_ne_nil_of_right_ne_nil _ (stuffed_ne_nil _ _))
    | cons first rest =>
      obtain ⟨s', hstep, hs'⟩ := Awaits.of_no_marker hidle hmarker hq hgaps
      obtain ⟨t, hlast, hreceived⟩ := hs'.frame_received hne hmax hbytes
      exact ⟨t, hlast.of_step_eq hstep (Nat.succ_pos _), hreceived⟩

/-- Settles O59: the bytes SEND put out are the payload's wire frame, and a wire frame is received. -/
theorem sentPayloadIsReceived : Obligations.SentPayloadIsReceived := by
  intro s r t payload now arrivals hopen hpos hmax hcap hsq hrun hinst hidle hout hgaps hrq
  have hp : r.p = s.p := congrArg Config.Instance.params hinst
  obtain ⟨t', hrun', -, -, -, -, htx⟩ := run_send (rest := []) hopen hmax (hsq.trans (List.append_nil _).symm)
  obtain rfl : t' = t := Host.Outcome.next.inj (hrun'.symm.trans hrun)
  rw [htx] at hout
  have hbytes : arrivals.map Prod.fst = wireFrame r.p payload := hp ▸ List.append_cancel_left hout
  obtain ⟨u, ⟨hreach, hframe, hquiet⟩, hreceived⟩ :=
    wireFrame_received hidle (List.ne_nil_of_length_pos hpos) (hp ▸ hmax) hbytes hgaps hrq
  have hstored : ∀ (i : Nat) (h : i < payload.length), memRead i u.rx = payload[i] := fun i h =>
    hreceived.stored i h (by rw [hp]; omega)
  exact ⟨⟨u, hreach, hframe, hreceived.idle, hreceived.flen, hstored, hreceived.cntTimeout, hreceived.cntJunk,
    hreceived.cntCrc, hreceived.cntOverrun (hp ▸ hcap)⟩, hquiet⟩

end Sys2Proof.Machine
end

