-- ==== Sys2Proof/Proofs/TransmitterCommands.lean ====
section
/-! PROOFS. The words and meanings of the transmitter's four commands (spec/30_encoding.md R101 to R103;
spec/42_transmitter.md R223 to R240): each by one lemma per way it can answer. -/

namespace Sys2Proof

/-! The words of the transmitter's commands. -/

/-- R103: a mask over a word's upper part keeps that part and clears the operand below it. -/
theorem append_masked {k m : Nat} (high : BitVec k) (low : BitVec m) :
    (high ++ low) &&& (BitVec.allOnes k ++ 0#m) = high ++ 0#m := by
  rw [BitVec.and_append, BitVec.and_allOnes, BitVec.and_zero]

/-- R226: the word of TX_BYTE is its opcode, sixteen zeros and the byte. -/
theorem decode_txByte (b : Byte) : decode (0x110000#24 ++ b) = .ok (.txByte b) := by
  have hadmits : (tableRow 4).admits (0x110000#24 ++ b) = true :=
    beq_iff_eq.mpr (append_masked 0x110000#24 b)
  have hbyte : byteField (0x110000#24 ++ b) = b := BitVec.extractLsb'_append_eq_right
  exact (decode_eq_ok_iff _ _).mpr ⟨tableRow 4, tableRow_mem 4, hadmits, congrArg Instr.txByte hbyte⟩

/-- R101 formats L and S: the low half of a word made of two halves. -/
theorem halfField_append_half (high low : Half) : halfField (high ++ low) = low :=
  BitVec.extractLsb'_append_eq_right

/-- R224: the word of TX_START is its opcode, eight zeros and the length, extended with zeros. -/
theorem decode_txStart (n : Half) : decode (0x1000#16 ++ n) = .ok (.txStart (n.setWidth 32)) := by
  have hadmits : (tableRow 3).admits (0x1000#16 ++ n) = true :=
    beq_iff_eq.mpr (append_masked 0x1000#16 n)
  have hlength : lengthField (0x1000#16 ++ n) = n.setWidth 32 := by rw [lengthField, halfField_append_half]
  exact (decode_eq_ok_iff _ _).mpr ⟨tableRow 3, tableRow_mem 3, hadmits, congrArg Instr.txStart hlength⟩

/-- R238: the word of TX_COPY is its opcode, eight zeros and the delta, extended with its sign. -/
theorem decode_txCopy (d : Half) : decode (0x1300#16 ++ d) = .ok (.txCopy (d.signExtend 32)) := by
  have hadmits : (tableRow 6).admits (0x1300#16 ++ d) = true :=
    beq_iff_eq.mpr (append_masked 0x1300#16 d)
  have hdelta : deltaField (0x1300#16 ++ d) = d.signExtend 32 := by rw [deltaField, halfField_append_half]
  exact (decode_eq_ok_iff _ _).mpr ⟨tableRow 6, tableRow_mem 6, hadmits, congrArg Instr.txCopy hdelta⟩

end Sys2Proof

namespace Sys2Proof.Machine

/-! TX_START (R224). -/

theorem exec_txStart_of_open {s : State} (n : Word) (hopen : s.tx.isOpen = true) :
    exec (.txStart n) s = .next (answered .txBusy 0 s) := by
  simp only [exec, execTxStart, hopen, if_true]
  rfl

theorem exec_txStart_of_tooLong {s : State} {n : Word} (hopen : s.tx.isOpen = false)
    (hn : s.p.maxPacket < n.toNat) : exec (.txStart n) s = .next (answered .txLen 0 s) := by
  simp only [exec, execTxStart, hopen, Bool.false_eq_true, if_false, hn, if_true]
  rfl

/-- Settles O27: the word by its row, the two refusals, and the closed form of `tx_begin`. -/
theorem txStartOpensAFrame : Obligations.TxStartOpensAFrame := by
  refine ⟨decode_txStart, fun s n => ⟨exec_txStart_of_open n, exec_txStart_of_tooLong, fun hopen hn => ?_⟩⟩
  rw [exec_txStart_of_closed hopen hn, txBegin_eq]
  rfl

/-! TX_BYTE (R226, R227). -/

theorem exec_txByte_of_closed {s : State} (b : Byte) (hopen : s.tx.isOpen = false) :
    exec (.txByte b) s = .next (answered .txNotOpen 0 s) := by
  simp only [exec, execTxByte, hopen, Bool.false_eq_true, if_false]
  rfl

theorem exec_txByte_of_overrun {s : State} (b : Byte) (hopen : s.tx.isOpen = true) (hremain : s.tx.remain = 0) :
    exec (.txByte b) s = .next (answered .txOverrun 0 { s with tx.ovr := true }) := by
  simp only [exec, execTxByte, hopen, if_true, txPut_eq, hremain]
  rfl

/-- Settles O28: the word by its row, and the three answers of `tx_put` behind the check for an open frame. -/
theorem txByteSendsOnePayloadByte : Obligations.TxByteSendsOnePayloadByte :=
  ⟨decode_txByte, fun _ b => ⟨exec_txByte_of_closed b, exec_txByte_of_overrun b, exec_txByte_of_owed b⟩⟩

/-! TX_END (R232). -/

theorem exec_txEnd_of_closed {s : State} (f : Bool) (hopen : s.tx.isOpen = false) :
    exec (.txEnd f) s = .next (answered .txNotOpen 0 s) := by
  simp only [exec, execTxEnd, hopen, Bool.not_false, if_true]
  rfl

theorem exec_txEnd_of_relay {s : State} (f : Bool) (hopen : s.tx.isOpen = true) (hcopy : s.tx.copy = true) :
    exec (.txEnd f) s = .next (answered .txBusy 0 s) := by
  simp only [exec, execTxEnd, hopen, hcopy, Bool.not_true, Bool.false_eq_true, if_false, if_true]
  rfl

/-- R230 in FOLD mode: the mark goes into the accumulator, and the trailer is the accumulator. -/
theorem closingMark_of_fold {p : Config.Params} {brkBroken brkTrunc : Byte}
    (hmode : p.breakMode = .fold brkBroken brkTrunc) (c : Half) :
    (∀ broken, closingMark p true broken c = (crc16Add p.crcPoly c brkTrunc, crc16Add p.crcPoly c brkTrunc)) ∧
    closingMark p false true c = (crc16Add p.crcPoly c brkBroken, crc16Add p.crcPoly c brkBroken) ∧
    closingMark p false false c = (c, c) := by
  simp only [closingMark, hmode, implies_true, and_self]

/-- R230 in XOR mode: the mark goes into the trailer only. -/
theorem closingMark_of_xor {p : Config.Params} {brkBroken brkTrunc : Half}
    (hmode : p.breakMode = .xor brkBroken brkTrunc) (c : Half) :
    (∀ broken, closingMark p true broken c = (c, c ^^^ brkTrunc)) ∧
    closingMark p false true c = (c, c ^^^ brkBroken) ∧
    closingMark p false false c = (c, c) := by
  simp only [closingMark, hmode, implies_true, and_self]

/-- R230: the accumulator over an open frame's bytes, the zeros that pad it included. -/
def paddedCrc (s : State) : Half := crcOf s.p.crcPoly s.tx.crc (List.replicate s.tx.remain.toNat 0)

/-- R229, R230, R232: the state after the frame is padded and closed with a mark: an accumulator and a trailer. -/
def closedWith (mark : Half × Half) (s : State) : State :=
  { s with
    tx.out := s.tx.out ++
      stuffAll s.p (List.replicate s.tx.remain.toNat 0 ++ [hiByte mark.2, loByte mark.2])
    tx.crc := mark.1, tx.remain := 0, tx.isOpen := false, tx.copy := false }

theorem exec_txEnd_of_mark {s : State} {f trunc : Bool} {mark : Half × Half} (hopen : s.tx.isOpen = true)
    (hcopy : s.tx.copy = false) (htrunc : decide (s.tx.remain ≠ 0) = trunc)
    (hmark : closingMark s.p trunc f (paddedCrc s) = mark) :
    exec (.txEnd f) s = .next (answered .ok 0 (closedWith mark s)) := by
  rw [exec_txEnd_of_open f hopen hcopy, ← hmark, ← htrunc]
  rfl

/-- R230, R232: which mark a TX_END puts on the frame it closes, truncation before the caller's flag. -/
theorem exec_txEnd_of_marks {s : State} {f : Bool} {truncMark brokenMark cleanMark : Half × Half}
    (hopen : s.tx.isOpen = true) (hcopy : s.tx.copy = false)
    (hmarks : (∀ broken, closingMark s.p true broken (paddedCrc s) = truncMark) ∧
      closingMark s.p false true (paddedCrc s) = brokenMark ∧
      closingMark s.p false false (paddedCrc s) = cleanMark) :
    (s.tx.remain ≠ 0 → exec (.txEnd f) s = .next (answered .ok 0 (closedWith truncMark s))) ∧
    (s.tx.remain = 0 → f = true → exec (.txEnd f) s = .next (answered .ok 0 (closedWith brokenMark s))) ∧
    (s.tx.remain = 0 → f = false → exec (.txEnd f) s = .next (answered .ok 0 (closedWith cleanMark s))) := by
  obtain ⟨htrunc, hbroken, hclean⟩ := hmarks
  have hwhole (h : s.tx.remain = 0) : decide (s.tx.remain ≠ 0) = false := decide_eq_false (not_not_intro h)
  exact ⟨fun howed => exec_txEnd_of_mark hopen hcopy (decide_eq_true howed) (htrunc f),
    fun h hf => exec_txEnd_of_mark hopen hcopy (hwhole h) (hf ▸ hbroken),
    fun h hf => exec_txEnd_of_mark hopen hcopy (hwhole h) (hf ▸ hclean)⟩

/-- Settles O29: the two words, the two refusals, and the marks of each break mode. -/
theorem txEndClosesTheFrame : Obligations.TxEndClosesTheFrame := by
  refine ⟨⟨decode_encode_txEnd false, decode_encode_txEnd true⟩, fun s f =>
    ⟨exec_txEnd_of_closed f, exec_txEnd_of_relay f, fun hopen hcopy => ?_⟩⟩
  split
  next hmode => exact exec_txEnd_of_marks hopen hcopy (closingMark_of_fold hmode (paddedCrc s))
  next hmode => exact exec_txEnd_of_marks hopen hcopy (closingMark_of_xor hmode (paddedCrc s))

/-! TX_COPY (R238 to R240). -/

/-- R239. -/
theorem copyPoint_iff (s : State) :
    copyPoint s = true ↔
      s.rx.hdrFired = true ∧ (s.rx.state = .data ∨ s.rx.state = .crc1 ∨ s.rx.state = .crc2) ∧
      (s.rx.pos.toNat = s.rx.hdrLen.toNat ∨ s.rx.len = 0) ∧ s.rx.pos.toNat ≤ s.p.bufCap := by
  simp only [copyPoint, Bool.and_eq_true, Bool.or_eq_true, decide_eq_true_eq, beq_iff_eq, and_assoc, or_assoc]

theorem exec_txCopy_of_open {s : State} (d : Word) (hopen : s.tx.isOpen = true) :
    exec (.txCopy d) s = .next (answered .txBusy 0 s) := by
  simp only [exec, execTxCopy, hopen, if_true]
  rfl

theorem exec_txCopy_of_not_copyPoint {s : State} (d : Word) (hopen : s.tx.isOpen = false)
    (hpoint : copyPoint s = false) : exec (.txCopy d) s = .next (answered .copyIllegal 0 s) := by
  simp only [exec, execTxCopy, hopen, hpoint, Bool.not_false, Bool.false_eq_true, if_false, if_true]
  rfl

theorem exec_txCopy_of_tooShort {s : State} {d : Word} (hopen : s.tx.isOpen = false) (hpoint : copyPoint s = true)
    (hshort : relayLength d s < s.rx.pos.toNat) : exec (.txCopy d) s = .next (answered .copyIllegal 0 s) := by
  simp only [exec, execTxCopy, hopen, hpoint, hshort, Bool.not_true, Bool.false_eq_true, if_false, if_true]
  rfl

theorem exec_txCopy_of_tooLong {s : State} {d : Word} (hopen : s.tx.isOpen = false) (hpoint : copyPoint s = true)
    (hfits : (s.rx.pos.toNat : Int) ≤ relayLength d s) (hlong : (s.p.maxPacket : Int) < relayLength d s) :
    exec (.txCopy d) s = .next (answered .txLen 0 s) := by
  simp only [exec, execTxCopy, hopen, hpoint, Int.not_lt.mpr hfits, hlong, Bool.not_true, Bool.false_eq_true,
    if_false, if_true]
  rfl

/-- R11 (a): a length field holds every length that R238 accepts. -/
theorem toNat_ofInt_length {s : State} {n : Int} (hpos : 0 ≤ n) (hmax : n ≤ s.p.maxPacket) :
    ((BitVec.ofInt 14 n).toNat : Int) = n := by
  have hlimit := maxPacket_le s
  rw [BitVec.toNat_ofInt]
  omega

/-- R238, R240: what is still owed after `k` bytes of a frame of length `n`. -/
theorem ofInt_sub_ofNat (n : Int) (k : Nat) :
    BitVec.ofInt 14 n - BitVec.ofNat 14 k = BitVec.ofInt 14 (n - k) := by
  rw [Int.sub_eq_add_neg, BitVec.ofInt_add, BitVec.ofInt_neg, BitVec.ofInt_natCast, BitVec.sub_eq_add_neg]

/-- R238, R240: the body bytes that TX_COPY sends for a frame of length `n`: the length field, and the header from
the buffer. -/
def relayHead (n : BitVec 14) (r : Receiver) : List Byte :=
  lengthBytes n ++ (List.range r.pos.toNat).map fun i => memRead i r

/-- R238, R240: the sender after `tx_begin` and the copy of a header that the frame has room for. -/
theorem copyHeader_txBegin_eq (p : Config.Params) (r : Receiver) {n : BitVec 14} (hroom : r.pos.toNat ≤ n.toNat)
    (t : Sender) :
    copyHeader p r r.pos.toNat (txBegin p n t) =
      { out := t.out ++ markerBytes p ++ stuffAll p (relayHead n r)
        crc := crcOf p.crcPoly crcSeed (relayHead n r)
        remain := n - BitVec.ofNat 14 r.pos.toNat, isOpen := true, copy := false, ovr := false } := by
  rw [txBegin_eq, copyHeader_eq p r _ _ hroom]
  simp only [relayHead, crcOf_append, stuffAll_append, List.append_assoc]

/-- R238, R240: TX_COPY where nothing refuses it: the header fits the frame it has opened, whose length is at least
`rx_pos`. -/
theorem exec_txCopy_of_copyPoint {s : State} {d : Word} (hopen : s.tx.isOpen = false) (hpoint : copyPoint s = true)
    (hfits : (s.rx.pos.toNat : Int) ≤ relayLength d s) (hmax : relayLength d s ≤ s.p.maxPacket) :
    exec (.txCopy d) s =
      .next (answered .ok 0
        { s with tx :=
          { out := s.tx.out ++ markerBytes s.p ++ stuffAll s.p (relayHead (BitVec.ofInt 14 (relayLength d s)) s.rx)
            crc := crcOf s.p.crcPoly crcSeed (relayHead (BitVec.ofInt 14 (relayLength d s)) s.rx)
            remain := BitVec.ofInt 14 (relayLength d s - s.rx.pos.toNat)
            isOpen := true, copy := true, ovr := false } }) := by
  have hlength : ((BitVec.ofInt 14 (relayLength d s)).toNat : Int) = relayLength d s :=
    toNat_ofInt_length (le_trans (Int.natCast_nonneg _) hfits) hmax
  have hroom : s.rx.pos.toNat ≤ (BitVec.ofInt 14 (relayLength d s)).toNat :=
    Int.ofNat_le.mp (hlength.symm ▸ hfits)
  simp only [exec, execTxCopy, hopen, hpoint, Int.not_lt.mpr hfits, Int.not_lt.mpr hmax, Bool.not_true,
    Bool.false_eq_true, if_false, copyHeader_txBegin_eq s.p s.rx hroom, ofInt_sub_ofNat]
  rfl

/-- Settles O30: the word by its row, the refusals in their order, and the relay opened where none applies. -/
theorem txCopyOpensARelay : Obligations.TxCopyOpensARelay := by
  refine ⟨decode_txCopy, fun s d => ⟨exec_txCopy_of_open d, fun hopen hpoint => ?_,
    fun hopen hpoint => exec_txCopy_of_tooShort hopen ((copyPoint_iff s).mpr hpoint),
    fun hopen hpoint => exec_txCopy_of_tooLong hopen ((copyPoint_iff s).mpr hpoint),
    fun hopen hpoint => exec_txCopy_of_copyPoint hopen ((copyPoint_iff s).mpr hpoint)⟩⟩
  exact exec_txCopy_of_not_copyPoint d hopen (Bool.eq_false_iff.mpr (mt (copyPoint_iff s).mp hpoint))

end Sys2Proof.Machine
end

