-- ==== Sys2Proof/Proofs/RegisterAccess.lean ====
section
/-! PROOFS. Register reads, the two buffer commands, and the instance parameters under every step
(spec/30_encoding.md R101 to R104, spec/10_state.md R55, spec/43_register_access.md R260 to R265, R313). -/

namespace Sys2Proof

/-! The fields of a word in format R or I: an opcode, a middle operand and a low one. -/

section Fields
variable {k l m : Nat} (high : BitVec k) (mid : BitVec l) (low : BitVec m)

theorem extractLsb'_high_field : (high ++ mid ++ low).extractLsb' (m + l) k = high := by
  rw [BitVec.extractLsb'_append_eq_of_le (Nat.le_add_right m l), Nat.add_sub_cancel_left]
  exact BitVec.extractLsb'_append_eq_left

theorem extractLsb'_mid_field : (high ++ mid ++ low).extractLsb' m l = mid := by
  rw [BitVec.extractLsb'_append_eq_of_le le_rfl, Nat.sub_self]
  exact BitVec.extractLsb'_append_eq_right

/-- R103: a mask over the opcode frees the middle operand, and keeps of the low one what it has there. -/
theorem fields_masked (lowMask : BitVec m) :
    (high ++ mid ++ low) &&& (BitVec.allOnes k ++ 0#l ++ lowMask) = high ++ 0#l ++ (low &&& lowMask) := by
  rw [BitVec.and_append, BitVec.and_append, BitVec.and_allOnes, BitVec.and_zero]

/-- R103: a mask over the opcode and the low operand admits exactly the words whose low operand is 0. -/
theorem fields_masked_eq_iff :
    (high ++ mid ++ low) &&& (BitVec.allOnes k ++ 0#l ++ BitVec.allOnes m) = high ++ 0#l ++ 0#m ↔ low = 0#m := by
  rw [fields_masked, BitVec.and_allOnes, BitVec.append_right_inj]

end Fields

/-- R103, R104: a word with the opcode of a row decodes by that row where the row admits it, and is refused for the
row's reserved-zero field elsewhere. -/
theorem decode_eq_ite_of_row {r : Row} {w : Word} {i : Instr} {P : Prop} [Decidable P] (hr : r ∈ decodeTable)
    (hop : opField w = opField r.pattern) (hadmits : r.admits w = true ↔ P) (hbuild : r.build w = i) :
    decode w = if P then .ok i else .error (.reservedField r.mnemonic) := by
  split
  next h => exact (decode_eq_ok_iff w i).mpr ⟨r, hr, hadmits.mpr h, hbuild⟩
  next h => exact decode_eq_reservedField hr hop.symm (Bool.eq_false_iff.mpr (mt hadmits.mp h))

/-- R260. -/
theorem decode_regRead (r : Byte) (v : Half) : decode (0x30#8 ++ r ++ v) =
    if v = 0 then .ok (.regRead r) else .error (.reservedField "REG_READ") := by
  have hadmits : (tableRow 10).admits (0x30#8 ++ r ++ v) = true ↔ v = 0 :=
    beq_iff_eq.trans (fields_masked_eq_iff 0x30#8 r v)
  exact decode_eq_ite_of_row (tableRow_mem 10) (extractLsb'_high_field 0x30#8 r v) hadmits
    (congrArg Instr.regRead (regField_append 0x30#8 r v))

/-- R264. -/
theorem decode_bufRead (i : Half) (b : Byte) : decode (0x32#8 ++ i ++ b) =
    if b = 0 then .ok (.bufRead i) else .error (.reservedField "BUF_READ") := by
  have hadmits : (tableRow 12).admits (0x32#8 ++ i ++ b) = true ↔ b = 0 :=
    beq_iff_eq.trans (fields_masked_eq_iff 0x32#8 i b)
  exact decode_eq_ite_of_row (tableRow_mem 12) (extractLsb'_high_field 0x32#8 i b) hadmits
    (congrArg Instr.bufRead (extractLsb'_mid_field 0x32#8 i b))

/-- R265: BUF_WRITE has no reserved field. -/
theorem decode_bufWrite (i : Half) (b : Byte) : decode (0x33#8 ++ i ++ b) = .ok (.bufWrite i b) := by
  have hadmits : (tableRow 13).admits (0x33#8 ++ i ++ b) = true :=
    beq_iff_eq.mpr ((fields_masked 0x33#8 i b 0#8).trans (by rw [BitVec.and_zero]; rfl))
  have hindex : indexField (0x33#8 ++ i ++ b) = i := extractLsb'_mid_field 0x33#8 i b
  have hbyte : byteField (0x33#8 ++ i ++ b) = b := BitVec.extractLsb'_append_eq_right
  exact (decode_eq_ok_iff _ _).mpr
    ⟨tableRow 13, tableRow_mem 13, hadmits, congrArg₂ Instr.bufWrite hindex hbyte⟩

end Sys2Proof

namespace Sys2Proof.Machine

/-! The instance parameters (R263, R313). -/

/-- R263: no command changes the instance. -/
theorem exec_keeps_inst {i : Instr} {s t : State} (h : exec i s = .next t) : t.inst = s.inst := by
  cases execFrame_of_exec h with
  | receivesByte | forcesIdle | writesSenderAtMost | restartsAuxCrc | addsToAuxCrc | writesRegister
  | writesBuffer => rfl

/-- Settles O53: what a step can be, and for a command its frame. -/
theorem parametersNeverChange : Obligations.ParametersNeverChange := by
  intro s t h
  obtain ⟨-, rfl⟩ | ⟨rest, -, rfl⟩ | ⟨w, now, rest, -, ⟨i, -, hexec⟩ | ⟨e, -, rfl⟩⟩ := step_cases h
  case inl => rfl
  case inr.inl => exact blockReset_inst rest s
  case inr.inr.inl => exact (exec_keeps_inst hexec).trans (present_inst now rest s)
  case inr.inr.inr => exact (respond_inst .badCmd 0 _).trans (present_inst now rest s)

/-! REG_READ (R260). -/

/-- R55: the registers with their numbers. -/
def registerMap : List (Byte × Reg) := [
  (0x00, .rxState), (0x01, .rxPos), (0x02, .rxLen), (0x03, .rxCrc), (0x04, .rxFlen), (0x05, .rxTs),
  (0x06, .rxFlags), (0x08, .hdrLen), (0x09, .readLen), (0x10, .cntTimeout), (0x11, .cntJunk),
  (0x12, .cntCrc), (0x13, .cntOverrun), (0x20, .txFlags), (0x21, .txRemain), (0x22, .txCrc),
  (0x30, .auxCrc), (0x3F, .lastErr)]

theorem ofNumber_of_mem_registerMap : ∀ x ∈ registerMap, Reg.ofNumber x.1 = some x.2 := by decide

/-- R33, R55: RX_STATE as a word. -/
theorem RxState.code_word (st : RxState) : st.code.setWidth 32 =
    (match st with
      | .idle => 0 | .len1 => 1 | .len2 => 2 | .data0 => 3 | .data => 4 | .crc1 => 5 | .crc2 => 6
      | .error => 7 : Word) := by
  cases st <;> rfl

/-- R282, R55: LAST_ERR as a word. -/
theorem ErrCode.code_word (e : ErrCode) : e.code.setWidth 32 =
    (match e with
      | .ok => 0 | .badCmd => 1 | .badReg => 2 | .readOnly => 3 | .badIndex => 4 | .txBusy => 5
      | .txNotOpen => 6 | .txOverrun => 7 | .txLen => 8 | .copyIllegal => 9 : Word) := by
  cases e <;> rfl

/-- R55: three packed flags are the sum of their bits' values, for no two share a bit. -/
theorem flagBits_eq_sum : ∀ f g h : Bool, flagBit f 0 ||| flagBit g 1 ||| flagBit h 2 =
    (if f then 1 else 0) + (if g then 2 else 0) + (if h then 4 else 0) := by
  decide

theorem exec_regRead_of_mapped {r : Byte} {reg : Reg} (s : State) (hreg : Reg.ofNumber r = some reg) :
    exec (.regRead r) s = .next (answered .ok (reg.read s) s) := by
  simp only [exec, execRegRead, hreg]
  rfl

theorem exec_regRead_of_reserved {r : Byte} (s : State) (hreg : Reg.ofNumber r = none) :
    exec (.regRead r) s = .next (answered .badReg 0 s) := by
  simp only [exec, execRegRead, hreg]
  rfl

/-- Settles O11: the word by its row, and the command by what the number names; the statement's map lists what each
register of `registerMap` reads as. -/
theorem regReadReturnsTheMap : Obligations.RegReadReturnsTheMap := by
  refine ⟨decode_regRead, fun s => ?_⟩
  intro bit map
  have hmap : map = registerMap.map fun x => (x.1, x.2.read s) := by
    simp only [registerMap, List.map_cons, List.map_nil, Reg.read, rxFlagsWord, txFlagsWord, flagBits_eq_sum,
      RxState.code_word, ErrCode.code_word]
    rfl
  refine ⟨fun x hx => ?_, fun r hr => exec_regRead_of_reserved s (ofNumber_eq_none_of_not_mem r hr)⟩
  obtain ⟨⟨r, reg⟩, hmem, rfl⟩ := List.mem_map.mp (hmap ▸ hx)
  exact exec_regRead_of_mapped s (ofNumber_of_mem_registerMap (r, reg) hmem)

/-! BUF_READ and BUF_WRITE (R264, R265). -/

theorem exec_bufRead_of_lt {i : Half} {s : State} (hi : i.toNat < s.p.bufCap) :
    exec (.bufRead i) s = .next (answered .ok ((memRead i.toNat s.rx).setWidth 32) s) := by
  simp only [exec, execBufRead, hi, if_true]
  rfl

theorem exec_bufRead_of_badIndex {i : Half} {s : State} (hi : s.p.bufCap ≤ i.toNat) :
    exec (.bufRead i) s = .next (answered .badIndex 0 s) := by
  simp only [exec, execBufRead, Nat.not_lt.mpr hi, if_false]
  rfl

theorem exec_bufWrite_of_lt {i : Half} {s : State} (b : Byte) (hi : i.toNat < s.p.bufCap) :
    exec (.bufWrite i b) s = .next (answered .ok 0 { s with rx := memWrite i.toNat b s.rx }) := by
  simp only [exec, execBufWrite, hi, if_true]
  rfl

theorem exec_bufWrite_of_badIndex {i : Half} {s : State} (b : Byte) (hi : s.p.bufCap ≤ i.toNat) :
    exec (.bufWrite i b) s = .next (answered .badIndex 0 s) := by
  simp only [exec, execBufWrite, Nat.not_lt.mpr hi, if_false]
  rfl

/-- Settles O13: the word by its row, and the two sides of the capacity. -/
theorem bufReadReturnsTheByte : Obligations.BufReadReturnsTheByte :=
  ⟨decode_bufRead, fun _ _ => ⟨exec_bufRead_of_lt, exec_bufRead_of_badIndex⟩⟩

/-- Settles O14: the word by its row, the two sides of the capacity, and `MemRead` after `MemWrite`. -/
theorem bufWriteSetsOneByte : Obligations.BufWriteSetsOneByte :=
  ⟨decode_bufWrite, fun s i b => ⟨fun hi => ⟨memWrite i.toNat b s.rx, exec_bufWrite_of_lt b hi, rfl,
    fun j => memRead_memWrite i.toNat j b s.rx⟩, exec_bufWrite_of_badIndex b⟩⟩

end Sys2Proof.Machine
end

