-- ==== Sys2Proof/Proofs/EncodingRoundTrip.lean ====
section
/-! PROOFS. Decoder and encoder are inverse to each other, and the rows of the decode table exclude each other
(spec/30_encoding.md R101 to R103, R106). -/

namespace Sys2Proof

open Laws.EncodeKeepsFixedBits (fixedBits Statement)

/-! From a command to its word and back. -/

/-- R101 format I: the encoder's word is the fields side by side. -/
theorem append_eq_indexWord (op : Byte) (i : Half) (b : Byte) : op ++ i ++ b = indexWord op i b := by
  apply BitVec.eq_of_getLsbD_eq
  intro j hj
  rw [BitVec.getLsbD_append, BitVec.getLsbD_append]
  interval_cases j <;> simp [indexWord, opWord]

theorem regField_regWord (op r : Byte) (v : Half) : regField (regWord op r v) = r := by
  rw [← append_eq_regWord, regField_append]

theorem halfField_regWord (op r : Byte) (v : Half) : halfField (regWord op r v) = v := by
  rw [← append_eq_regWord, halfField_append]

theorem indexField_indexWord (op : Byte) (i : Half) (b : Byte) : indexField (indexWord op i b) = i := by
  rw [← append_eq_indexWord]
  exact extractLsb'_mid_field op i b

theorem byteField_indexWord (op : Byte) (i : Half) (b : Byte) : byteField (indexWord op i b) = b := by
  rw [← append_eq_indexWord]
  exact BitVec.extractLsb'_append_eq_right

/-- R101 format S: only a sign-extended delta has a word. -/
theorem decode_encode_txCopy {d : Word} (h : deltaOperandOk d = true) :
    decode (encode (.txCopy d)) = .ok (.txCopy d) := by
  have hfield : deltaField (encode (.txCopy d)) = d := by
    rw [deltaField, encode, halfField_lowWord]
    exact (beq_iff_eq.mp h).symm
  exact decode_encode_of_row (tableRow_mem 6) rfl (Laws.EncodeKeepsFixedBits.txCopy d)
    (congrArg Instr.txCopy hfield)

/-- R101 format L: a zero-extended length is below 2^16. -/
theorem toNat_lt_of_lengthOperandOk {n : Word} (h : lengthOperandOk n = true) : n.toNat < 2 ^ 16 := by
  rw [beq_iff_eq.mp h, BitVec.toNat_setWidth]
  exact Nat.lt_of_le_of_lt (Nat.mod_le _ _) (n.setWidth 16).isLt

/-- Settles O1: each command by its row, whose build reads the operand fields back. -/
theorem decodeReadsBackEncode : Obligations.DecodeReadsBackEncode := by
  intro i hwf
  cases i with
  | nop => exact decode_encode_of_row (tableRow_mem 0) rfl Laws.EncodeKeepsFixedBits.nop rfl
  | rxByte b => exact decode_encode_rxByte b
  | rxReset => exact decode_encode_of_row (tableRow_mem 2) rfl Laws.EncodeKeepsFixedBits.rxReset rfl
  | txStart n => exact decode_encode_txStart (toNat_lt_of_lengthOperandOk hwf)
  | txByte b => exact decode_encode_txByte b
  | txEnd f => exact decode_encode_txEnd f
  | txCopy d => exact decode_encode_txCopy hwf
  | crcRestart => exact decode_encode_of_row (tableRow_mem 7) rfl Laws.EncodeKeepsFixedBits.crcRestart rfl
  | crcAdd b =>
    exact decode_encode_of_row (tableRow_mem 8) rfl (Laws.EncodeKeepsFixedBits.crcAdd b)
      (congrArg Instr.crcAdd (byteField_lowWord 0x21 b))
  | crcValue => exact decode_encode_of_row (tableRow_mem 9) rfl Laws.EncodeKeepsFixedBits.crcValue rfl
  | regRead r =>
    exact decode_encode_of_row (tableRow_mem 10) rfl (Laws.EncodeKeepsFixedBits.regRead r)
      (congrArg Instr.regRead (regField_regWord 0x30 r 0))
  | regWrite r v =>
    exact decode_encode_of_row (tableRow_mem 11) rfl (Laws.EncodeKeepsFixedBits.regWrite r v)
      (congrArg₂ Instr.regWrite (regField_regWord 0x31 r v) (halfField_regWord 0x31 r v))
  | bufRead i =>
    exact decode_encode_of_row (tableRow_mem 12) rfl (Laws.EncodeKeepsFixedBits.bufRead i)
      (congrArg Instr.bufRead (indexField_indexWord 0x32 i 0))
  | bufWrite i b =>
    exact decode_encode_of_row (tableRow_mem 13) rfl (Laws.EncodeKeepsFixedBits.bufWrite i b)
      (congrArg₂ Instr.bufWrite (indexField_indexWord 0x33 i b) (byteField_indexWord 0x33 i b))

/-! From a word to its command and back. -/

/-- Words that agree under a mask and under its complement are the same. -/
theorem eq_of_masked_eq {n : Nat} {v w mask : BitVec n} (hin : v &&& mask = w &&& mask)
    (hout : v &&& ~~~mask = w &&& ~~~mask) : v = w := by
  have hsplit (x : BitVec n) : x = x &&& mask ||| x &&& ~~~mask := by
    rw [← BitVec.and_or_distrib_left, BitVec.or_not_self, BitVec.and_allOnes]
  rw [hsplit v, hsplit w, hin, hout]

/-- R102, R103: the word of a command carries the bits its row fixes. -/
theorem encode_masked (i : Instr) : encode i &&& (fixedBits i).2 = (fixedBits i).1 := by
  cases i with
  | nop => exact Laws.EncodeKeepsFixedBits.nop
  | rxByte b => exact Laws.EncodeKeepsFixedBits.rxByte b
  | rxReset => exact Laws.EncodeKeepsFixedBits.rxReset
  | txStart n => exact Laws.EncodeKeepsFixedBits.txStart n
  | txByte b => exact Laws.EncodeKeepsFixedBits.txByte b
  | txEnd f => exact Laws.EncodeKeepsFixedBits.txEnd f
  | txCopy d => exact Laws.EncodeKeepsFixedBits.txCopy d
  | crcRestart => exact Laws.EncodeKeepsFixedBits.crcRestart
  | crcAdd b => exact Laws.EncodeKeepsFixedBits.crcAdd b
  | crcValue => exact Laws.EncodeKeepsFixedBits.crcValue
  | regRead r => exact Laws.EncodeKeepsFixedBits.regRead r
  | regWrite r v => exact Laws.EncodeKeepsFixedBits.regWrite r v
  | bufRead i => exact Laws.EncodeKeepsFixedBits.bufRead i
  | bufWrite i b => exact Laws.EncodeKeepsFixedBits.bufWrite i b

section OperandBits
variable (op : Byte) (w : Word)

/-- R101 format B: the low byte. -/
theorem lowWord_byteField_operand : lowWord op ((byteField w).setWidth 16) &&& 0x000000FF = w &&& 0x000000FF := by
  apply BitVec.eq_of_getLsbD_eq
  intro i hi
  interval_cases i <;> simp [lowWord, opWord, byteField]

/-- R101 formats L and S: the low half. -/
theorem lowWord_halfField_operand : lowWord op (halfField w) &&& 0x0000FFFF = w &&& 0x0000FFFF := by
  apply BitVec.eq_of_getLsbD_eq
  intro i hi
  interval_cases i <;> simp [lowWord, opWord, halfField]

/-- R101 format F: the low bit. -/
theorem lowWord_flagField_operand :
    lowWord op (if flagField w then 1 else 0) &&& 0x00000001 = w &&& 0x00000001 := by
  apply BitVec.eq_of_getLsbD_eq
  intro i hi
  cases hflag : w[0] <;> interval_cases i <;> simp [lowWord, opWord, flagField, hflag]

/-- R101 format R: the register number and, where the row frees it, the value. -/
theorem regWord_operand : regWord op (regField w) (halfField w) &&& 0x00FFFFFF = w &&& 0x00FFFFFF := by
  apply BitVec.eq_of_getLsbD_eq
  intro i hi
  interval_cases i <;> simp [regWord, opWord, regField, halfField]

theorem regWord_regField_operand : regWord op (regField w) 0 &&& 0x00FF0000 = w &&& 0x00FF0000 := by
  apply BitVec.eq_of_getLsbD_eq
  intro i hi
  interval_cases i <;> simp [regWord, opWord, regField]

/-- R101 format I: the index and, where the row frees it, the byte. -/
theorem indexWord_operand : indexWord op (indexField w) (byteField w) &&& 0x00FFFFFF = w &&& 0x00FFFFFF := by
  apply BitVec.eq_of_getLsbD_eq
  intro i hi
  interval_cases i <;> simp [indexWord, opWord, indexField, byteField]

theorem indexWord_indexField_operand : indexWord op (indexField w) 0 &&& 0x00FFFF00 = w &&& 0x00FFFF00 := by
  apply BitVec.eq_of_getLsbD_eq
  intro i hi
  interval_cases i <;> simp [indexWord, opWord, indexField]

end OperandBits

/-- R101: zero extension to 32 bits keeps the length field. -/
theorem setWidth_lengthField (w : Word) : (lengthField w).setWidth 16 = halfField w := by
  rw [lengthField, BitVec.setWidth_setWidth_of_le _ (by decide), BitVec.setWidth_eq]

/-- R101: sign extension to 32 bits keeps the delta field. -/
theorem setWidth_deltaField (w : Word) : (deltaField w).setWidth 16 = halfField w := by
  apply BitVec.eq_of_getLsbD_eq
  intro i hi
  rw [deltaField, BitVec.getLsbD_setWidth, BitVec.getLsbD_signExtend]
  simp [hi, show i < 32 by omega]

/-- R103: the bits a row does not fix are the operand's, and its command's word has them as they were read. -/
theorem encode_build_operand {r : Row} (hr : r ∈ decodeTable) (w : Word) :
    encode (r.build w) &&& ~~~r.mask = w &&& ~~~r.mask := by
  have hnone (v : Word) : v &&& ~~~(0xFFFFFFFF : Word) = w &&& ~~~(0xFFFFFFFF : Word) := by
    simp
  fin_cases hr
  · exact hnone _
  · exact lowWord_byteField_operand 0x01 w
  · exact hnone _
  · exact (congrArg (lowWord 0x10 · &&& _) (setWidth_lengthField w)).trans (lowWord_halfField_operand 0x10 w)
  · exact lowWord_byteField_operand 0x11 w
  · exact lowWord_flagField_operand 0x12 w
  · exact (congrArg (lowWord 0x13 · &&& _) (setWidth_deltaField w)).trans (lowWord_halfField_operand 0x13 w)
  · exact hnone _
  · exact lowWord_byteField_operand 0x21 w
  · exact hnone _
  · exact regWord_regField_operand 0x30 w
  · exact regWord_operand 0x31 w
  · exact indexWord_indexField_operand 0x32 w
  · exact indexWord_operand 0x33 w

theorem lengthOperandOk_lengthField (w : Word) : lengthOperandOk (lengthField w) = true := by
  rw [lengthOperandOk, setWidth_lengthField]
  exact beq_self_eq_true (lengthField w)

theorem deltaOperandOk_deltaField (w : Word) : deltaOperandOk (deltaField w) = true := by
  rw [deltaOperandOk, setWidth_deltaField]
  exact beq_self_eq_true (deltaField w)

/-- R101: what a row builds is well-formed: a length it reads is zero-extended, a delta sign-extended. -/
theorem wf_build {r : Row} (hr : r ∈ decodeTable) (w : Word) : (r.build w).wf = true := by
  fin_cases hr <;> simp only [Instr.wf, lengthOperandOk_lengthField, deltaOperandOk_deltaField]

/-- Settles O2: the command's word has the row's fixed bits, as the word has, and the word's operand bits. -/
theorem encodeReadsBackDecode : Obligations.EncodeReadsBackDecode := by
  intro w i h
  obtain ⟨r, hr, hadmits, rfl⟩ := (decode_eq_ok_iff w i).mp h
  refine ⟨wf_build hr w, eq_of_masked_eq ?_ (encode_build_operand hr w)⟩
  have hfixed := encode_masked (r.build w)
  rw [fixedBits_build hr] at hfixed
  exact hfixed.trans (beq_iff_eq.mp hadmits).symm

/-! The rows. -/

/-- Settles O3: a word that two rows admit has both rows' opcodes, and no opcode has two rows. -/
theorem noWordMatchesTwoRows : Obligations.NoWordMatchesTwoRows := by
  have hdistinct : decodeTable.Pairwise fun a b => opField a.pattern ≠ opField b.pattern :=
    List.pairwise_map.mp decodeTable_opcodes_nodup
  refine hdistinct.imp_of_mem fun {a b} ha hb hne w => ?_
  rintro ⟨hadmitsA, hadmitsB⟩
  exact hne ((opField_pattern_of_admits ha (beq_iff_eq.mpr hadmitsA)).trans
    (opField_pattern_of_admits hb (beq_iff_eq.mpr hadmitsB)).symm)

end Sys2Proof
end

