-- ==== Sys2Proof/Proofs/CommandOutcomes.lean ====
section
/-! PROOFS. What a step performs, which answer each command can give, and what a refused command leaves
(spec/00_scope.md R4, R19; spec/30_encoding.md R104; spec/60_exceptions.md R280 to R284; spec/70_reset_and_hazards.md
R310 to R313). -/

namespace Sys2Proof.Machine

/-! One step, by the oldest item of the queue. -/

section Step
variable {s : State} {w now : Word} {rest : List HostInput}

/-- R204, R303. -/
theorem step_of_nil (hq : s.queue = []) : step s = .next s := by
  simp only [step, hq]

/-- R310. -/
theorem step_of_reset (hq : s.queue = .reset :: rest) : step s = .next (blockReset rest s) := by
  simp only [step, hq]

/-- R4, R19, R91. -/
theorem step_of_decode_ok {i : Instr} (hq : s.queue = .command w now :: rest) (hd : decode w = .ok i) :
    step s = exec i (present now rest s) := by
  simp only [step, hq, hd]

/-- R104. -/
theorem step_of_decode_error {e : DecodeError} (hq : s.queue = .command w now :: rest)
    (hd : decode w = .error e) : step s = .next (answered .badCmd 0 (present now rest s)) := by
  simp only [step, hq, hd]
  rfl

end Step

/-- Settles O5: the step of a word that decodes. -/
theorem stepPerformsTheDecodedCommand : Obligations.StepPerformsTheDecodedCommand :=
  fun _ _ _ _ _ => step_of_decode_ok

/-- R102: the opcode ranges that no row has. -/
def reservedOpcode (op : Byte) : Prop :=
  (0x03 ≤ op.toNat ∧ op.toNat ≤ 0x0F) ∨ (0x14 ≤ op.toNat ∧ op.toNat ≤ 0x1F) ∨
    (0x23 ≤ op.toNat ∧ op.toNat ≤ 0x2F) ∨ 0x34 ≤ op.toNat

theorem not_reservedOpcode_of_mem : ∀ r ∈ decodeTable, ¬ reservedOpcode (opField r.pattern) := by
  unfold reservedOpcode
  decide

/-- R104: no row has a reserved opcode. -/
theorem opField_pattern_ne_of_reserved {w : Word} (h : reservedOpcode (opField w)) :
    ∀ r ∈ decodeTable, opField r.pattern ≠ opField w :=
  fun r hr heq => not_reservedOpcode_of_mem r hr (heq ▸ h)

/-- Settles O6: a word no row admits is refused, and a row admits only words with its own opcode. -/
theorem illegalWordAnswersBadCmd : Obligations.IllegalWordAnswersBadCmd := by
  refine ⟨fun s w now rest hq hnone => ?_, fun w hop => ?_⟩
  · exact step_of_decode_error hq
      (decode_eq_rejection fun r hr => Bool.eq_false_iff.mpr fun h => hnone r hr (beq_iff_eq.mp h))
  · have hne := opField_pattern_ne_of_reserved (w := w) hop
    exact ⟨fun r hr h => hne r hr (opField_pattern_of_admits hr (beq_iff_eq.mpr h)),
      decode_eq_reservedOpcode hne⟩

/-- Settles O7: a step with nothing issued answers the same state, so any number of them does. -/
theorem idleBlockChangesNothing : Obligations.IdleBlockChangesNothing := by
  intro s k hq
  induction k with
  | zero => exact run_zero s
  | succ k ih => exact (run_succ (step_of_nil hq) k).trans ih

/-- R280: every arm of `exec` answers a next state. -/
theorem exec_completes (i : Instr) (s : State) : ∃ t, exec i s = .next t := by
  cases i <;> exact ⟨_, rfl⟩

/-- Settles O8: a step waits, resets the block, performs a command, or answers BAD_CMD. -/
theorem everyStepCompletes : Obligations.EveryStepCompletes := by
  intro s
  match hq : s.queue with
  | [] => exact ⟨s, step_of_nil hq⟩
  | .reset :: rest => exact ⟨_, step_of_reset hq⟩
  | .command w now :: rest =>
    cases hd : decode w with
    | ok i => exact (step_of_decode_ok hq hd) ▸ exec_completes i (present now rest s)
    | error e => exact ⟨_, step_of_decode_error hq hd⟩

/-- R32: what makes up the reset values, whatever stands in the buffer, on the ports and in the parameters. -/
theorem hasResetValues_of_reset {s : State} {draws : Nat} {out : List Byte} (hrx : s.rx = Receiver.reset draws)
    (htx : s.tx = Sender.reset out) (haux : s.auxCrc = 0) (herr : s.lastErr = .ok) : hasResetValues s := by
  unfold hasResetValues
  rw [hrx, htx, haux, herr]
  exact ⟨rfl, rfl, rfl, rfl, rfl, rfl, rfl, rfl, rfl, rfl, rfl, rfl, rfl, rfl, rfl, rfl, rfl, rfl, rfl, rfl,
    rfl, rfl⟩

/-- Settles O9: the step of a reset item is `blockReset`. -/
theorem resetRestoresTheTableValues : Obligations.ResetRestoresTheTableValues :=
  ⟨fun _ _ hq => ⟨_, step_of_reset hq, hasResetValues_of_reset rfl rfl rfl rfl, rfl, rfl, rfl⟩,
    hasResetValues_of_reset rfl rfl rfl rfl, rfl⟩

/-! The answers. -/

/-- R284: the errors a command can answer. -/
def refusals : Instr → List ErrCode
  | .txStart _ => [.txBusy, .txLen]
  | .txByte _ => [.txNotOpen, .txOverrun]
  | .txEnd _ => [.txNotOpen, .txBusy]
  | .txCopy _ => [.txBusy, .copyIllegal, .txLen]
  | .regRead _ => [.badReg]
  | .regWrite _ _ => [.badReg, .readOnly]
  | .bufRead _ => [.badIndex]
  | .bufWrite _ _ => [.badIndex]
  | .nop | .rxByte _ | .rxReset | .crcRestart | .crcAdd _ | .crcValue => []

/-- R227, R283: what a refused command leaves beside its answer. -/
def afterRefusal (e : ErrCode) (s : State) : State := if e = .txOverrun then { s with tx.ovr := true } else s

/-- R283, R284: a command is performed, or refused with one of its errors and nothing else changed. -/
inductive ExecAnswer (i : Instr) (s : State) : State → Prop
  | performed (d : Word) (u : State) : ExecAnswer i s (answered .ok d u)
  | refused {e : ErrCode} (he : e ∈ refusals i) : ExecAnswer i s (answered e 0 (afterRefusal e s))

/-! The commands that can be refused, by their cases. -/

section Cases
variable {s t : State}

/-- R224. -/
theorem exec_txStart_cases {n : Word} (h : exec (.txStart n) s = .next t) :
    (s.tx.isOpen = true ∧ t = answered .txBusy 0 s) ∨ t = answered .txLen 0 s ∨
      (s.tx.isOpen = false ∧ n.toNat ≤ s.p.maxPacket ∧
        t = answered .ok 0 { s with tx := txBegin s.p (n.setWidth 14) s.tx }) := by
  cases hopen : s.tx.isOpen
  · obtain hn | hn := Nat.lt_or_ge s.p.maxPacket n.toNat
    · cases (exec_txStart_of_tooLong hopen hn).symm.trans h
      exact .inr (.inl rfl)
    · cases (exec_txStart_of_closed hopen hn).symm.trans h
      exact .inr (.inr ⟨rfl, hn, rfl⟩)
  · cases (exec_txStart_of_open n hopen).symm.trans h
    exact .inl ⟨rfl, rfl⟩

/-- R226, R227. -/
theorem exec_txByte_cases {b : Byte} (h : exec (.txByte b) s = .next t) :
    t = answered .txNotOpen 0 s ∨ t = answered .txOverrun 0 { s with tx.ovr := true } ∨
      (s.tx.remain ≠ 0 ∧ t = answered .ok 0 { s with tx := payloadSent s.p b s.tx }) := by
  cases hopen : s.tx.isOpen
  · cases (exec_txByte_of_closed b hopen).symm.trans h
    exact .inl rfl
  · by_cases hremain : s.tx.remain = 0
    · cases (exec_txByte_of_overrun b hopen hremain).symm.trans h
      exact .inr (.inl rfl)
    · cases (exec_txByte_of_owed b hopen hremain).symm.trans h
      exact .inr (.inr ⟨hremain, rfl⟩)

/-- R232. -/
theorem exec_txEnd_cases {f : Bool} (h : exec (.txEnd f) s = .next t) :
    t = answered .txNotOpen 0 s ∨ t = answered .txBusy 0 s ∨
      (s.tx.copy = false ∧ t = answered .ok 0 { s with tx := closedFrame s.p f s.tx }) := by
  cases hopen : s.tx.isOpen
  · cases (exec_txEnd_of_closed f hopen).symm.trans h
    exact .inl rfl
  · cases hcopy : s.tx.copy
    · cases (exec_txEnd_of_open f hopen hcopy).symm.trans h
      exact .inr (.inr ⟨rfl, rfl⟩)
    · cases (exec_txEnd_of_relay f hopen hcopy).symm.trans h
      exact .inr (.inl rfl)

/-- R238, R240: the sender after a relay of length `n` is opened. -/
def relayOpened (s : State) (n : Int) : Sender where
  out := s.tx.out ++ markerBytes s.p ++ stuffAll s.p (relayHead (BitVec.ofInt 14 n) s.rx)
  crc := crcOf s.p.crcPoly crcSeed (relayHead (BitVec.ofInt 14 n) s.rx)
  remain := BitVec.ofInt 14 (n - s.rx.pos.toNat)
  isOpen := true
  copy := true
  ovr := false

/-- R238 to R240. -/
theorem exec_txCopy_cases {d : Word} (h : exec (.txCopy d) s = .next t) :
    (s.tx.isOpen = true ∧ t = answered .txBusy 0 s) ∨ t = answered .copyIllegal 0 s ∨ t = answered .txLen 0 s ∨
      (s.tx.isOpen = false ∧ copyPoint s = true ∧ s.rx.pos.toNat ≤ relayLength d s ∧
        relayLength d s ≤ s.p.maxPacket ∧ t = answered .ok 0 { s with tx := relayOpened s (relayLength d s) }) := by
  cases hopen : s.tx.isOpen
  case true =>
    cases (exec_txCopy_of_open d hopen).symm.trans h
    exact .inl ⟨rfl, rfl⟩
  cases hpoint : copyPoint s
  case false =>
    cases (exec_txCopy_of_not_copyPoint d hopen hpoint).symm.trans h
    exact .inr (.inl rfl)
  obtain hshort | hfits := lt_or_ge (relayLength d s) (s.rx.pos.toNat : Int)
  · cases (exec_txCopy_of_tooShort hopen hpoint hshort).symm.trans h
    exact .inr (.inl rfl)
  · obtain hlong | hmax := lt_or_ge (s.p.maxPacket : Int) (relayLength d s)
    · cases (exec_txCopy_of_tooLong hopen hpoint hfits hlong).symm.trans h
      exact .inr (.inr (.inl rfl))
    · cases (exec_txCopy_of_copyPoint hopen hpoint hfits hmax).symm.trans h
      exact .inr (.inr (.inr ⟨rfl, rfl, hfits, hmax, rfl⟩))

/-- R260. -/
theorem exec_regRead_cases {n : Byte} (h : exec (.regRead n) s = .next t) :
    t = answered .badReg 0 s ∨ ∃ reg, Reg.ofNumber n = some reg ∧ t = answered .ok (reg.read s) s := by
  cases hreg : Reg.ofNumber n with
  | none =>
    cases (exec_regRead_of_reserved s hreg).symm.trans h
    exact .inl rfl
  | some reg =>
    cases (exec_regRead_of_mapped s hreg).symm.trans h
    exact .inr ⟨reg, rfl, rfl⟩

/-- R262. -/
theorem exec_regWrite_cases {n : Byte} {v : Half} (h : exec (.regWrite n v) s = .next t) :
    t = answered .badReg 0 s ∨ t = answered .readOnly 0 s ∨
      ∃ reg u, Reg.ofNumber n = some reg ∧ reg.write? v s = some u ∧ t = answered .ok 0 u := by
  cases hreg : Reg.ofNumber n with
  | none =>
    cases (exec_regWrite_of_reserved hreg).symm.trans h
    exact .inl rfl
  | some reg =>
    cases hwrite : reg.write? v s with
    | none =>
      cases (exec_regWrite_of_readOnly hreg ((Reg.write?_eq_none_iff v s reg).mp hwrite)).symm.trans h
      exact .inr (.inl rfl)
    | some u =>
      cases (exec_regWrite_of_write hreg hwrite).symm.trans h
      exact .inr (.inr ⟨reg, u, rfl, hwrite, rfl⟩)

/-- R264. -/
theorem exec_bufRead_cases {k : Half} (h : exec (.bufRead k) s = .next t) :
    t = answered .badIndex 0 s ∨ t = answered .ok ((memRead k.toNat s.rx).setWidth 32) s := by
  obtain hk | hk := Nat.lt_or_ge k.toNat s.p.bufCap
  · cases (exec_bufRead_of_lt hk).symm.trans h
    exact .inr rfl
  · cases (exec_bufRead_of_badIndex hk).symm.trans h
    exact .inl rfl

/-- R265. -/
theorem exec_bufWrite_cases {k : Half} {b : Byte} (h : exec (.bufWrite k b) s = .next t) :
    t = answered .badIndex 0 s ∨
      (k.toNat < s.p.bufCap ∧ t = answered .ok 0 { s with rx := memWrite k.toNat b s.rx }) := by
  obtain hk | hk := Nat.lt_or_ge k.toNat s.p.bufCap
  · cases (exec_bufWrite_of_lt b hk).symm.trans h
    exact .inr ⟨hk, rfl⟩
  · cases (exec_bufWrite_of_badIndex b hk).symm.trans h
    exact .inl rfl

end Cases

/-- R283, R284: every command that performs answers so. -/
theorem execAnswer_of_exec {i : Instr} {s t : State} (h : exec i s = .next t) : ExecAnswer i s t := by
  cases i with
  | nop => cases h; exact .performed 0 s
  | rxByte b => cases h; exact .performed _ (receive b s).1
  | rxReset => cases h; exact .performed 0 (abort s)
  | txStart n =>
    obtain ⟨-, rfl⟩ | rfl | ⟨-, -, rfl⟩ := exec_txStart_cases h
    · exact .refused (e := .txBusy) (by simp [refusals])
    · exact .refused (e := .txLen) (by simp [refusals])
    · exact .performed _ _
  | txByte b =>
    obtain rfl | rfl | ⟨-, rfl⟩ := exec_txByte_cases h
    · exact .refused (e := .txNotOpen) (by simp [refusals])
    · exact .refused (e := .txOverrun) (by simp [refusals])
    · exact .performed _ _
  | txEnd f =>
    obtain rfl | rfl | ⟨-, rfl⟩ := exec_txEnd_cases h
    · exact .refused (e := .txNotOpen) (by simp [refusals])
    · exact .refused (e := .txBusy) (by simp [refusals])
    · exact .performed _ _
  | txCopy d =>
    obtain ⟨-, rfl⟩ | rfl | rfl | ⟨-, -, -, -, rfl⟩ := exec_txCopy_cases h
    · exact .refused (e := .txBusy) (by simp [refusals])
    · exact .refused (e := .copyIllegal) (by simp [refusals])
    · exact .refused (e := .txLen) (by simp [refusals])
    · exact .performed _ _
  | crcRestart => cases h; exact .performed 0 _
  | crcAdd b => cases h; exact .performed 0 _
  | crcValue => cases h; exact .performed _ s
  | regRead n =>
    obtain rfl | ⟨reg, -, rfl⟩ := exec_regRead_cases h
    · exact .refused (e := .badReg) (by simp [refusals])
    · exact .performed _ _
  | regWrite n v =>
    obtain rfl | rfl | ⟨reg, u, -, -, rfl⟩ := exec_regWrite_cases h
    · exact .refused (e := .badReg) (by simp [refusals])
    · exact .refused (e := .readOnly) (by simp [refusals])
    · exact .performed _ _
  | bufRead k =>
    obtain rfl | rfl := exec_bufRead_cases h
    · exact .refused (e := .badIndex) (by simp [refusals])
    · exact .performed _ _
  | bufWrite k b =>
    obtain rfl | ⟨-, rfl⟩ := exec_bufWrite_cases h
    · exact .refused (e := .badIndex) (by simp [refusals])
    · exact .performed _ _

/-- Settles O51: a refused command by its answer, an illegal word by BAD_CMD. -/
theorem refusedCommandsChangeNothing : Obligations.RefusedCommandsChangeNothing := by
  intro s t w now rest hq hstep herr
  change t = answered t.lastErr 0 (afterRefusal t.lastErr (present now rest s))
  cases hd : decode w with
  | error e =>
    cases (step_of_decode_error hq hd).symm.trans hstep
    rfl
  | ok i =>
    cases execAnswer_of_exec ((step_of_decode_ok hq hd).symm.trans hstep) with
    | performed => exact absurd rfl herr
    | refused => rfl

/-- Settles O52: each command answers OK or one of its errors. -/
theorem commandsReturnOnlyTheirCodes : Obligations.CommandsReturnOnlyTheirCodes := by
  intro i s t h
  have hcode : (∃ d, t.resp = some { err := t.lastErr, data := d }) ∧ t.lastErr ∈ ErrCode.ok :: refusals i := by
    cases execAnswer_of_exec h with
    | performed d => exact ⟨⟨d, rfl⟩, List.mem_cons_self⟩
    | refused he => exact ⟨⟨0, rfl⟩, List.mem_cons_of_mem _ he⟩
  cases i <;> exact hcode

end Sys2Proof.Machine
end

