-- ==== Sys2Proof/Proofs/CrcResidue.lean ====
section
/-! PROOFS. The fold as a linear map, and which errors leave a residue (spec/40_crc.md R154 to R156;
spec/42_transmitter.md R231). -/

namespace Sys2Proof.Machine

/-- Settles O19: the trailer folded into the accumulator it was taken from. -/
theorem ownTrailerLeavesZeroResidue : Obligations.OwnTrailerLeavesZeroResidue := by
  intro poly m c
  simp only [crcOf_append, crcOf_cons, crcOf_nil]
  exact crc16Add_own_trailer poly c

/-! Linearity (R155). -/

/-- The eight turns for a byte are linear over GF(2) in accumulator and byte together, as one turn is. -/
theorem crc16Add_xor (poly c d : Half) (b e : Byte) :
    crc16Add poly (c ^^^ d) (b ^^^ e) = crc16Add poly c b ^^^ crc16Add poly d e := by
  simp only [crc16Add_eq_shifts, BitVec.getLsbD_xor, crcShift_xor]

theorem hiByte_xor (x y : Half) : hiByte (x ^^^ y) = hiByte x ^^^ hiByte y := BitVec.extractLsb'_xor

theorem loByte_xor (x y : Half) : loByte (x ^^^ y) = loByte x ^^^ loByte y := BitVec.extractLsb'_xor

/-- R155: `b << 8`, a byte at the top of an accumulator. -/
theorem hiByte_shiftLeft_eight (b : Byte) : hiByte (b.setWidth 16 <<< 8) = b := by
  apply BitVec.eq_of_getLsbD_eq
  intro i hi
  interval_cases i <;> simp [hiByte]

/-- An accumulator's own high byte is only shifted out, so a fold sees what the byte differs from it by. -/
theorem crc16Add_eq_shift_xor (poly c : Half) (b : Byte) :
    crc16Add poly c b = c <<< 8 ^^^ crc16Add poly 0#16 (hiByte c ^^^ b) := by
  have hsplit : crc16Add poly c b = crc16Add poly (c ^^^ 0#16) (hiByte c ^^^ (hiByte c ^^^ b)) := by
    rw [BitVec.xor_zero, ← BitVec.xor_assoc, BitVec.xor_self, BitVec.zero_xor]
  rw [hsplit, crc16Add_xor, crc16Add_hiByte]

/-- R155: the fold's residue is linear in the trailer that follows an accumulator. -/
theorem crcOf_masked_trailer (poly v s : Half) :
    crcOf poly v [hiByte (v ^^^ s), loByte (v ^^^ s)] = crcOf poly 0#16 [hiByte s, loByte s] := by
  have hsplit : crcOf poly (v ^^^ 0#16) [hiByte (v ^^^ s), loByte (v ^^^ s)] =
      crcOf poly v [hiByte v, loByte v] ^^^ crcOf poly 0#16 [hiByte s, loByte s] := by
    simp only [crcOf_cons, crcOf_nil, hiByte_xor, loByte_xor, crc16Add_xor]
  have hown : crcOf poly v [hiByte v, loByte v] = 0#16 := crc16Add_own_trailer poly v
  rwa [BitVec.xor_zero, hown, BitVec.zero_xor] at hsplit

/-- Settles O21: the fold sees the accumulator's high byte and the byte together. -/
theorem crcFoldIsLinear : Obligations.CrcFoldIsLinear := by
  intro poly g
  refine ⟨fun c b => ?_, fun x y => ?_, crcOf_masked_trailer poly⟩
  · have hgone : b.setWidth 16 <<< 8 <<< 8 = 0#16 := by
      rw [← BitVec.shiftLeft_add]
      exact BitVec.shiftLeft_eq_zero (Nat.le_refl 16)
    change _ = (c ^^^ b.setWidth 16 <<< 8) <<< 8 ^^^ crc16Add poly 0#16 (hiByte (c ^^^ b.setWidth 16 <<< 8))
    rw [crc16Add_eq_shift_xor, BitVec.shiftLeft_xor_distrib, hgone, BitVec.xor_zero, hiByte_xor,
      hiByte_shiftLeft_eight]
  · have hsum : crc16Add poly 0#16 (hiByte x ^^^ hiByte y) =
        crc16Add poly 0#16 (hiByte x) ^^^ crc16Add poly 0#16 (hiByte y) := by
      rw [← crc16Add_xor, BitVec.xor_zero]
    change (x ^^^ y) <<< 8 ^^^ crc16Add poly 0#16 (hiByte (x ^^^ y)) =
      (x <<< 8 ^^^ crc16Add poly 0#16 (hiByte x)) ^^^ (y <<< 8 ^^^ crc16Add poly 0#16 (hiByte y))
    rw [BitVec.shiftLeft_xor_distrib, hiByte_xor, hsum]
    ac_rfl

/-! Turns on zeros: what becomes of a difference once it is in the accumulator. -/

/-- R150: `k` turns of the loop for `k` zero bits. -/
def zeroTurns (poly : Half) (k : Nat) (c : Half) : Half := (fun c => crcShift poly c false)^[k] c

theorem zeroTurns_succ (poly c : Half) (k : Nat) :
    zeroTurns poly (k + 1) c = zeroTurns poly k (crcShift poly c false) := rfl

theorem zeroTurns_add (poly c : Half) (j k : Nat) :
    zeroTurns poly (j + k) c = zeroTurns poly j (zeroTurns poly k c) := Function.iterate_add_apply _ j k c

theorem zeroTurns_of_zero (poly : Half) (k : Nat) : zeroTurns poly k 0#16 = 0#16 := by
  refine Function.iterate_fixed ?_ k
  simp [crcShift]

theorem crc16Add_zero_byte (poly c : Half) : crc16Add poly c 0#8 = zeroTurns poly 8 c := by
  simp only [crc16Add_eq_shifts, zeroTurns, Function.iterate_succ, Function.iterate_zero, Function.comp, id_eq,
    BitVec.getLsbD_zero]

/-- The same bytes folded into two accumulators leave their difference as zeros would turn it. -/
theorem crcOf_xor (poly c d : Half) (xs : List Byte) :
    crcOf poly (c ^^^ d) xs = crcOf poly c xs ^^^ zeroTurns poly (8 * xs.length) d := by
  induction xs generalizing c d with
  | nil => rfl
  | cons x xs ih =>
    have hfirst : crc16Add poly (c ^^^ d) x = crc16Add poly c x ^^^ zeroTurns poly 8 d := by
      rw [← crc16Add_zero_byte, ← crc16Add_xor, BitVec.xor_zero]
    rw [crcOf_cons, crcOf_cons, hfirst, ih, List.length_cons, Nat.mul_succ, zeroTurns_add]

/-- A trailer mask leaves the residue that sixteen turns on zeros make of it. -/
theorem crcOf_mask_eq_zeroTurns (poly s : Half) : crcOf poly 0#16 [hiByte s, loByte s] = zeroTurns poly 16 s := by
  have hsplit : crcOf poly (s ^^^ s) [hiByte s, loByte s] =
      crcOf poly s [hiByte s, loByte s] ^^^ zeroTurns poly 16 s := crcOf_xor poly s s _
  have hown : crcOf poly s [hiByte s, loByte s] = 0#16 := crc16Add_own_trailer poly s
  rwa [BitVec.xor_self, hown, BitVec.zero_xor] at hsplit

/-- An accumulator that is not 0 and has no bit below `j`. -/
def ClearBelow (j : Nat) (c : Half) : Prop := c ≠ 0 ∧ ∀ i < j, c.getLsbD i = false

/-- A turn on a zero bit keeps that, where `j` is the polynomial's lowest bit: the bit shifted out at the top feeds
bit `j` back, and nothing below it. -/
theorem crcShift_clearBelow {poly c : Half} {j : Nat} (hpoly : ClearBelow j poly) (hj : poly.getLsbD j = true)
    (hc : ClearBelow j c) : ClearBelow j (crcShift poly c false) := by
  obtain ⟨hne, hlow⟩ := hc
  have hj16 : j < 16 := BitVec.lt_of_getLsbD hj
  have hshift : ∀ i ≤ j, (c <<< 1).getLsbD i = false := by
    intro i hi
    rw [BitVec.getLsbD_shiftLeft]
    rcases i with _ | i
    · simp
    · simp [hlow i (by omega)]
  cases htop : c.getLsbD 15
  · refine ⟨fun hzero => hne (BitVec.eq_of_getLsbD_eq (y := 0#16) fun i hi => ?_), fun i hi => ?_⟩
    · simp only [crcShift, htop, Bool.xor_false, Bool.false_eq_true, if_false] at hzero
      rw [BitVec.getLsbD_zero]
      obtain rfl | hi' : i = 15 ∨ i < 15 := by omega
      · exact htop
      · have hnext : (c <<< 1).getLsbD (i + 1) = false := by rw [hzero]; simp
        simpa [BitVec.getLsbD_shiftLeft, hi, show i + 1 < 16 by omega] using hnext
    · simp only [crcShift, htop, Bool.xor_false, Bool.false_eq_true, if_false]
      exact hshift i hi.le
  · refine ⟨fun hzero => ?_, fun i hi => ?_⟩
    · have hbit := congrArg (fun x : Half => x.getLsbD j) hzero
      simp [crcShift, htop, hj, hshift j le_rfl] at hbit
    · simp only [crcShift, htop, Bool.xor_false, if_true, BitVec.getLsbD_xor, hshift i hi.le, hpoly.2 i hi]

theorem zeroTurns_clearBelow {poly c : Half} {j : Nat} (hpoly : ClearBelow j poly) (hj : poly.getLsbD j = true)
    (hc : ClearBelow j c) (k : Nat) : ClearBelow j (zeroTurns poly k c) := by
  induction k generalizing c with
  | zero => exact hc
  | succ k ih => exact ih (crcShift_clearBelow hpoly hj hc)

/-- An odd polynomial turns no difference into 0. -/
theorem zeroTurns_ne_zero_of_odd {poly c : Half} (hodd : poly.getLsbD 0 = true) (hc : c ≠ 0) (k : Nat) :
    zeroTurns poly k c ≠ 0 := by
  have hpoly : poly ≠ 0 := by
    rintro rfl
    simp at hodd
  exact (zeroTurns_clearBelow (j := 0) ⟨hpoly, nofun⟩ hodd ⟨hc, nofun⟩ k).1

/-! Masked trailers (R156 (a)). -/

/-- R156 (a): with an odd polynomial a masked trailer is seen. -/
theorem crcOf_masked_trailer_ne_zero {poly v s : Half} (hodd : poly.getLsbD 0 = true) (hs : s ≠ 0) :
    crcOf poly v [hiByte (v ^^^ s), loByte (v ^^^ s)] ≠ 0 := by
  rw [crcOf_masked_trailer, crcOf_mask_eq_zeroTurns]
  exact zeroTurns_ne_zero_of_odd hodd hs 16

/-- The accumulator that one turn of an even polynomial cancels. -/
def cancelled (poly : Half) : Half := poly >>> 1 ||| 0x8000

theorem cancelled_ne_zero (poly : Half) : cancelled poly ≠ 0 := by
  intro h
  have hbit := congrArg (fun x : Half => x.getLsbD 15) h
  simp [cancelled] at hbit

theorem crcShift_cancelled {poly : Half} (heven : poly.getLsbD 0 = false) :
    crcShift poly (cancelled poly) false = 0#16 := by
  have htop : (cancelled poly).getLsbD 15 = true := by simp [cancelled]
  have hshift : cancelled poly <<< 1 = poly := by
    apply BitVec.eq_of_getLsbD_eq
    intro i hi
    obtain rfl | hpos := Nat.eq_zero_or_pos i
    · simpa using heven.symm
    · interval_cases i <;> simp [cancelled]
  simp [crcShift, htop, hshift]

/-- Settles O22: an odd polynomial loses no mask, and an even one loses the accumulator its first turn cancels. -/
theorem maskedTrailerIsSeenIffPolyIsOdd : Obligations.MaskedTrailerIsSeenIffPolyIsOdd := by
  intro poly
  refine ⟨fun hseen => ?_, fun hodd v s hs => crcOf_masked_trailer_ne_zero hodd hs⟩
  by_contra heven
  refine hseen 0 (cancelled poly) (cancelled_ne_zero poly) ?_
  rw [crcOf_masked_trailer, crcOf_mask_eq_zeroTurns, zeroTurns_succ,
    crcShift_cancelled (Bool.eq_false_iff.mpr heven), zeroTurns_of_zero]
  rfl

/-! Single bits (R156 (c)). -/

/-- R150: a single bit feeds the polynomial in at its turn, and the turns after it are on zeros. -/
theorem crc16Add_single_bit (poly : Half) {k : Nat} (hk : k < 8) :
    crc16Add poly 0#16 (1#8 <<< k) = zeroTurns poly k poly := by
  interval_cases k <;> simp [crc16Add_eq_shifts, crcShift, zeroTurns]

/-- Every polynomial but 0 has a lowest bit. -/
theorem exists_lowest_bit {poly : Half} (h : poly ≠ 0) : ∃ j, poly.getLsbD j = true ∧ ClearBelow j poly := by
  have hbit : ∃ j, poly.getLsbD j = true := by
    by_contra hnone
    refine h (BitVec.eq_of_getLsbD_eq fun i _ => ?_)
    simpa using not_exists.mp hnone i
  exact ⟨Nat.find hbit, Nat.find_spec hbit, h, fun i hi => Bool.eq_false_iff.mpr (Nat.find_min hbit hi)⟩

/-- Settles O23: the flipped bit feeds the polynomial in, and no number of turns on zeros makes 0 of it. -/
theorem singleBitErrorIsSeen : Obligations.SingleBitErrorIsSeen := by
  intro poly before after x k hpoly hk haccepted
  obtain ⟨j, hj, hlow⟩ := exists_lowest_bit hpoly
  rw [crcOf_append, crcOf_cons] at haccepted ⊢
  generalize crcOf poly 0 before = c at haccepted ⊢
  have hresidue : crcOf poly (crc16Add poly c x) after = 0#16 := haccepted
  have hflip : crc16Add poly c (x ^^^ 1#8 <<< k) = crc16Add poly c x ^^^ zeroTurns poly k poly := by
    rw [← crc16Add_single_bit poly hk, ← crc16Add_xor, BitVec.xor_zero]
  rw [hflip, crcOf_xor, hresidue, BitVec.zero_xor, ← zeroTurns_add]
  exact (zeroTurns_clearBelow hlow hj hlow _).1

/-! Marked frames (R231). -/

/-- R156, R231: with an odd polynomial the far end accepts only the trailer of its own accumulator. -/
theorem crcOf_trailer_eq_zero_iff {poly c trailer : Half} (hodd : poly.getLsbD 0 = true) :
    crcOf poly c [hiByte trailer, loByte trailer] = 0 ↔ trailer = c := by
  constructor
  · intro h
    by_contra hne
    have hmask : c ^^^ trailer ≠ 0 := fun hzero => hne (BitVec.xor_eq_zero_iff.mp hzero).symm
    have hresidue := crcOf_masked_trailer_ne_zero (v := c) hodd hmask
    rw [← BitVec.xor_assoc, BitVec.xor_self, BitVec.zero_xor] at hresidue
    exact hresidue h
  · rintro rfl
    exact crc16Add_own_trailer poly trailer

/-- R11 (d): in XOR mode neither mask is 0. -/
theorem xor_masks_ne_zero {inst : Config.Instance} {brkBroken brkTrunc : Half}
    (hmode : inst.params.breakMode = .xor brkBroken brkTrunc) : brkBroken ≠ 0 ∧ brkTrunc ≠ 0 := by
  have hwf := inst.wf
  simp only [Config.Params.wf, hmode, Config.BreakMode.wf, Bool.and_eq_true, bne_iff_ne] at hwf
  exact hwf.2

/-- R230: the trailer of a frame marked as truncated or broken, in FOLD mode. -/
theorem closingMark_fold_marked {p : Config.Params} {brkBroken brkTrunc : Byte}
    (hmode : p.breakMode = .fold brkBroken brkTrunc) {trunc broken : Bool}
    (hmarked : trunc = true ∨ broken = true) (c : Half) :
    (closingMark p trunc broken c).2 = crc16Add p.crcPoly c (if trunc = true then brkTrunc else brkBroken) := by
  obtain ⟨htrunc, hbroken, -⟩ := closingMark_of_fold hmode c
  cases trunc
  · obtain rfl : broken = true := hmarked.resolve_left (by simp)
    rw [hbroken]
    rfl
  · rw [htrunc]
    rfl

/-- R230: and in XOR mode. -/
theorem closingMark_xor_marked {p : Config.Params} {brkBroken brkTrunc : Half}
    (hmode : p.breakMode = .xor brkBroken brkTrunc) {trunc broken : Bool}
    (hmarked : trunc = true ∨ broken = true) (c : Half) :
    (closingMark p trunc broken c).2 = c ^^^ (if trunc = true then brkTrunc else brkBroken) := by
  obtain ⟨htrunc, hbroken, -⟩ := closingMark_of_xor hmode c
  cases trunc
  · obtain rfl : broken = true := hmarked.resolve_left (by simp)
    rw [hbroken]
    rfl
  · rw [htrunc]
    rfl

/-- R230: a clean frame's trailer is its own accumulator. -/
theorem closingMark_clean (p : Config.Params) (c : Half) : (closingMark p false false c).2 = c := by
  unfold closingMark
  cases p.breakMode <;> rfl

/-- Settles O33: a far end accepts only its own accumulator as the trailer; the marks are those of `closingMark`. -/
theorem farEndSeesTheMark : Obligations.FarEndSeesTheMark := by
  intro inst trunc broken c
  refine ⟨?clean, fun hmarked hodd => ?marked⟩
  case clean =>
    rintro rfl rfl
    rw [closingMark_clean]
    exact crc16Add_own_trailer _ c
  case marked =>
    rw [crcOf_trailer_eq_zero_iff hodd]
    split
    next hmode => rw [closingMark_fold_marked hmode hmarked]
    next hmode =>
      obtain ⟨hbroken, htrunc⟩ := xor_masks_ne_zero hmode
      rw [closingMark_xor_marked hmode hmarked, ne_eq, crcOf_trailer_eq_zero_iff hodd]
      refine mt xor_left_eq_self_iff.mp ?_
      split
      · exact htrunc
      · exact hbroken

end Sys2Proof.Machine
end

