-- ==== Sys2Proof/Proofs/SenderSteps.lean ====
section
/-! PROOFS. What a command can do to the sender (spec/42_transmitter.md R220 to R244): keep it, flag an overrun, send
a payload byte, open a frame, or close one; and when it ends a relay. -/

namespace Sys2Proof.Machine

/-- What a command in the state `s` can make of the sender. -/
inductive SenderStep (s : State) : Sender → Prop
  | keeps : SenderStep s s.tx
  /-- R227. -/
  | overruns : SenderStep s { s.tx with ovr := true }
  /-- R228. -/
  | sends (v : Byte) (howed : s.tx.remain ≠ 0) : SenderStep s (payloadSent s.p v s.tx)
  /-- R223, R238: only TX_COPY opens a relay, at a copy point. -/
  | opens (hclosed : s.tx.isOpen = false) (xs : List Byte) (crc : Half) (n : BitVec 14) (copy : Bool)
      (hn : n.toNat ≤ s.p.maxPacket) (hcopy : copy = true → copyPoint s = true) :
      SenderStep s
        { out := s.tx.out ++ xs, crc := crc, remain := n, isOpen := true, copy := copy, ovr := false }
  /-- R230. -/
  | closes (broken : Bool) : SenderStep s (closedFrame s.p broken s.tx)

/-- R191, R192. -/
theorem senderStep_relayEnded (s : State) (broken : Bool) : SenderStep s (relayEnded s.p broken s.tx) := by
  unfold relayEnded
  split
  · exact .closes broken
  · exact .keeps

/-- R189. -/
theorem senderStep_forwarded (s : State) (v : Byte) : SenderStep s (forwarded s.p v s.tx) := by
  unfold forwarded
  split
  · split
    next => exact .overruns
    next howed => exact .sends v howed
  · exact .keeps

/-! A received byte. -/

/-- R189 to R192: an arm forwards a payload byte, or ends a relay with the second trailer byte. -/
theorem rxArm_tx (v : Byte) (s : State) :
    (rxArm v s).1.tx = s.tx ∨ (rxArm v s).1.tx = forwarded s.p v s.tx ∨
      s.rx.state = .crc2 ∧ ∃ broken, (rxArm v s).1.tx = relayEnded s.p broken s.tx := by
  have hdata (q : State) : (dataArm v q).1.tx = forwarded q.p v q.tx := by rw [dataArm_eq]
  cases hstate : s.rx.state
  case idle =>
    obtain ⟨r, h⟩ := idleArm_frame v s
    exact .inl (by rw [rxArm_of_idle v hstate, h])
  case len1 =>
    obtain ⟨r, h⟩ := len1Arm_frame v s
    exact .inl (by rw [rxArm_of_len1 v hstate, h])
  case len2 => exact .inl (by rw [rxArm_of_len2 v hstate]; rfl)
  case data0 =>
    rw [rxArm_of_data0 v hstate, data0Arm]
    split
    · exact .inl rfl
    · split
      · exact .inl rfl
      · exact .inr (.inl (hdata _))
  case data => exact .inr (.inl (by rw [rxArm_of_data v hstate, hdata]))
  case crc1 => exact .inl (by rw [rxArm_of_crc1 v hstate]; rfl)
  case crc2 =>
    rw [rxArm_of_crc2 v hstate, crc2Arm_eq]
    split
    · exact .inr (.inr ⟨rfl, false, rfl⟩)
    · exact .inr (.inr ⟨rfl, true, rfl⟩)
  case error => exact .inl (by rw [rxArm_of_error v hstate])

/-- R175: the stuffing layer takes a byte itself only where it decodes. -/
theorem stuffingActive_of_delivered_eq_none {s : State} {b : Byte} (h : delivered s b = none) :
    stuffingActive s = true := by
  by_contra hoff
  rw [delivered_of_not_stuffingActive b (Bool.eq_false_iff.mpr hoff)] at h
  cases h

/-- R242: the bytes that end an open relay. -/
def endsUpstreamFrame (s : State) (b : Byte) : Prop :=
  ¬ inTime s ∨ (stuffingActive s = true ∧ b = s.p.marker) ∨
    (s.rx.state = .crc2 ∧ (delivered s b).isSome = true)

/-- R173, R175, R189 to R192: what a received byte does to the sender. -/
theorem receive_tx (b : Byte) (s : State) :
    (receive b s).1.tx = s.tx ∨ (∃ v, (receive b s).1.tx = forwarded s.p v s.tx) ∨
      endsUpstreamFrame s b ∧ ∃ broken, (receive b s).1.tx = relayEnded s.p broken s.tx := by
  by_cases hin : inTime s
  · rw [receive_of_inTime b hin]
    cases hv : delivered s b with
    | some v =>
      obtain h | h | ⟨hstate, broken, h⟩ := rxArm_tx v (atArm s)
      · exact .inl h
      · exact .inr (.inl ⟨v, h⟩)
      · exact .inr (.inr ⟨.inr (.inr ⟨hstate, by rw [hv]; rfl⟩), broken, h⟩)
    | none =>
      by_cases hb : b = s.p.marker
      · dsimp only
        rw [if_pos hb]
        exact .inr (.inr ⟨.inr (.inl ⟨stuffingActive_of_delivered_eq_none hv, hb⟩), true, rfl⟩)
      · dsimp only
        rw [if_neg hb]
        exact .inl rfl
  · rw [receive_of_late b hin]
    obtain ⟨r, h⟩ := idleArm_frame b (afterTimeout s)
    rw [h]
    exact .inr (.inr ⟨.inl hin, true, rfl⟩)

theorem senderStep_receive (b : Byte) (s : State) : SenderStep s (receive b s).1.tx := by
  obtain h | ⟨v, h⟩ | ⟨-, broken, h⟩ := receive_tx b s
  · exact h ▸ .keeps
  · exact h ▸ senderStep_forwarded s v
  · exact h ▸ senderStep_relayEnded s broken

/-! Every command. -/

/-- R56: a register write keeps the sender. -/
theorem Reg.write?_tx {v : Half} {s u : State} {reg : Reg} (h : reg.write? v s = some u) : u.tx = s.tx := by
  obtain ⟨r, rfl⟩ := Reg.write?_frame h
  rfl

theorem senderStep_txStart {n : Word} {s t : State} (h : exec (.txStart n) s = .next t) : SenderStep s t.tx := by
  obtain ⟨-, rfl⟩ | rfl | ⟨hclosed, hn, rfl⟩ := exec_txStart_cases h
  · exact .keeps
  · exact .keeps
  · have hlen : (n.setWidth 14).toNat ≤ s.p.maxPacket := by
      rw [BitVec.toNat_setWidth]
      exact (Nat.mod_le _ _).trans hn
    change SenderStep s (txBegin s.p (n.setWidth 14) s.tx)
    rw [txBegin_eq, List.append_assoc]
    exact .opens hclosed _ _ _ false hlen nofun

theorem senderStep_relayOpened {d : Word} {s : State} (hclosed : s.tx.isOpen = false) (hpoint : copyPoint s = true)
    (hfits : s.rx.pos.toNat ≤ relayLength d s) (hmax : relayLength d s ≤ s.p.maxPacket) :
    SenderStep s (relayOpened s (relayLength d s)) := by
  have howed : ((BitVec.ofInt 14 (relayLength d s - s.rx.pos.toNat)).toNat : Int) =
      relayLength d s - s.rx.pos.toNat := toNat_ofInt_length (s := s) (by omega) (by omega)
  rw [relayOpened, List.append_assoc]
  exact .opens hclosed _ _ _ true (by omega) fun _ => hpoint

/-- R220: every command takes such a step with the sender. -/
theorem senderStep_of_exec {i : Instr} {s t : State} (h : exec i s = .next t) : SenderStep s t.tx := by
  cases i with
  | nop => cases h; exact .keeps
  | rxByte b => cases h; exact senderStep_receive b s
  | rxReset => cases (exec_rxReset s).symm.trans h; exact senderStep_relayEnded s true
  | txStart n => exact senderStep_txStart h
  | txByte b =>
    obtain rfl | rfl | ⟨howed, rfl⟩ := exec_txByte_cases h
    · exact .keeps
    · exact .overruns
    · exact .sends b howed
  | txEnd f =>
    obtain rfl | rfl | ⟨-, rfl⟩ := exec_txEnd_cases h
    · exact .keeps
    · exact .keeps
    · exact .closes f
  | txCopy d =>
    obtain ⟨-, rfl⟩ | rfl | rfl | ⟨hclosed, hpoint, hfits, hmax, rfl⟩ := exec_txCopy_cases h
    · exact .keeps
    · exact .keeps
    · exact .keeps
    · exact senderStep_relayOpened hclosed hpoint hfits hmax
  | crcRestart => cases h; exact .keeps
  | crcAdd b => cases h; exact .keeps
  | crcValue => cases h; exact .keeps
  | regRead n =>
    obtain rfl | ⟨reg, -, rfl⟩ := exec_regRead_cases h
    · exact .keeps
    · exact .keeps
  | regWrite n v =>
    obtain rfl | rfl | ⟨reg, u, -, hwrite, rfl⟩ := exec_regWrite_cases h
    · exact .keeps
    · exact .keeps
    · change SenderStep s u.tx
      exact Reg.write?_tx hwrite ▸ .keeps
  | bufRead k =>
    obtain rfl | rfl := exec_bufRead_cases h
    · exact .keeps
    · exact .keeps
  | bufWrite k b =>
    obtain rfl | ⟨-, rfl⟩ := exec_bufWrite_cases h
    · exact .keeps
    · exact .keeps

/-! What has been put out, and how frames close. -/

/-- R92, R220: no command takes a byte back. -/
theorem SenderStep.out_prefix {s : State} {x : Sender} (h : SenderStep s x) : s.tx.out <+: x.out := by
  cases h with
  | keeps | overruns => exact List.prefix_rfl
  | sends | closes => exact List.prefix_append _ _
  | opens => exact List.prefix_append _ _

/-- R233: a frame closes only as `tx_close` closes it. -/
theorem SenderStep.eq_closedFrame {s : State} {x : Sender} (h : SenderStep s x) (hopen : s.tx.isOpen = true)
    (hclosed : x.isOpen = false) : ∃ broken, x = closedFrame s.p broken s.tx := by
  cases h with
  | keeps | overruns | sends => exact absurd (hopen.symm.trans hclosed) nofun
  | opens => cases hclosed
  | closes broken => exact ⟨broken, rfl⟩

/-- Settles O31: a reset keeps the output, and a command takes one of the sender's steps. -/
theorem framesCloseWithATrailer : Obligations.FramesCloseWithATrailer := by
  refine ⟨fun s t h => ?_, fun i s t h => (senderStep_of_exec h).eq_closedFrame⟩
  obtain ⟨-, rfl⟩ | ⟨rest, -, rfl⟩ | ⟨w, now, rest, -, ⟨i, -, hexec⟩ | ⟨e, -, rfl⟩⟩ := step_cases h
  case inl => exact List.prefix_rfl
  case inr.inl => exact List.prefix_rfl
  case inr.inr.inl => exact (senderStep_of_exec hexec).out_prefix
  case inr.inr.inr => exact List.prefix_rfl

/-! How a relay ends. -/

theorem forwarded_copy (p : Config.Params) (v : Byte) (t : Sender) : (forwarded p v t).copy = t.copy := by
  unfold forwarded
  split
  · split <;> rfl
  · rfl

/-- R242: a received byte ends an open relay only with the upstream frame. -/
theorem endsUpstreamFrame_of_relay_ended {b : Byte} {s : State} (hopen : s.tx.copy = true)
    (hended : (receive b s).1.tx.copy = false) : endsUpstreamFrame s b := by
  obtain h | ⟨v, h⟩ | ⟨hends, -⟩ := receive_tx b s
  · rw [h] at hended
    exact absurd (hopen.symm.trans hended) nofun
  · rw [h, forwarded_copy] at hended
    exact absurd (hopen.symm.trans hended) nofun
  · exact hends

/-- R224, R232, R238: no command of the transmitter ends an open relay, and no other command but RX_BYTE and
RX_RESET does. -/
theorem exec_keeps_copy {i : Instr} {s t : State} (h : exec i s = .next t) (hbyte : ∀ b, i ≠ .rxByte b)
    (hreset : i ≠ .rxReset) (hopen : s.tx.isOpen = true) (hcopy : s.tx.copy = true) : t.tx.copy = true := by
  cases i with
  | rxByte b => exact absurd rfl (hbyte b)
  | rxReset => exact absurd rfl hreset
  | txStart n =>
    cases (exec_txStart_of_open n hopen).symm.trans h
    exact hcopy
  | txByte b =>
    obtain rfl | rfl | ⟨-, rfl⟩ := exec_txByte_cases h <;> exact hcopy
  | txEnd f =>
    cases (exec_txEnd_of_relay f hopen hcopy).symm.trans h
    exact hcopy
  | txCopy d =>
    cases (exec_txCopy_of_open d hopen).symm.trans h
    exact hcopy
  | nop | crcRestart | crcAdd | crcValue => cases h; exact hcopy
  | regRead n => obtain rfl | ⟨reg, -, rfl⟩ := exec_regRead_cases h <;> exact hcopy
  | regWrite n v =>
    obtain rfl | rfl | ⟨reg, u, -, hwrite, rfl⟩ := exec_regWrite_cases h
    · exact hcopy
    · exact hcopy
    · exact (congrArg Sender.copy (Reg.write?_tx hwrite)).trans hcopy
  | bufRead k => obtain rfl | rfl := exec_bufRead_cases h <;> exact hcopy
  | bufWrite k b => obtain rfl | ⟨-, rfl⟩ := exec_bufWrite_cases h <;> exact hcopy

/-- Settles O32: of all commands only RX_RESET and RX_BYTE can, and RX_BYTE only with the upstream frame. -/
theorem relayEndsOnlyWithTheUpstreamFrame : Obligations.RelayEndsOnlyWithTheUpstreamFrame := by
  intro i s t h hcopy hended hopen
  by_contra hcon
  rw [not_or, not_exists] at hcon
  obtain ⟨hreset, hbyte⟩ := hcon
  by_cases hi : ∃ b, i = .rxByte b
  · obtain ⟨b, rfl⟩ := hi
    cases h
    exact hbyte b ⟨rfl, endsUpstreamFrame_of_relay_ended hcopy hended⟩
  · rw [exec_keeps_copy h (not_exists.mp hi) hreset hopen hcopy] at hended
    cases hended

end Sys2Proof.Machine
end

