-- ==== Sys2Proof/Proofs/Invariant.lean ====
section
/-! PROOFS. The invariant of the reachable states (spec/10_state.md, spec/41_receiver.md R205): what it says of the
receiver in each of its states, of the sender, and of a relay between the two; and that every step keeps it. -/

namespace Sys2Proof.Machine

/-! The invariant in three parts. -/

/-- R176, R185: no payload byte counted and no milestone fired. -/
def AtHead (r : Receiver) : Prop := r.pos = 0 ∧ r.hdrFired = false ∧ r.readFired = false

theorem AtHead.pos_toNat {r : Receiver} (h : AtHead r) : r.pos.toNat = 0 := congrArg BitVec.toNat h.1

/-- R33, R40, R205: what holds of the receiver in each of its states. -/
def PhaseOk (p : Config.Params) (r : Receiver) : Prop :=
  match r.state with
  | .idle => r.esc = false ∧ r.pos.toNat ≤ r.len.toNat ∧ r.pos.toNat ≤ p.maxPacket
  | .len1 => (r.esc = true → p.stuffEn = true) ∧ AtHead r ∧ p.markerEn = true
  | .len2 => (r.esc = true → p.stuffEn = true) ∧ AtHead r ∧ p.longLen = true ∧ r.len.toNat ≤ 127
  | .data0 => (r.esc = true → p.stuffEn = true) ∧ AtHead r
  | .data =>
    (r.esc = true → p.stuffEn = true) ∧ (1 ≤ r.pos.toNat ∧ r.pos.toNat < r.len.toNat) ∧ r.len.toNat ≤ p.maxPacket
  | .crc1 | .crc2 => (r.esc = true → p.stuffEn = true) ∧ r.pos.toNat = r.len.toNat ∧ r.len.toNat ≤ p.maxPacket
  | .error => r.esc = false ∧ AtHead r ∧ p.maxPacket < r.len.toNat

/-- R37, R80, R88: what holds of what the receiver has stored. -/
structure StoreOk (p : Config.Params) (r : Receiver) : Prop where
  canonical : Memory.wf r.buf = true
  within : Memory.within p.bufCap r.buf = true
  flen : r.flen.toNat ≤ p.maxPacket

/-- R46, R47, R233: what holds of the sender. -/
structure SenderOk (p : Config.Params) (t : Sender) : Prop where
  remain : t.remain.toNat ≤ p.maxPacket
  copyOpen : t.copy = true → t.isOpen = true
  owesNothing : t.isOpen = false → t.remain = 0

/-- R239, R242: where the receiver stands while a relay is open. -/
def RelayOk (r : Receiver) (t : Sender) : Prop :=
  t.copy = true → (r.state = .data ∨ r.state = .crc1 ∨ r.state = .crc2) ∧ r.hdrFired = true

/-- What the invariant says of the receiver in its present state. -/
theorem phaseOk_of_inv {s : State} (h : Inv s) : PhaseOk s.p s.rx := by
  have hesc := h.escPending
  have hhead := fun hs => And.intro (h.headPos hs) (h.headFlags hs)
  unfold PhaseOk
  cases hstate : s.rx.state <;> dsimp only
  case idle => exact ⟨Bool.eq_false_iff.mpr fun he => (hesc he).2.1 hstate, h.posLeLen, h.posLeMax⟩
  case len1 => exact ⟨fun he => (hesc he).1, hhead (.inl hstate), h.len1Marker hstate⟩
  case len2 => exact ⟨fun he => (hesc he).1, hhead (.inr (.inl hstate)), h.len2Long hstate⟩
  case data0 => exact ⟨fun he => (hesc he).1, hhead (.inr (.inr (.inl hstate)))⟩
  case data => exact ⟨fun he => (hesc he).1, h.dataPos hstate, h.lenOk (.inl hstate)⟩
  case crc1 => exact ⟨fun he => (hesc he).1, h.trailerPos (.inl hstate), h.lenOk (.inr (.inl hstate))⟩
  case crc2 => exact ⟨fun he => (hesc he).1, h.trailerPos (.inr hstate), h.lenOk (.inr (.inr hstate))⟩
  case error =>
    exact ⟨Bool.eq_false_iff.mpr fun he => (hesc he).2.2 hstate, hhead (.inr (.inr (.inr hstate))),
      h.errorLen hstate⟩

theorem storeOk_of_inv {s : State} (h : Inv s) : StoreOk s.p s.rx := ⟨h.bufCanonical, h.bufWithin, h.flenLeMax⟩

theorem senderOk_of_inv {s : State} (h : Inv s) : SenderOk s.p s.tx :=
  ⟨h.remainLeMax, h.copyOpen, h.closedOwesNothing⟩

theorem relayOk_of_inv {s : State} (h : Inv s) : RelayOk s.rx s.tx :=
  fun hcopy => ⟨h.relayMidFrame hcopy, h.relayAfterHdr hcopy⟩

section Phase
variable {p : Config.Params} {r : Receiver}

/-- R34: `rx_pos` stays within the declared length and MAX_PACKET, in every state. -/
theorem PhaseOk.pos_le (h : PhaseOk p r) : r.pos.toNat ≤ r.len.toNat ∧ r.pos.toNat ≤ p.maxPacket := by
  unfold PhaseOk at h
  cases hstate : r.state <;> simp only [hstate] at h
  case idle => exact h.2
  case len1 => have := h.2.1.pos_toNat; omega
  case len2 => have := h.2.1.pos_toNat; omega
  case data0 => have := h.2.pos_toNat; omega
  case data => omega
  case crc1 => omega
  case crc2 => omega
  case error => have := h.2.1.pos_toNat; omega

/-- R40: an escape is pending only in the stuffing mode, inside a frame. -/
theorem PhaseOk.escPending (h : PhaseOk p r) (hesc : r.esc = true) :
    p.stuffEn = true ∧ r.state ≠ .idle ∧ r.state ≠ .error := by
  unfold PhaseOk at h
  cases hstate : r.state <;> simp only [hstate] at h
  case idle => exact absurd (h.1.symm.trans hesc) nofun
  case error => exact absurd (h.1.symm.trans hesc) nofun
  all_goals exact ⟨h.1 hesc, nofun, nofun⟩

/-- R176, R185: nothing has been counted or fired before the payload. -/
theorem PhaseOk.atHead (h : PhaseOk p r)
    (hstate : r.state = .len1 ∨ r.state = .len2 ∨ r.state = .data0 ∨ r.state = .error) : AtHead r := by
  unfold PhaseOk at h
  obtain hs | hs | hs | hs := hstate <;> simp only [hs] at h
  · exact h.2.1
  · exact h.2.1
  · exact h.2
  · exact h.2.1

theorem PhaseOk.len_le (h : PhaseOk p r) (hstate : r.state = .data ∨ r.state = .crc1 ∨ r.state = .crc2) :
    r.len.toNat ≤ p.maxPacket := by
  unfold PhaseOk at h
  obtain hs | hs | hs := hstate <;> simp only [hs] at h <;> exact h.2.2

end Phase

/-- The invariant is the conjunction of its parts. -/
theorem inv_of_parts {s : State} (hstore : StoreOk s.p s.rx) (hphase : PhaseOk s.p s.rx) (hsender : SenderOk s.p s.tx)
    (hrelay : RelayOk s.rx s.tx) : Inv s where
  bufCanonical := hstore.canonical
  bufWithin := hstore.within
  posLeLen := hphase.pos_le.1
  posLeMax := hphase.pos_le.2
  flenLeMax := hstore.flen
  remainLeMax := hsender.remain
  copyOpen := hsender.copyOpen
  closedOwesNothing := hsender.owesNothing
  relayMidFrame := fun h => (hrelay h).1
  relayAfterHdr := fun h => (hrelay h).2
  escPending := hphase.escPending
  len1Marker := fun h => by
    simp only [PhaseOk, h] at hphase
    exact hphase.2.2
  len2Long := fun h => by
    simp only [PhaseOk, h] at hphase
    exact hphase.2.2
  headPos := fun h => (hphase.atHead h).1
  headFlags := fun h => (hphase.atHead h).2
  dataPos := fun h => by
    simp only [PhaseOk, h] at hphase
    exact hphase.2.1
  trailerPos := fun h => by
    obtain h | h := h <;> simp only [PhaseOk, h] at hphase <;> exact hphase.2.1
  lenOk := hphase.len_le
  errorLen := fun h => by
    simp only [PhaseOk, h] at hphase
    exact hphase.2.2

/-! The sender. -/

theorem SenderStep.keeps_senderOk {s : State} {x : Sender} (h : SenderStep s x) (hok : SenderOk s.p s.tx) :
    SenderOk s.p x := by
  cases h with
  | keeps => exact hok
  | overruns => exact ⟨hok.remain, hok.copyOpen, hok.owesNothing⟩
  | sends v howed =>
    refine ⟨?_, hok.copyOpen, fun hclosed => absurd (hok.owesNothing hclosed) howed⟩
    have hless : (s.tx.remain - 1).toNat ≤ s.tx.remain.toNat := by bv_omega
    exact hless.trans hok.remain
  | opens hclosed xs crc n copy hn => exact ⟨hn, fun _ => rfl, nofun⟩
  | closes => exact ⟨Nat.zero_le _, nofun, fun _ => rfl⟩

/-- R238, R239: a relay is opened at a copy point only. -/
theorem SenderStep.keeps_relayOk {s : State} {x : Sender} (h : SenderStep s x) (hok : RelayOk s.rx s.tx) :
    RelayOk s.rx x := by
  cases h with
  | keeps | overruns | sends => exact hok
  | opens hclosed xs crc n copy hn hcopy =>
    intro hc
    obtain ⟨hhdr, hstate, -⟩ := (copyPoint_iff s).mp (hcopy hc)
    exact ⟨hstate, hhdr⟩
  | closes => exact nofun

theorem relayEnded_copy (p : Config.Params) (broken : Bool) (t : Sender) : (relayEnded p broken t).copy = false := by
  unfold relayEnded
  split
  next => rfl
  next h => exact Bool.eq_false_iff.mpr h

theorem relayOk_of_copy_eq_false {r : Receiver} {t : Sender} (h : t.copy = false) : RelayOk r t :=
  fun hcopy => absurd (h.symm.trans hcopy) nofun

/-! The arms: no escape is pending where an arm sees a byte. -/

/-- R179, R180: LEN1 leads to IDLE, or to LEN2 or DATA0 with the head of the frame untouched. -/
theorem phaseOk_len1Arm {v : Byte} {s : State} (hesc : s.rx.esc = false) (hhead : AtHead s.rx) :
    PhaseOk s.p (len1Arm v s).1.rx := by
  by_cases hv : v = 0
  · rw [hv, len1Arm_zero]
    have hpos := hhead.pos_toNat
    exact ⟨hesc, hpos ▸ Nat.zero_le _, hpos ▸ Nat.zero_le _⟩
  · rw [len1Arm, if_neg hv]
    cases htwo : secondLengthByteFollows s.p v
    · simp only [PhaseOk, Bool.false_eq_true, if_false]
      exact ⟨fun he => absurd (hesc.symm.trans he) nofun, hhead⟩
    · simp only [PhaseOk, if_true, firstLengthPart, htwo]
      rw [secondLengthByteFollows, Bool.and_eq_true] at htwo
      refine ⟨fun he => absurd (hesc.symm.trans he) nofun, hhead, htwo.1, ?_⟩
      rw [BitVec.toNat_setWidth, BitVec.toNat_and]
      exact (Nat.mod_le _ _).trans Nat.and_le_right

theorem storeOk_len1Arm {v : Byte} {s : State} (h : StoreOk s.p s.rx) : StoreOk s.p (len1Arm v s).1.rx := by
  unfold len1Arm
  split
  · exact ⟨h.canonical, h.within, h.flen⟩
  · exact ⟨h.canonical, h.within, h.flen⟩

/-- R186: a payload byte is stored within the capacity. -/
theorem storeOk_payloadReceived {p : Config.Params} {v : Byte} {r : Receiver} (h : StoreOk p r) :
    StoreOk p (payloadReceived p v r) := by
  by_cases hcap : r.pos.toNat < p.bufCap
  · obtain ⟨hwf, hwithin⟩ := memWrite_keeps_form (v := v) hcap h.canonical h.within
    exact ⟨by simpa only [payloadReceived, if_pos hcap] using hwf,
      by simpa only [payloadReceived, if_pos hcap] using hwithin, h.flen⟩
  · exact ⟨by simpa only [payloadReceived, if_neg hcap] using h.canonical,
      by simpa only [payloadReceived, if_neg hcap] using h.within, h.flen⟩

/-- R185 to R189: a payload byte leads on in DATA, or to CRC1 with the last one. -/
theorem phaseOk_payloadReceived {s : State} {v : Byte} {r : Receiver} (hesc : r.esc = false)
    (hstate : r.state = .data) (hpos : r.pos.toNat < r.len.toNat) (hlen : r.len.toNat ≤ s.p.maxPacket) :
    PhaseOk s.p (payloadReceived s.p v r) := by
  have hmax := maxPacket_le s
  have hsucc : (r.pos + 1).toNat = r.pos.toNat + 1 := by
    rw [BitVec.toNat_add]
    exact Nat.mod_eq_of_lt (show r.pos.toNat + 1 < 2 ^ 14 by omega)
  have hnone : r.esc = true → s.p.stuffEn = true := fun he => absurd (hesc.symm.trans he) nofun
  by_cases hlast : (r.pos + 1).toNat = r.len.toNat
  · simp only [PhaseOk, payloadReceived, if_pos hlast]
    exact ⟨hnone, hlast, hlen⟩
  · simp only [PhaseOk, payloadReceived, if_neg hlast, hstate]
    exact ⟨hnone, by omega, hlen⟩

theorem receiverOk_rxArm_payload {s : State} (v : Byte) (hstore : StoreOk s.p s.rx) (hesc : s.rx.esc = false)
    (hpos : s.rx.pos.toNat < s.rx.len.toNat) (hlen : s.rx.len.toNat ≤ s.p.maxPacket)
    (h : s.rx.state = .data ∨ s.rx.state = .data0 ∧ s.rx.len ≠ 0 ∧ s.rx.len.toNat ≤ s.p.maxPacket) :
    StoreOk s.p (rxArm v s).1.rx ∧ PhaseOk s.p (rxArm v s).1.rx := by
  rw [rxArm_of_payload v h]
  have hstore' : StoreOk s.p { s.rx with state := .data } := ⟨hstore.canonical, hstore.within, hstore.flen⟩
  exact ⟨storeOk_payloadReceived hstore', phaseOk_payloadReceived hesc rfl hpos hlen⟩

/-- R183 to R185. -/
theorem receiverOk_rxArm_data0 {s : State} (v : Byte) (hstore : StoreOk s.p s.rx) (hesc : s.rx.esc = false)
    (hhead : AtHead s.rx) (hstate : s.rx.state = .data0) :
    StoreOk s.p (rxArm v s).1.rx ∧ PhaseOk s.p (rxArm v s).1.rx := by
  obtain hlong | hle := Nat.lt_or_ge s.p.maxPacket s.rx.len.toNat
  · rw [rxArm_of_data0 v hstate, data0Arm, if_pos hlong]
    exact ⟨⟨hstore.canonical, hstore.within, hstore.flen⟩, hesc, hhead, hlong⟩
  by_cases hzero : s.rx.len = 0
  · rw [rxArm_of_data0 v hstate, data0Arm, if_neg (Nat.not_lt.mpr hle), if_pos hzero]
    refine ⟨⟨hstore.canonical, hstore.within, hstore.flen⟩, fun he => absurd (hesc.symm.trans he) nofun, ?_, hle⟩
    change s.rx.pos.toNat = s.rx.len.toNat
    rw [hhead.1, hzero]
    rfl
  · refine receiverOk_rxArm_payload v hstore hesc ?_ hle (.inr ⟨hstate, hzero, hle⟩)
    have hlen : s.rx.len.toNat ≠ 0 := fun h => hzero (BitVec.eq_of_toNat_eq h)
    have hpos := hhead.pos_toNat
    omega

/-- R171, R205: an arm leaves the receiver as its next state wants it. -/
theorem receiverOk_rxArm {s : State} (v : Byte) (hstore : StoreOk s.p s.rx) (hphase : PhaseOk s.p s.rx)
    (hesc : s.rx.esc = false) : StoreOk s.p (rxArm v s).1.rx ∧ PhaseOk s.p (rxArm v s).1.rx := by
  have hnone : s.rx.esc = true → s.p.stuffEn = true := fun he => absurd (hesc.symm.trans he) nofun
  cases hstate : s.rx.state
  case idle =>
    rw [rxArm_of_idle v hstate, idleArm_eq]
    simp only [PhaseOk, hstate] at hphase
    split
    next hmarker =>
      split
      · exact ⟨⟨hstore.canonical, hstore.within, hstore.flen⟩, nofun, ⟨rfl, rfl, rfl⟩, hmarker⟩
      · refine ⟨⟨hstore.canonical, hstore.within, hstore.flen⟩, ?_⟩
        simp only [PhaseOk, hstate]
        exact hphase
    next =>
      have hfresh : StoreOk s.p (freshFrame s.rx) := ⟨hstore.canonical, hstore.within, hstore.flen⟩
      exact ⟨storeOk_len1Arm (s := { s with rx := freshFrame s.rx }) hfresh,
        phaseOk_len1Arm (s := { s with rx := freshFrame s.rx }) rfl ⟨rfl, rfl, rfl⟩⟩
  case len1 =>
    rw [rxArm_of_len1 v hstate]
    exact ⟨storeOk_len1Arm hstore, phaseOk_len1Arm hesc (hphase.atHead (.inl hstate))⟩
  case len2 =>
    rw [rxArm_of_len2 v hstate]
    exact ⟨⟨hstore.canonical, hstore.within, hstore.flen⟩, hnone, hphase.atHead (.inr (.inl hstate))⟩
  case data0 => exact receiverOk_rxArm_data0 v hstore hesc (hphase.atHead (.inr (.inr (.inl hstate)))) hstate
  case data =>
    simp only [PhaseOk, hstate] at hphase
    obtain ⟨-, ⟨-, hpos⟩, hlen⟩ := hphase
    exact receiverOk_rxArm_payload v hstore hesc hpos hlen (.inl hstate)
  case crc1 =>
    rw [rxArm_of_crc1 v hstate]
    simp only [PhaseOk, hstate] at hphase
    exact ⟨⟨hstore.canonical, hstore.within, hstore.flen⟩, hnone, hphase.2⟩
  case crc2 =>
    rw [rxArm_of_crc2 v hstate, crc2Arm_eq]
    obtain hpos := hphase.pos_le
    split
    · exact ⟨⟨hstore.canonical, hstore.within, hpos.2⟩, hesc, hpos⟩
    · exact ⟨⟨hstore.canonical, hstore.within, hstore.flen⟩, hesc, hpos⟩
  case error =>
    rw [rxArm_of_error v hstate]
    exact ⟨hstore, hphase⟩

/-- R189 to R192: an arm that leaves a relay open leaves the receiver inside the frame, its header milestone fired. -/
theorem relayOk_rxArm {s : State} (v : Byte) (h : RelayOk s.rx s.tx) : RelayOk (rxArm v s).1.rx (rxArm v s).1.tx := by
  intro hcopy
  have hbefore : s.tx.copy = true := by
    obtain htx | htx | ⟨-, broken, htx⟩ := rxArm_tx v s
    · rwa [htx] at hcopy
    · rwa [htx, forwarded_copy] at hcopy
    · rw [htx, relayEnded_copy] at hcopy
      cases hcopy
  obtain ⟨hstate | hstate | hstate, hhdr⟩ := h hbefore
  · rw [rxArm_of_data v hstate, dataArm_eq]
    refine ⟨?_, by simp only [payloadReceived, hhdr, Bool.true_or]⟩
    by_cases hlast : (s.rx.pos + 1).toNat = s.rx.len.toNat
    · exact .inr (.inl (if_pos hlast))
    · exact .inl ((if_neg hlast).trans hstate)
  · rw [rxArm_of_crc1 v hstate]
    exact ⟨.inr (.inr rfl), hhdr⟩
  · rw [rxArm_of_crc2 v hstate, crc2Arm_eq] at hcopy
    split at hcopy <;> exact absurd ((relayEnded_copy _ _ _).symm.trans hcopy) nofun

/-! A received byte. -/

/-- R175: a pending escape is used up where an arm sees a byte. -/
theorem atArm_esc {s : State} (h : PhaseOk s.p s.rx) : (atArm s).rx.esc = false := by
  cases hesc : s.rx.esc
  · simp [atArm, hesc]
  · obtain ⟨hstuff, hidle, herror⟩ := h.escPending hesc
    have hactive : stuffingActive s = true := by simp [stuffingActive, hstuff, hidle, herror]
    simp [atArm, hesc, hactive]

theorem phaseOk_atArm {s : State} (h : PhaseOk s.p s.rx) : PhaseOk s.p (atArm s).rx := by
  have hesc := atArm_esc h
  have hnone : (atArm s).rx.esc = true → s.p.stuffEn = true := fun he => absurd (hesc.symm.trans he) nofun
  have hstate' : (atArm s).rx.state = s.rx.state := rfl
  unfold PhaseOk at h ⊢
  rw [hstate']
  cases hstate : s.rx.state <;> simp only [hstate] at h <;> dsimp only
  case idle => exact ⟨hesc, h.2⟩
  case error => exact ⟨hesc, h.2⟩
  all_goals exact ⟨hnone, h.2⟩

/-- R177: what the abort of a frame leaves, whatever is done to the counters and the timestamp. -/
theorem phaseOk_of_idle {p : Config.Params} {r r' : Receiver} (h : PhaseOk p r) (hstate : r'.state = .idle)
    (hesc : r'.esc = false) (hpos : r'.pos = r.pos) (hlen : r'.len = r.len) : PhaseOk p r' := by
  obtain hle := h.pos_le
  simp only [PhaseOk, hstate, hpos, hlen]
  exact ⟨hesc, hle⟩

theorem inv_receive_of_late {s : State} (b : Byte) (hinv : Inv s) (hlate : ¬ inTime s) : Inv (receive b s).1 := by
  have hstore := storeOk_of_inv hinv
  have hp : (receive b s).1.p = s.p := by
    obtain ⟨r, x, h⟩ := receive_frame b s
    rw [h]
  have hidle : receive b s = rxArm b (afterTimeout s) :=
    (receive_of_late b hlate).trans (rxArm_of_idle (s := afterTimeout s) b rfl).symm
  have hphase := phaseOk_of_inv hinv
  obtain ⟨hstore', hphase'⟩ := receiverOk_rxArm (s := afterTimeout s) b ⟨hstore.canonical, hstore.within, hstore.flen⟩
    (phaseOk_of_idle hphase rfl rfl rfl rfl) rfl
  have hrelay : RelayOk (afterTimeout s).rx (afterTimeout s).tx := relayOk_of_copy_eq_false (relayEnded_copy _ _ _)
  refine inv_of_parts ?_ ?_ ?_ ?_
  · rw [hp, hidle]; exact hstore'
  · rw [hp, hidle]; exact hphase'
  · rw [hp]; exact (senderStep_receive b s).keeps_senderOk (senderOk_of_inv hinv)
  · rw [hidle]; exact relayOk_rxArm b hrelay

/-- R175: a marker inside a stuffed frame. -/
theorem inv_of_resync {s : State} (hinv : Inv s) (hactive : stuffingActive s = true) :
    Inv { s with rx := { freshFrame s.rx with ts := s.now }, tx := relayEnded s.p true s.tx } := by
  have hstore := storeOk_of_inv hinv
  have hstuff : s.p.stuffEn = true := by
    simp only [stuffingActive, Bool.and_eq_true] at hactive
    exact hactive.1.1
  obtain ⟨hmarker, -⟩ := stuffing_params s hstuff
  exact inv_of_parts ⟨hstore.canonical, hstore.within, hstore.flen⟩ ⟨nofun, ⟨rfl, rfl, rfl⟩, hmarker⟩
    ((senderStep_relayEnded s true).keeps_senderOk (senderOk_of_inv hinv))
    (relayOk_of_copy_eq_false (relayEnded_copy _ _ _))

/-- R175: an escape byte inside a stuffed frame. -/
theorem inv_of_escape {s : State} (hinv : Inv s) (hactive : stuffingActive s = true) :
    Inv { s with rx := { s.rx with ts := s.now, esc := true } } := by
  have hstore := storeOk_of_inv hinv
  have hphase := phaseOk_of_inv hinv
  simp only [stuffingActive, Bool.and_eq_true, decide_eq_true_eq] at hactive
  obtain ⟨⟨hstuff, hidle⟩, herror⟩ := hactive
  have hphase' : PhaseOk s.p { s.rx with ts := s.now, esc := true } := by
    unfold PhaseOk at hphase ⊢
    dsimp only
    cases hstate : s.rx.state <;> simp only [hstate] at hphase <;> dsimp only
    case idle => exact absurd hstate hidle
    case error => exact absurd hstate herror
    all_goals exact ⟨fun _ => hstuff, hphase.2⟩
  have hsender := senderOk_of_inv hinv
  have hrelay := relayOk_of_inv hinv
  exact inv_of_parts ⟨hstore.canonical, hstore.within, hstore.flen⟩ hphase' hsender hrelay

/-- R171: a byte in time that is delivered to its arm. -/
theorem inv_rxArm_atArm {s : State} (v : Byte) (hinv : Inv s) : Inv (rxArm v (atArm s)).1 := by
  have hstore := storeOk_of_inv hinv
  have hphase := phaseOk_of_inv hinv
  have hp : (rxArm v (atArm s)).1.p = s.p := congrArg Config.Instance.params (rxArm_inst v (atArm s))
  obtain ⟨hstore', hphase'⟩ := receiverOk_rxArm (s := atArm s) v ⟨hstore.canonical, hstore.within, hstore.flen⟩
    (phaseOk_atArm hphase) (atArm_esc hphase)
  have hsender := senderOk_of_inv hinv
  have hrelay := relayOk_of_inv hinv
  have hstep : SenderStep (atArm s) (rxArm v (atArm s)).1.tx := by
    obtain h | h | ⟨-, broken, h⟩ := rxArm_tx v (atArm s)
    · exact h ▸ .keeps
    · exact h ▸ senderStep_forwarded (atArm s) v
    · exact h ▸ senderStep_relayEnded (atArm s) broken
  refine inv_of_parts ?_ ?_ ?_ (relayOk_rxArm (s := atArm s) v hrelay)
  · rw [hp]; exact hstore'
  · rw [hp]; exact hphase'
  · rw [hp]; exact hstep.keeps_senderOk hsender

theorem inv_receive {s : State} (b : Byte) (hinv : Inv s) : Inv (receive b s).1 := by
  by_cases hin : inTime s
  · rw [receive_of_inTime b hin]
    cases hv : delivered s b with
    | some v => exact inv_rxArm_atArm v hinv
    | none =>
      have hactive := stuffingActive_of_delivered_eq_none hv
      dsimp only
      split
      · exact inv_of_resync hinv hactive
      · exact inv_of_escape hinv hactive
  · exact inv_receive_of_late b hinv hin

/-! Every command. -/

/-- The invariant speaks of the parameters, the receiver and the sender only. -/
theorem Inv.congr {s t : State} (h : Inv s) (hinst : t.inst = s.inst) (hrx : t.rx = s.rx) (htx : t.tx = s.tx) :
    Inv t := by
  have hp : t.p = s.p := congrArg Config.Instance.params hinst
  refine inv_of_parts ?_ ?_ ?_ ?_
  · rw [hp, hrx]; exact storeOk_of_inv h
  · rw [hp, hrx]; exact phaseOk_of_inv h
  · rw [hp, htx]; exact senderOk_of_inv h
  · rw [hrx, htx]; exact relayOk_of_inv h

theorem inv_answered {s : State} (h : Inv s) (e : ErrCode) (d : Word) : Inv (answered e d s) := h.congr rfl rfl rfl

theorem inv_present {s : State} (h : Inv s) (now : Word) (rest : List HostInput) : Inv (present now rest s) :=
  h.congr rfl rfl rfl

/-- R196. -/
theorem inv_abortedFrame {s : State} (h : Inv s) : Inv (abortedFrame s) := by
  have hstore := storeOk_of_inv h
  have hphase := phaseOk_of_inv h
  exact inv_of_parts ⟨hstore.canonical, hstore.within, hstore.flen⟩ (phaseOk_of_idle hphase rfl rfl rfl rfl)
    ((senderStep_relayEnded s true).keeps_senderOk (senderOk_of_inv h))
    (relayOk_of_copy_eq_false (relayEnded_copy _ _ _))

/-- R56: a register write reaches nothing that the invariant speaks of. -/
theorem inv_of_write? {v : Half} {s u : State} {reg : Reg} (hwrite : reg.write? v s = some u) (h : Inv s) : Inv u := by
  have hstore := storeOk_of_inv h
  have hphase := phaseOk_of_inv h
  have hsender := senderOk_of_inv h
  have hrelay := relayOk_of_inv h
  cases reg <;> cases hwrite <;>
    exact inv_of_parts ⟨hstore.canonical, hstore.within, hstore.flen⟩ hphase hsender hrelay

/-- R265. -/
theorem inv_of_memWrite {s : State} {k : Nat} (b : Byte) (hk : k < s.p.bufCap) (h : Inv s) :
    Inv { s with rx := memWrite k b s.rx } := by
  obtain ⟨hwf, hwithin⟩ := memWrite_keeps_form (v := b) hk h.bufCanonical h.bufWithin
  have hphase := phaseOk_of_inv h
  have hsender := senderOk_of_inv h
  have hrelay := relayOk_of_inv h
  exact inv_of_parts ⟨hwf, hwithin, h.flenLeMax⟩ hphase hsender hrelay

/-- A command that keeps the receiver takes one of the sender's steps. -/
theorem inv_of_rx_eq {i : Instr} {s t : State} (h : exec i s = .next t) (hrx : t.rx = s.rx) (hinv : Inv s) :
    Inv t := by
  have hp : t.p = s.p := congrArg Config.Instance.params (exec_keeps_inst h)
  have hstep := senderStep_of_exec h
  refine inv_of_parts ?_ ?_ ?_ ?_
  · rw [hp, hrx]; exact storeOk_of_inv hinv
  · rw [hp, hrx]; exact phaseOk_of_inv hinv
  · rw [hp]; exact hstep.keeps_senderOk (senderOk_of_inv hinv)
  · rw [hrx]; exact hstep.keeps_relayOk (relayOk_of_inv hinv)

/-- Every command keeps the invariant. -/
theorem exec_keeps_inv {i : Instr} {s t : State} (h : exec i s = .next t) (hinv : Inv s) : Inv t := by
  by_cases hbyte : ∃ b, i = .rxByte b
  · obtain ⟨b, rfl⟩ := hbyte
    cases h
    exact inv_answered (inv_receive b hinv) .ok _
  cases execFrame_of_exec h with
  | receivesByte b => exact absurd ⟨b, rfl⟩ hbyte
  | forcesIdle => exact inv_answered (inv_abortedFrame hinv) .ok 0
  | writesSenderAtMost => exact inv_of_rx_eq h rfl hinv
  | restartsAuxCrc | addsToAuxCrc => exact inv_of_rx_eq h rfl hinv
  | writesRegister n v =>
    obtain ht | ht | ⟨reg, u, -, hwrite, ht⟩ := exec_regWrite_cases h
    · exact ht ▸ inv_answered hinv .badReg 0
    · exact ht ▸ inv_answered hinv .readOnly 0
    · exact ht ▸ inv_answered (inv_of_write? hwrite hinv) .ok 0
  | writesBuffer k b =>
    obtain ht | ⟨hk, ht⟩ := exec_bufWrite_cases h
    · exact ht ▸ inv_answered hinv .badIndex 0
    · exact ht ▸ inv_answered (inv_of_memWrite b hk hinv) .ok 0

/-- R310: the state after a reset satisfies the invariant, whatever stands on the ports. -/
theorem inv_of_reset {s : State} {draws : Nat} {out : List Byte} (hrx : s.rx = Receiver.reset draws)
    (htx : s.tx = Sender.reset out) : Inv s := by
  refine inv_of_parts ?_ ?_ ?_ ?_
  · rw [hrx]; exact ⟨rfl, rfl, Nat.zero_le _⟩
  · rw [hrx]; exact ⟨rfl, le_rfl, Nat.zero_le _⟩
  · rw [htx]; exact ⟨Nat.zero_le _, nofun, fun _ => rfl⟩
  · rw [htx]; exact relayOk_of_copy_eq_false rfl

/-- Settles O49: a step waits, resets the block, performs a command, or answers BAD_CMD. -/
theorem everyStepKeepsTheInvariant : Obligations.EveryStepKeepsTheInvariant := by
  intro s t hinv h
  obtain ⟨-, rfl⟩ | ⟨rest, -, rfl⟩ | ⟨w, now, rest, -, ⟨i, -, hexec⟩ | ⟨e, -, rfl⟩⟩ := step_cases h
  case inl => exact hinv
  case inr.inl => exact inv_of_reset rfl rfl
  case inr.inr.inl => exact exec_keeps_inv hexec (inv_present hinv now rest)
  case inr.inr.inr => exact inv_answered (inv_present hinv now rest) .badCmd 0

/-- Settles O50: the state after a reset, whatever the parameters are, the hardware's among them. -/
theorem resetSatisfiesTheInvariant : Obligations.ResetSatisfiesTheInvariant :=
  ⟨fun _ => inv_of_reset rfl rfl, inv_of_reset rfl rfl⟩

end Sys2Proof.Machine
end

