-- ==== Sys2Proof/Proofs/ReceivedBytes.lean ====
section
/-! PROOFS. What every RX_BYTE does, what a late byte, a marker and an escape do, and what it reports
(spec/41_receiver.md R170 to R201; spec/20_memory.md R89). -/

namespace Sys2Proof

/-- R170: the word of RX_BYTE is its opcode, sixteen zeros and the byte. -/
theorem decode_rxByte (b : Byte) : decode (0x010000#24 ++ b) = .ok (.rxByte b) := by
  have hadmits : (tableRow 1).admits (0x010000#24 ++ b) = true :=
    beq_iff_eq.mpr (append_masked 0x010000#24 b)
  have hbyte : byteField (0x010000#24 ++ b) = b := BitVec.extractLsb'_append_eq_right
  exact (decode_eq_ok_iff _ _).mpr ⟨tableRow 1, tableRow_mem 1, hadmits, congrArg Instr.rxByte hbyte⟩

end Sys2Proof

namespace Sys2Proof.Machine

/-! What a received byte leaves alone. -/

/-- The fields of the receiver that no arm writes: the timestamp, the watch lengths and the model's own. -/
def untouched (r : Receiver) : Word × Half × Half × Nat := (r.ts, r.hdrLen, r.readLen, r.draws)

theorem untouched_len1Arm (v : Byte) (s : State) : untouched (len1Arm v s).1.rx = untouched s.rx := by
  unfold len1Arm
  split <;> rfl

theorem untouched_idleArm (v : Byte) (s : State) : untouched (idleArm v s).1.rx = untouched s.rx := by
  rw [idleArm_eq]
  split
  · split <;> rfl
  · exact untouched_len1Arm v _

theorem untouched_dataArm (v : Byte) (s : State) : untouched (dataArm v s).1.rx = untouched s.rx := by
  rw [dataArm_eq]
  rfl

theorem untouched_data0Arm (v : Byte) (s : State) : untouched (data0Arm v s).1.rx = untouched s.rx := by
  unfold data0Arm
  split
  · rfl
  · split
    · rfl
    · exact untouched_dataArm v _

theorem untouched_crc2Arm (v : Byte) (s : State) : untouched (crc2Arm v s).1.rx = untouched s.rx := by
  rw [crc2Arm_eq]
  split <;> rfl

theorem untouched_rxArm (v : Byte) (s : State) : untouched (rxArm v s).1.rx = untouched s.rx := by
  cases hstate : s.rx.state
  case idle => rw [rxArm_of_idle v hstate, untouched_idleArm]
  case len1 => rw [rxArm_of_len1 v hstate, untouched_len1Arm]
  case len2 => rw [rxArm_of_len2 v hstate]; rfl
  case data0 => rw [rxArm_of_data0 v hstate, untouched_data0Arm]
  case data => rw [rxArm_of_data v hstate, untouched_dataArm]
  case crc1 => rw [rxArm_of_crc1 v hstate]; rfl
  case crc2 => rw [rxArm_of_crc2 v hstate, untouched_crc2Arm]
  case error => rw [rxArm_of_error v hstate]

/-- R174: a received byte writes the timestamp. -/
theorem untouched_receive (b : Byte) (s : State) :
    untouched (receive b s).1.rx = untouched { s.rx with ts := s.now } := by
  by_cases hin : inTime s
  · rw [receive_of_inTime b hin]
    cases delivered s b with
    | some v => exact untouched_rxArm v (atArm s)
    | none =>
      dsimp only
      split <;> rfl
  · rw [receive_of_late b hin]
    exact untouched_idleArm b (afterTimeout s)

/-- Settles O34: the word by its row, the answer by the arm of `exec`, the rest by the frame of a received byte. -/
theorem rxByteAlwaysAnswersOk : Obligations.RxByteAlwaysAnswersOk := by
  refine ⟨decode_rxByte, fun s b => ⟨_, (receive b s).2.word, rfl, rfl, rfl, ?_⟩⟩
  have hkept := untouched_receive b s
  simp only [untouched, Prod.mk.injEq] at hkept
  obtain ⟨hts, hhdr, hread, hdraws⟩ := hkept
  obtain ⟨r, x, hframe⟩ := receive_frame b s
  refine ⟨hts, ?_, hhdr, hread, hdraws, ?_, ?_, ?_, (senderStep_receive b s).out_prefix⟩
  all_goals simp only [respond_inst, respond_auxCrc, respond_now, respond_queue, hframe]

/-! Late bytes, markers and escapes. -/

/-- R173: a byte is late only inside a frame, and then its gap is above MAX_DELAY. -/
theorem not_inTime_of_gap {s : State} (hstate : s.rx.state ≠ .idle)
    (hgap : s.p.maxDelay.toNat < (s.now - s.rx.ts).toNat) : ¬ inTime s :=
  not_or.mpr ⟨hstate, Nat.not_le.mpr hgap⟩

/-- R173, R178: in IDLE a byte is read by IDLE's arm, whatever the gap. -/
theorem receive_of_idle {s : State} (b : Byte) (h : s.rx.state = .idle) :
    receive b s = idleArm b { s with rx.ts := s.now } := by
  rw [receive_of_inTime b (.inl h), delivered_of_idle b h,
    atArm_of_not_stuffingActive (stuffingActive_of_idle h)]
  exact rxArm_of_idle b h

/-- R173: the state a late byte is read in, before the timestamp is written. -/
def timeoutCounted (s : State) : State :=
  { s with
    rx.cntTimeout := s.rx.cntTimeout + 1, rx.state := .idle, rx.esc := false
    tx := relayEnded s.p true s.tx }

theorem exec_rxByte_of_late {s : State} (b : Byte) (hlate : ¬ inTime s) :
    exec (.rxByte b) s = exec (.rxByte b) (timeoutCounted s) := by
  have hreceive : receive b s = receive b (timeoutCounted s) := by
    rw [receive_of_late b hlate, receive_of_idle (s := timeoutCounted s) b rfl]
    rfl
  simp only [exec, execRxByte, hreceive]

/-- Settles O35: a late byte by the guard, a byte in time by what it counts. -/
theorem lateByteIsReadFromIdle : Obligations.LateByteIsReadFromIdle := by
  intro s b
  refine ⟨fun hstate hgap => exec_rxByte_of_late b (not_inTime_of_gap hstate hgap), fun hin t h => ?_⟩
  obtain ⟨htimeout, -⟩ := countersCountTheirEvents.1 s t b h hin
  exact htimeout

theorem stuffingActive_of_frame {s : State} (hstuff : s.p.stuffEn = true) (hidle : s.rx.state ≠ .idle)
    (herror : s.rx.state ≠ .error) : stuffingActive s = true := by
  simp [stuffingActive, hstuff, hidle, herror]

/-- Settles O36: the two bytes the stuffing layer takes itself. -/
theorem stuffedMarkerRestartsTheFrame : Obligations.StuffedMarkerRestartsTheFrame := by
  intro s b hin hstuff hidle herror
  have hactive := stuffingActive_of_frame hstuff hidle herror
  refine ⟨fun hmarker => ?_, fun hne hb hesc => ?_⟩
  · have htaken : delivered s b = none := by simp [delivered, hactive, hmarker]
    simp only [exec, execRxByte, receive_of_inTime b hin, htaken, if_pos hmarker, Events.word_none]
    rfl
  · exact exec_rxByte_of_escape hin (hb ▸ delivered_escape hactive hesc (hb ▸ hne)) hne

/-- The answer and the ports are not the arms' business: an arm acts on the state between them. -/
theorem respond_rxArm_of_answered (e : ErrCode) (d d' : Word) (x : Byte) (q : State) (h : q.rx.state ≠ .idle) :
    respond .ok d (rxArm x (answered e d' q)).1 = respond .ok d (rxArm x q).1 ∧
      (rxArm x (answered e d' q)).2 = (rxArm x q).2 := by
  have hleft : rxArm x (answered e d' q) = (atPortsOf (answered e d' q) (rxArm x q).1, (rxArm x q).2) :=
    rxArm_atPortsOf x (answered e d' q) q h
  have hright : rxArm x q = (atPortsOf q (rxArm x q).1, (rxArm x q).2) := rxArm_atPortsOf x q q h
  constructor
  · rw [hleft]
    conv_rhs => rw [hright]
    rfl
  · rw [hleft]

/-- Settles O37: the escape byte is remembered, and the byte after it delivered restored. -/
theorem escapedByteArrivesWhole : Obligations.EscapedByteArrivesWhole := by
  intro s t x now hstuff hidle herror hesc hx hin hgap hfirst
  have hactive := stuffingActive_of_frame hstuff hidle herror
  obtain ⟨-, hmarker, hescTop, hne⟩ := stuffing_params s hstuff
  have htop : x.getLsbD 7 = true := by
    obtain rfl | rfl := hx
    · exact hmarker
    · exact hescTop
  cases (exec_rxByte_of_escape hin (delivered_escape hactive hesc hne) hne).symm.trans hfirst
  generalize hq : { s with rx.ts := now, now := now } = q
  have hqidle : q.rx.state ≠ .idle := hq ▸ hidle
  have hatArm : atArm { answered .ok 0 { s with rx.ts := s.now, rx.esc := true } with now := now } =
      answered .ok 0 q := by
    have hactive' : stuffingActive { answered .ok 0 { s with rx.ts := s.now, rx.esc := true } with now := now } =
        true := hactive
    simp only [atArm, hactive', Bool.not_true, ← hq, ← hesc]
    rfl
  obtain ⟨hrespond, hevents⟩ := respond_rxArm_of_answered .ok (rxArm x q).2.word 0 x q hqidle
  rw [← hrespond, ← hevents]
  refine exec_rxByte_of_rxArm (.inr hgap) (delivered_restored hactive rfl hmarker htop) ?_ rfl
  rw [hatArm]

/-- Settles O41: DATA0's second case. -/
theorem zeroLengthFiresHdrAndGoesToTrailer : Obligations.ZeroLengthFiresHdrAndGoesToTrailer := by
  intro s b v hin h hv hlen
  refine exec_rxByte_of_rxArm hin hv ?_ (show ({ hdr := true } : Events).word = 1 by decide)
  have hfits : ¬ s.p.maxPacket < s.rx.len.toNat := by simp [hlen]
  rw [rxArm_of_data0 (s := atArm s) v h]
  exact (if_neg hfits).trans (if_pos hlen)

/-! What a received byte reports. -/

/-- R187, R188, R191, R194: what the milestones of one byte say of the receiver before and after it. -/
structure MilestonesFit (before after : Receiver) (e : Events) : Prop where
  hdr : e.hdr = true → before.hdrFired = false ∧ after.hdrFired = true
  read : e.read = true → before.readFired = false ∧ after.readFired = true
  frame : e.frame = true → before.state = .crc2 ∧ after.state = .idle
  frameAlone : e.frame = true → e.hdr = false ∧ e.read = false

theorem milestonesFit_none (before after : Receiver) : MilestonesFit before after .none := ⟨nofun, nofun, nofun, nofun⟩

/-- R187, R188: a milestone of a payload byte was not fired before, and is afterwards. -/
theorem milestonesFit_payload (p : Config.Params) (v : Byte) (r : Receiver) (st : RxState) :
    MilestonesFit r (payloadReceived p v { r with state := st }) (payloadEvents r) where
  hdr := fun h => by
    simp only [payloadEvents, Bool.and_eq_true, Bool.not_eq_true'] at h
    exact ⟨h.1, by simp only [payloadReceived, h.2, Bool.or_true]⟩
  read := fun h => by
    simp only [payloadEvents, Bool.and_eq_true, Bool.not_eq_true'] at h
    exact ⟨h.1, by simp only [payloadReceived, h.2, Bool.or_true]⟩
  frame := nofun
  frameAlone := nofun

theorem idleArm_events (v : Byte) (s : State) : (idleArm v s).2 = .none := by
  rw [idleArm_eq]
  split
  · split <;> rfl
  · exact len1Arm_events v _

/-- R184: HDR is reported for a zero length in DATA0, where it has not fired (R176). -/
theorem milestonesFit_data0Arm (v : Byte) {s : State} (hstate : s.rx.state = .data0) (hhdr : s.rx.hdrFired = false) :
    MilestonesFit s.rx (rxArm v s).1.rx (rxArm v s).2 := by
  obtain hlong | hle := Nat.lt_or_ge s.p.maxPacket s.rx.len.toNat
  · rw [rxArm_of_data0 v hstate, data0Arm, if_pos hlong]
    exact milestonesFit_none _ _
  by_cases hzero : s.rx.len = 0
  · rw [rxArm_of_data0 v hstate, data0Arm, if_neg (Nat.not_lt.mpr hle), if_pos hzero]
    exact ⟨fun _ => ⟨hhdr, rfl⟩, nofun, nofun, nofun⟩
  · rw [rxArm_of_payload v (.inr ⟨hstate, hzero, hle⟩)]
    exact milestonesFit_payload s.p v s.rx .data

/-- R194: what each arm reports fits the receiver before and after it. -/
theorem milestonesFit_rxArm (v : Byte) {s : State} (hhead : s.rx.state = .data0 → s.rx.hdrFired = false) :
    MilestonesFit s.rx (rxArm v s).1.rx (rxArm v s).2 := by
  cases hstate : s.rx.state
  case idle =>
    rw [rxArm_of_idle v hstate, idleArm_events]
    exact milestonesFit_none _ _
  case len1 =>
    rw [rxArm_of_len1 v hstate, len1Arm_events]
    exact milestonesFit_none _ _
  case len2 => rw [rxArm_of_len2 v hstate]; exact milestonesFit_none _ _
  case data0 => exact milestonesFit_data0Arm v hstate (hhead hstate)
  case data =>
    rw [rxArm_of_payload v (.inl hstate)]
    exact milestonesFit_payload s.p v s.rx .data
  case crc1 => rw [rxArm_of_crc1 v hstate]; exact milestonesFit_none _ _
  case crc2 =>
    rw [rxArm_of_crc2 v hstate, crc2Arm_eq]
    split
    · exact ⟨nofun, nofun, fun _ => ⟨hstate, rfl⟩, fun _ => ⟨rfl, rfl⟩⟩
    · exact milestonesFit_none _ _
  case error => rw [rxArm_of_error v hstate]; exact milestonesFit_none _ _

theorem milestonesFit_receive (b : Byte) {s : State} (hinv : Inv s) :
    MilestonesFit s.rx (receive b s).1.rx (receive b s).2 := by
  by_cases hin : inTime s
  · rw [receive_of_inTime b hin]
    cases delivered s b with
    | some v =>
      have hhead : (atArm s).rx.state = .data0 → (atArm s).rx.hdrFired = false := fun h =>
        (hinv.headFlags (.inr (.inr (.inl h)))).1
      obtain ⟨hhdr, hread, hframe, halone⟩ := milestonesFit_rxArm v hhead
      exact ⟨hhdr, hread, hframe, halone⟩
    | none =>
      dsimp only
      split <;> exact milestonesFit_none _ _
  · rw [receive_of_late b hin, idleArm_events]
    exact milestonesFit_none _ _

/-- R176, R201: a fired milestone stays fired in every arm but IDLE's. -/
theorem rxArm_keeps_fired (v : Byte) {s : State} (hidle : s.rx.state ≠ .idle) :
    (s.rx.hdrFired = true → (rxArm v s).1.rx.hdrFired = true) ∧
      (s.rx.readFired = true → (rxArm v s).1.rx.readFired = true) := by
  have hlen1 : (len1Arm v s).1.rx.hdrFired = s.rx.hdrFired ∧ (len1Arm v s).1.rx.readFired = s.rx.readFired := by
    unfold len1Arm
    split <;> exact ⟨rfl, rfl⟩
  have hdata (q : State) : (q.rx.hdrFired = true → (dataArm v q).1.rx.hdrFired = true) ∧
      (q.rx.readFired = true → (dataArm v q).1.rx.readFired = true) := by
    rw [dataArm_eq]
    exact ⟨fun h => by simp only [payloadReceived, h, Bool.true_or],
      fun h => by simp only [payloadReceived, h, Bool.true_or]⟩
  cases hstate : s.rx.state
  case idle => exact absurd hstate hidle
  case len1 =>
    rw [rxArm_of_len1 v hstate, hlen1.1, hlen1.2]
    exact ⟨id, id⟩
  case len2 => rw [rxArm_of_len2 v hstate]; exact ⟨id, id⟩
  case data0 =>
    rw [rxArm_of_data0 v hstate, data0Arm]
    split
    · exact ⟨id, id⟩
    · split
      · exact ⟨fun _ => rfl, id⟩
      · exact hdata { s with rx.state := .data }
  case data => rw [rxArm_of_data v hstate]; exact hdata s
  case crc1 => rw [rxArm_of_crc1 v hstate]; exact ⟨id, id⟩
  case crc2 =>
    rw [rxArm_of_crc2 v hstate, crc2Arm_eq]
    split <;> exact ⟨id, id⟩
  case error => rw [rxArm_of_error v hstate]; exact ⟨id, id⟩

/-- R201: a fired milestone is forgotten only where a frame starts. -/
theorem frame_starts_of_forgotten (b : Byte) {s : State} (hin : inTime s)
    (h : (s.rx.hdrFired = true ∧ (receive b s).1.rx.hdrFired = false) ∨
      (s.rx.readFired = true ∧ (receive b s).1.rx.readFired = false)) :
    s.rx.state = .idle ∨ (stuffingActive s = true ∧ b = s.p.marker) := by
  by_cases hidle : s.rx.state = .idle
  · exact .inl hidle
  suffices hstart : ¬ (stuffingActive s = true ∧ b = s.p.marker) →
      (s.rx.hdrFired = true → (receive b s).1.rx.hdrFired = true) ∧
        (s.rx.readFired = true → (receive b s).1.rx.readFired = true) by
    by_contra hcon
    obtain ⟨hhdr, hread⟩ := hstart fun hm => hcon (.inr hm)
    obtain ⟨hfired, hclear⟩ | ⟨hfired, hclear⟩ := h
    · exact absurd ((hhdr hfired).symm.trans hclear) nofun
    · exact absurd ((hread hfired).symm.trans hclear) nofun
  intro hnot
  rw [receive_of_inTime b hin]
  cases hv : delivered s b with
  | some v => exact rxArm_keeps_fired v (s := atArm s) hidle
  | none =>
    have hb : b ≠ s.p.marker := fun hm => hnot ⟨stuffingActive_of_delivered_eq_none hv, hm⟩
    dsimp only
    rw [if_neg hb]
    exact ⟨id, id⟩

/-- R194: HDR and READ are the low bits of the response. -/
theorem Events.word_getLsbD_low (e : Events) : e.word.getLsbD 0 = e.hdr ∧ e.word.getLsbD 1 = e.read := by
  obtain ⟨hdr, read, frame⟩ := e
  revert hdr read frame
  decide

theorem Events.word_le {e : Events} (h : e.frame = true → e.hdr = false ∧ e.read = false) : e.word.toNat ≤ 4 := by
  obtain ⟨hdr, read, frame⟩ := e
  revert hdr read frame
  decide

/-- Settles O48: the milestones of a received byte, and where a fired one is forgotten. -/
theorem milestonesFireOncePerFrame : Obligations.MilestonesFireOncePerFrame := by
  intro s t b hinv h
  cases h
  obtain ⟨hhdr, hread, hframe, halone⟩ := milestonesFit_receive b hinv
  obtain ⟨hbit0, hbit1⟩ := Events.word_getLsbD_low (receive b s).2
  have hbit2 := Events.word_getLsbD_two (receive b s).2
  exact ⟨_, rfl, Events.word_le halone, fun hd => hhdr (hbit0.symm.trans hd), fun hd => hread (hbit1.symm.trans hd),
    fun hd => hframe (hbit2.symm.trans hd), frame_starts_of_forgotten b⟩

/-! ERROR, over a run. -/

/-- R193, R200: bytes in time leave a receiver in ERROR there, and none of them reports FRAME. -/
theorem run_feed_of_error {k : Nat} : ∀ {s t : State} {arrivals : List (Byte × Word)}, s.rx.state = .error →
    s.queue = feed arrivals → k ≤ arrivals.length → gapsWithin s.p.maxDelay ((0, s.rx.ts) :: arrivals) →
    Sys2Proof.core.run k s = .next t → t.rx.state = .error ∧ (0 < k → reportsFrame t = false) := by
  induction k with
  | zero =>
    intro s t arrivals herror _ _ _ hrun
    cases hrun
    exact ⟨herror, nofun⟩
  | succ k ih =>
    intro s t arrivals herror hq hk hgaps hrun
    cases arrivals with
    | nil => exact absurd hk (Nat.not_succ_le_zero k)
    | cons a rest =>
      obtain ⟨hgap, hgaps⟩ := (gapsWithin_cons_cons _ _ _ _).mp hgaps
      have hstep := (step_of_feed hq).trans
        (exec_rxByte_of_error (s := present a.2 (feed rest) s) a.1 herror hgap)
      rw [run_succ hstep] at hrun
      have hgaps' : gapsWithin s.p.maxDelay ((0, a.2) :: rest) := (gapsWithin_head_congr _ _ _ _ _).mp hgaps
      obtain ⟨herror', hquiet⟩ := ih (arrivals := rest) (by exact herror) rfl (Nat.le_of_succ_le_succ hk) hgaps' hrun
      refine ⟨herror', fun _ => ?_⟩
      obtain rfl | hpos := Nat.eq_zero_or_pos k
      · cases hrun
        rfl
      · exact hquiet hpos

/-- Settles O56: the bytes of a feed, one by one. -/
theorem noFrameComesFromError : Obligations.NoFrameComesFromError := by
  intro s t arrivals k herror hq hpos hk hgaps hrun
  obtain ⟨herror', hquiet⟩ := run_feed_of_error herror hq hk hgaps hrun
  exact ⟨herror', hquiet hpos⟩

/-! The buffer. -/

/-- R186: an arm stores at `rx_pos` only. -/
theorem memRead_rxArm (v : Byte) (s : State) {j : Nat} (hj : j ≠ s.rx.pos.toNat) :
    memRead j (rxArm v s).1.rx = memRead j s.rx := by
  have hlen1 (q : State) : memRead j (len1Arm v q).1.rx = memRead j q.rx := by
    unfold len1Arm
    split <;> rfl
  have hdata (q : State) (hq : j ≠ q.rx.pos.toNat) : memRead j (dataArm v q).1.rx = memRead j q.rx := by
    rw [dataArm_eq]
    exact (memRead_payloadReceived q.p v q.rx j).trans (if_neg fun h => hq h.2)
  cases hstate : s.rx.state
  case idle =>
    rw [rxArm_of_idle v hstate, idleArm_eq]
    split
    · split <;> rfl
    · exact hlen1 _
  case len1 => rw [rxArm_of_len1 v hstate, hlen1]
  case len2 => rw [rxArm_of_len2 v hstate]; rfl
  case data0 =>
    rw [rxArm_of_data0 v hstate, data0Arm]
    split
    · rfl
    · split
      · rfl
      · exact hdata _ hj
  case data => rw [rxArm_of_data v hstate, hdata s hj]
  case crc1 => rw [rxArm_of_crc1 v hstate]; rfl
  case crc2 =>
    rw [rxArm_of_crc2 v hstate, crc2Arm_eq]
    split <;> rfl
  case error => rw [rxArm_of_error v hstate]

theorem memRead_receive (b : Byte) (s : State) {j : Nat} (hj : j ≠ s.rx.pos.toNat) :
    memRead j (receive b s).1.rx = memRead j s.rx := by
  by_cases hin : inTime s
  · rw [receive_of_inTime b hin]
    cases delivered s b with
    | some v => exact memRead_rxArm v (atArm s) hj
    | none =>
      dsimp only
      split <;> rfl
  · rw [receive_of_late b hin, ← rxArm_of_idle (s := afterTimeout s) b rfl]
    exact memRead_rxArm b (afterTimeout s) hj

/-- R56: no register write reaches the buffer. -/
theorem Reg.write?_memRead {v : Half} {s u : State} {reg : Reg} (h : reg.write? v s = some u) (j : Nat) :
    memRead j u.rx = memRead j s.rx := by
  cases reg <;> cases h <;> rfl

/-- Settles O15: RX_BYTE stores at `rx_pos`, BUF_WRITE at its index, and no other command stores. -/
theorem commandsKeepOtherBufferBytes : Obligations.CommandsKeepOtherBufferBytes := by
  intro i s t h j hbyte hwrite
  by_cases hi : ∃ b, i = .rxByte b
  · obtain ⟨b, rfl⟩ := hi
    rw [rx_of_exec_rxByte h]
    exact memRead_receive b s (hbyte b rfl)
  cases execFrame_of_exec h with
  | receivesByte b => exact absurd ⟨b, rfl⟩ hi
  | forcesIdle | writesSenderAtMost | restartsAuxCrc | addsToAuxCrc => rfl
  | writesRegister n v =>
    obtain ht | ht | ⟨reg, u, -, hu, ht⟩ := exec_regWrite_cases h
    · rw [ht]; rfl
    · rw [ht]; rfl
    · rw [ht]; exact Reg.write?_memRead hu j
  | writesBuffer k b =>
    obtain ht | ⟨-, ht⟩ := exec_bufWrite_cases h
    · rw [ht]; rfl
    · rw [ht]; exact (memRead_memWrite k.toNat j b s.rx).trans (if_neg (hwrite k b rfl))

end Sys2Proof.Machine
end

