-- ==== Sys2Proof/Proofs/Observability.lean ====
section
/-! PROOFS. What no command can tell: in IDLE the timestamp, but for a read of RX_TS (spec/10_state.md R59), and at any
time what is queued behind the command (spec/41_receiver.md R197; spec/20_memory.md R91). -/

namespace Sys2Proof.Machine

/-! Commands other than RX_BYTE. -/

/-- The state with another timestamp and another queue. -/
def retagged (x : Word) (q : List HostInput) (s : State) : State := { s with rx.ts := x, queue := q }

/-- What a command answers, with the state it leaves changed. -/
def mapNext (f : State → State) : Host.Outcome State Fault Refusal → Host.Outcome State Fault Refusal
  | .next s => .next (f s)
  | .fault r => .fault r
  | .refused r => .refused r

section Retagged
variable (x : Word) (q : List HostInput) (s : State)

/-- R55: of all registers only RX_TS reads the timestamp. -/
theorem Reg.read_retagged {reg : Reg} (h : reg = .rxTs → x = s.rx.ts) : reg.read (retagged x q s) = reg.read s := by
  cases reg
  case rxTs => exact h rfl
  all_goals rfl

/-- R55: RX_TS has the number 0x05. -/
theorem eq_of_ofNumber_rxTs : ∀ r : Byte, Reg.ofNumber r = some .rxTs → r = 0x05 := by decide

theorem exec_regRead_retagged {r : Byte} (h : r = 0x05 → x = s.rx.ts) :
    exec (.regRead r) (retagged x q s) = mapNext (retagged x q) (exec (.regRead r) s) := by
  cases hreg : Reg.ofNumber r with
  | none =>
    rw [exec_regRead_of_reserved _ hreg, exec_regRead_of_reserved _ hreg]
    rfl
  | some reg =>
    have hread : reg.read (retagged x q s) = reg.read s :=
      Reg.read_retagged x q s fun hts => h (eq_of_ofNumber_rxTs r (hts ▸ hreg))
    rw [exec_regRead_of_mapped _ hreg, exec_regRead_of_mapped _ hreg, hread]
    rfl

/-- R56: a register write stores its operand, whatever the timestamp and the queue. -/
theorem Reg.write?_retagged (v : Half) (reg : Reg) :
    reg.write? v (retagged x q s) = (reg.write? v s).map (retagged x q) := by
  cases reg <;> rfl

theorem exec_regWrite_retagged (r : Byte) (v : Half) :
    exec (.regWrite r v) (retagged x q s) = mapNext (retagged x q) (exec (.regWrite r v) s) := by
  simp only [exec, execRegWrite]
  cases Reg.ofNumber r with
  | none => rfl
  | some reg =>
    simp only [Reg.write?_retagged]
    cases reg.write? v s <;> rfl

/-- R59, R197: a command that is not RX_BYTE and does not read RX_TS acts on the rest of the state. -/
theorem exec_retagged {i : Instr} (hbyte : ∀ b, i ≠ .rxByte b) (hread : i = .regRead 0x05 → x = s.rx.ts) :
    exec i (retagged x q s) = mapNext (retagged x q) (exec i s) := by
  cases i with
  | rxByte b => exact absurd rfl (hbyte b)
  | nop | crcRestart | crcAdd | crcValue => rfl
  | rxReset => rw [exec_rxReset, exec_rxReset]; rfl
  | txStart n =>
    simp only [exec, execTxStart, mapNext, apply_ite (retagged x q)]
    rfl
  | txByte b =>
    simp only [exec, execTxByte, mapNext, apply_ite (retagged x q)]
    rfl
  | txEnd f =>
    simp only [exec, execTxEnd, mapNext, apply_ite (retagged x q)]
    rfl
  | txCopy d =>
    simp only [exec, execTxCopy, mapNext, apply_ite (retagged x q)]
    rfl
  | regRead r => exact exec_regRead_retagged x q s fun hr => hread (congrArg Instr.regRead hr)
  | regWrite r v => exact exec_regWrite_retagged x q s r v
  | bufRead k =>
    simp only [exec, execBufRead, mapNext, apply_ite (retagged x q)]
    rfl
  | bufWrite k b =>
    simp only [exec, execBufWrite, mapNext, apply_ite (retagged x q)]
    rfl

end Retagged

/-- R91: no command takes anything from the queue; the step has taken the command itself. -/
theorem exec_keeps_queue {i : Instr} {s t : State} (h : exec i s = .next t) : t.queue = s.queue := by
  cases execFrame_of_exec h with
  | receivesByte | forcesIdle | writesSenderAtMost | restartsAuxCrc | addsToAuxCrc | writesRegister
  | writesBuffer => rfl

/-! The timestamp in IDLE. -/

/-- Settles O54: in IDLE a byte is read by IDLE's arm with the timestamp written, and no other command but a read of
RX_TS sees it. -/
theorem idleTimestampIsUnobservable : Obligations.IdleTimestampIsUnobservable := by
  intro i s t x hidle hread h
  by_cases hbyte : ∃ b, i = .rxByte b
  · obtain ⟨b, rfl⟩ := hbyte
    have hreceive : receive b { s with rx.ts := x } = receive b s := by
      rw [receive_of_idle b hidle, receive_of_idle (s := { s with rx.ts := x }) b hidle]
    simp only [exec, execRxByte, hreceive] at h ⊢
    exact h
  · have hsame : exec i (retagged x s.queue s) = .next (retagged x t.queue t) := by
      rw [exec_retagged x s.queue s (not_exists.mp hbyte) fun hr => absurd hr hread, h, exec_keeps_queue h]
      rfl
    cases i with
    | rxByte b => exact absurd ⟨b, rfl⟩ hbyte
    | _ => exact hsame

/-! The queue. -/

/-- The state with another queue. -/
def requeued (q : List HostInput) (s : State) : State := { s with queue := q }

/-- R38, R174: only RX_BYTE writes the timestamp. -/
theorem exec_keeps_ts {i : Instr} {s t : State} (h : exec i s = .next t) (hbyte : ∀ b, i ≠ .rxByte b) :
    t.rx.ts = s.rx.ts := by
  have hwrite {v : Half} {reg : Reg} {u : State} (hu : reg.write? v s = some u) : u.rx.ts = s.rx.ts := by
    cases reg <;> cases hu <;> rfl
  cases execFrame_of_exec h with
  | receivesByte b => exact absurd rfl (hbyte b)
  | writesRegister n v =>
    obtain ht | ht | ⟨reg, u, -, hu, ht⟩ := exec_regWrite_cases h
    · rw [ht]; rfl
    · rw [ht]; rfl
    · rw [ht]; exact (hwrite hu :)
  | forcesIdle | writesSenderAtMost | restartsAuxCrc | addsToAuxCrc | writesBuffer => rfl

section Requeued
variable (q : List HostInput)

theorem len1Arm_requeued (v : Byte) (s : State) :
    len1Arm v (requeued q s) = (requeued q (len1Arm v s).1, (len1Arm v s).2) := by
  by_cases h : v = 0
  · simp only [len1Arm, if_pos h]
    rfl
  · simp only [len1Arm, if_neg h]
    rfl

theorem idleArm_requeued (v : Byte) (s : State) :
    idleArm v (requeued q s) = (requeued q (idleArm v s).1, (idleArm v s).2) := by
  have hp : (requeued q s).p = s.p := rfl
  rw [idleArm_eq, idleArm_eq, hp]
  split
  · split <;> rfl
  · exact len1Arm_requeued q v { s with rx := freshFrame s.rx }

/-- An arm keeps the timestamp and the ports, so inside a frame it does not see the queue either. -/
theorem rxArm_requeued (v : Byte) (s : State) :
    rxArm v (requeued q s) = (requeued q (rxArm v s).1, (rxArm v s).2) := by
  by_cases hidle : s.rx.state = .idle
  · rw [rxArm_of_idle (s := requeued q s) v hidle, rxArm_of_idle v hidle, idleArm_requeued]
  · obtain ⟨r, x, hframe⟩ := rxArm_frame v s
    have hts : (rxArm v s).1.rx.ts = s.rx.ts := congrArg Prod.fst (untouched_rxArm v s)
    have hports : atPortsOf (requeued q s) (rxArm v s).1 = requeued q (rxArm v s).1 := by
      rw [atPortsOf, ← show (rxArm v s).1.rx.ts = (requeued q s).rx.ts from hts, hframe]
      rfl
    rw [← hports]
    exact rxArm_atPortsOf v (requeued q s) s hidle

theorem receive_requeued (b : Byte) (s : State) :
    receive b (requeued q s) = (requeued q (receive b s).1, (receive b s).2) := by
  by_cases hin : inTime s
  · have hsame : delivered (requeued q s) b = delivered s b := rfl
    rw [receive_of_inTime (s := requeued q s) b hin, receive_of_inTime b hin, hsame]
    cases delivered s b with
    | some v => exact rxArm_requeued q v (atArm s)
    | none =>
      have hp : (requeued q s).p = s.p := rfl
      dsimp only
      rw [hp]
      split <;> rfl
  · rw [receive_of_late (s := requeued q s) b hin, receive_of_late b hin]
    exact idleArm_requeued q b (afterTimeout s)

/-- R91, R197: no command sees the queue. -/
theorem exec_requeued {i : Instr} {s t : State} (h : exec i s = .next t) :
    exec i (requeued q s) = .next (requeued q t) := by
  by_cases hbyte : ∃ b, i = .rxByte b
  · obtain ⟨b, rfl⟩ := hbyte
    cases h
    simp only [exec, execRxByte, receive_requeued]
    rfl
  · have htag := exec_retagged s.rx.ts q s (not_exists.mp hbyte) fun _ => rfl
    have hkept : retagged s.rx.ts q t = requeued q t := by
      rw [← exec_keeps_ts h (not_exists.mp hbyte)]
      rfl
    rw [h] at htag
    exact htag.trans (congrArg Host.Outcome.next hkept)

end Requeued

/-- R91: so a step does not see what is queued behind the item it performs, and leaves that. -/
theorem step_requeued {a : HostInput} {xs : List HostInput} {s t : State}
    (h : step (requeued (a :: xs) s) = .next t) (ys : List HostInput) :
    step (requeued (a :: ys) s) = .next (requeued ys t) ∧ t.queue = xs := by
  cases a with
  | reset =>
    cases (step_of_reset (s := requeued (.reset :: xs) s) rfl).symm.trans h
    exact ⟨step_of_reset rfl, rfl⟩
  | command w now =>
    cases hd : decode w with
    | error e =>
      cases (step_of_decode_error (s := requeued (.command w now :: xs) s) rfl hd).symm.trans h
      exact ⟨step_of_decode_error rfl hd, rfl⟩
    | ok i =>
      have hexec := (step_of_decode_ok (s := requeued (.command w now :: xs) s) rfl hd).symm.trans h
      have hexec' := exec_requeued ys hexec
      exact ⟨(step_of_decode_ok (s := requeued (.command w now :: ys) s) rfl hd).trans hexec',
        exec_keeps_queue hexec⟩

/-- R197: nor does a run see what is queued behind the items it performs. -/
theorem run_requeued {xs ys : List HostInput} (zs : List HostInput) :
    ∀ {s t : State}, Sys2Proof.core.run xs.length (requeued (xs ++ ys) s) = .next t →
      Sys2Proof.core.run xs.length (requeued (xs ++ zs) s) = .next (requeued zs t) ∧ t.queue = ys := by
  induction xs with
  | nil =>
    intro s t h
    cases h
    exact ⟨rfl, rfl⟩
  | cons a xs ih =>
    intro s t h
    obtain ⟨u, hstep⟩ := everyStepCompletes (requeued (a :: (xs ++ ys)) s)
    obtain ⟨hstep', hqueue⟩ := step_requeued hstep (xs ++ zs)
    have hu : requeued (xs ++ ys) u = u := by rw [requeued, ← hqueue]
    rw [List.length_cons, List.cons_append, run_succ hstep, ← hu] at h
    rw [List.length_cons, List.cons_append, run_succ hstep']
    exact ih h

/-- Settles O55: a run of the inputs issued first, whatever is queued behind them. -/
theorem batchingDoesNotMatter : Obligations.BatchingDoesNotMatter := by
  intro s t xs ys h
  have h' : Sys2Proof.core.run xs.length (requeued (xs ++ []) s) = .next t := (List.append_nil xs).symm ▸ h
  obtain ⟨hrun, -⟩ := run_requeued ys h'
  exact hrun

end Sys2Proof.Machine
end

