-- ==== Sys2Proof/Proofs/WireFormat.lean ====
section
/-! PROOFS. The length field and the stuffing of the wire format (spec/30_encoding.md R121 to R126), and the frames that
SEND puts out and that a receiver takes after a gap (R111; spec/41_receiver.md R199). -/

namespace Sys2Proof.Machine

/-! The length field. -/

/-- R121: the first byte of a long length, as a number. -/
theorem toNat_firstLengthByte : ∀ b : Byte, (b &&& 0x7F ||| 0x80).toNat = b.toNat % 128 + 128 := by decide

/-- R121, R84: the bytes of a length field as numbers. -/
theorem lengthBytes_toNat (n : BitVec 14) : (lengthBytes n).map BitVec.toNat =
    if n.toNat ≤ 127 then [n.toNat] else [n.toNat % 128 + 128, n.toNat / 128] := by
  unfold lengthBytes
  split
  next hshort =>
    have hwidth : (n.setWidth 8).toNat = n.toNat := by
      rw [BitVec.toNat_setWidth]
      omega
    rw [List.map_singleton, hwidth]
  next =>
    have hfirst : (n.setWidth 8 &&& 0x7F ||| 0x80 : Byte).toNat = n.toNat % 128 + 128 := by
      rw [toNat_firstLengthByte, BitVec.toNat_setWidth]
      omega
    have hsecond : ((n >>> 7).setWidth 8).toNat = n.toNat / 128 := by
      rw [BitVec.toNat_setWidth, BitVec.toNat_ushiftRight, Nat.shiftRight_eq_div_pow]
      omega
    simp only [List.map_cons, List.map_nil, hfirst, hsecond]

/-- R123: a length up to 127 is read from one byte. -/
theorem short_length_is_read (p : Config.Params) {n : BitVec 14} (hshort : n.toNat ≤ 127) :
    lengthBytes n = [n.setWidth 8] ∧ secondLengthByteFollows p (n.setWidth 8) = false ∧
      (firstLengthPart p (n.setWidth 8)).toNat = n.toNat := by
  have htop : (n.setWidth 8).getLsbD 7 = false := by
    rw [BitVec.getLsbD_setWidth, BitVec.getLsbD]
    simpa using Nat.testBit_lt_two_pow (Nat.lt_succ_of_le hshort)
  have hone : secondLengthByteFollows p (n.setWidth 8) = false := by
    rw [secondLengthByteFollows, htop, Bool.and_false]
  refine ⟨if_pos hshort, hone, ?_⟩
  simp only [firstLengthPart, hone, Bool.false_eq_true, if_false, BitVec.toNat_setWidth]
  omega

/-- R123: a longer one, which needs two-byte lengths, is read from two. -/
theorem long_length_is_read {p : Config.Params} {n : BitVec 14} (hlong : 127 < n.toNat)
    (hmax : n.toNat ≤ p.maxPacket) :
    lengthBytes n = [n.setWidth 8 &&& 0x7F ||| 0x80, (n >>> 7).setWidth 8] ∧
      secondLengthByteFollows p (n.setWidth 8 &&& 0x7F ||| 0x80) = true ∧
      (withSecondLengthPart (firstLengthPart p (n.setWidth 8 &&& 0x7F ||| 0x80))
        ((n >>> 7).setWidth 8)).toNat = n.toNat := by
  have htwo : secondLengthByteFollows p (n.setWidth 8 &&& 0x7F ||| 0x80) = true := by
    have hlongLen : p.longLen = true := decide_eq_true (Nat.lt_of_lt_of_le hlong hmax)
    simp [secondLengthByteFollows, hlongLen]
  refine ⟨if_neg (Nat.not_le.mpr hlong), htwo, ?_⟩
  rw [firstLengthPart, if_pos htwo, withSecondLengthPart_of_long, BitVec.toNat_setWidth]
  omega

/-- Settles O25: the field's numbers, and what a receiver makes of one byte and of two. -/
theorem receiverReadsTheSendersLength : Obligations.ReceiverReadsTheSendersLength := by
  intro inst n hmax
  refine ⟨lengthBytes_toNat n, ?_⟩
  obtain hshort | hlong := le_or_gt n.toNat 127
  · exact .inl ⟨_, short_length_is_read inst.params hshort⟩
  · exact .inr ⟨_, _, long_length_is_read hlong hmax⟩

/-! Stuffing. -/

/-- R126: in the stuffing mode a byte goes out alone, or as ESC and a byte that restores to it. -/
theorem stuffed_cases {inst : Config.Instance} (hstuff : inst.params.stuffEn = true) (x : Byte) :
    stuffed inst.params x = [x] ∧ x ≠ inst.params.marker ∧ x ≠ inst.params.esc ∨
      ∃ y, stuffed inst.params x = [inst.params.esc, y] ∧ restoreTop y = x ∧
        y ≠ inst.params.marker ∧ y ≠ inst.params.esc := by
  obtain ⟨-, hmarker, hesc, -⟩ := stuffing_params (State.resetWith inst) hstuff
  by_cases hx : x = inst.params.marker ∨ x = inst.params.esc
  · have htop : x.getLsbD 7 = true := by
      obtain rfl | rfl := hx
      · exact hmarker
      · exact hesc
    exact .inr ⟨x &&& 0x7F, if_pos ⟨hstuff, hx⟩, clearTop_or_top htop, clearTop_ne hmarker, clearTop_ne hesc⟩
  · exact .inl ⟨if_neg fun h => hx h.2, not_or.mp hx⟩

/-- Settles O26: the marker is neither a byte that goes out alone, nor ESC, nor what follows it. -/
theorem stuffedBodyHidesTheMarker : Obligations.StuffedBodyHidesTheMarker := by
  intro inst hstuff xs
  obtain ⟨-, -, -, hne⟩ := stuffing_params (State.resetWith inst) hstuff
  refine ⟨fun hmem => ?_, stuffed_cases hstuff⟩
  obtain ⟨x, -, hx⟩ := List.mem_flatMap.mp hmem
  obtain ⟨halone, hm, -⟩ | ⟨y, hpair, -, hm, -⟩ := stuffed_cases hstuff x
  · rw [halone, List.mem_singleton] at hx
    exact hm hx.symm
  · rw [hpair, List.mem_cons, List.mem_singleton] at hx
    obtain hx | hx := hx
    · exact hne hx.symm
    · exact hm hx.symm

/-! Whole frames. -/

/-- Settles O57: the run of SEND with nothing queued behind it. -/
theorem sendEmitsTheWireFrame : Obligations.SendEmitsTheWireFrame := by
  intro s payload now hopen hlen hq
  obtain ⟨t, hrun, -, hrx, hqueue, herr, htx⟩ :=
    run_send (rest := []) hopen hlen (hq.trans (List.append_nil _).symm)
  refine ⟨t, hrun, ?_, ?_, ?_, ?_, herr, hrx, hqueue⟩
  all_goals rw [htx]

theorem wireFrame_ne_nil (p : Config.Params) (payload : List Byte) : wireFrame p payload ≠ [] := by
  rw [wireFrame_eq, ← List.append_assoc]
  exact List.append_ne_nil_of_right_ne_nil _ (stuffed_ne_nil _ _)

/-- Settles O58: the first byte is late, so the frame is received as from the state in which the timeout has been
counted and the receiver is idle. -/
theorem frameAfterAGapIsReceived : Obligations.FrameAfterAGapIsReceived := by
  intro s payload arrivals hstate hne hmax hbytes hgaps hlate hq
  cases arrivals with
  | nil => exact absurd hbytes.symm (wireFrame_ne_nil _ _)
  | cons a rest =>
    have hgap : s.p.maxDelay.toNat < (a.2 - s.rx.ts).toNat := hlate a rfl
    have hstep : step s = step (timeoutCounted s) := by
      rw [step_of_feed hq, step_of_feed (s := timeoutCounted s) hq]
      exact exec_rxByte_of_late (s := present a.2 (feed rest) s) a.1 (not_inTime_of_gap hstate hgap)
    obtain ⟨t, hlast, hreceived⟩ :=
      wireFrame_received (s := timeoutCounted s) rfl hne hmax hbytes hgaps hq
    obtain ⟨hrun, hframe, hquiet⟩ := hlast.of_step_eq hstep (Nat.succ_pos _)
    exact ⟨⟨t, hrun, hframe, hreceived.idle, hreceived.flen, hreceived.stored, hreceived.cntTimeout⟩, hquiet⟩

end Sys2Proof.Machine
end

