-- ==== Sys2Proof/Proofs/RelayRun.lean ====
section
/-! PROOFS. A relay of a whole frame (spec/42_transmitter.md R238 to R243): the upstream frame up to its header
milestone, TX_COPY 0 there, and the rest of the frame forwarded byte for byte. -/

namespace Sys2Proof.Machine

/-! A part of a frame, from IDLE. -/

/-- R178: from IDLE, the first bytes of a frame that arrives in time act as the arms do on what they carry. -/
theorem reach_of_frame_head {s q : State} {xs : List Byte} {now rest : List (Byte × Word)}
    (hidle : s.rx.state = .idle) (hne : xs ≠ []) (htakes : TakesBytes (frameStarted s) xs q)
    (hbytes : now.map Prod.fst = markerBytes s.p ++ stuffAll s.p xs) (hgaps : gapsWithin s.p.maxDelay (now ++ rest))
    (hq : s.queue = feed (now ++ rest)) :
    ∃ t, Sys2Proof.core.run now.length s = .next t ∧ Awaits q t rest := by
  cases hmarker : s.p.markerEn
  case true =>
    rw [markerBytes, if_pos hmarker] at hbytes
    obtain ⟨⟨b, clock⟩, more, rfl, rfl, hmore⟩ := List.map_eq_cons_iff.mp hbytes
    obtain ⟨u, hquiet, hu⟩ := Awaits.of_marker hidle hmarker hq hgaps
    obtain ⟨t, hreach, ht⟩ := hu.reach_of_takesBytes htakes hmore
    refine ⟨t, ?_, ht⟩
    rw [List.length_cons, Nat.add_comm]
    exact (run_add hquiet.1 _).trans hreach.1
  case false =>
    rw [markerBytes, if_neg (Bool.eq_false_iff.mp hmarker), List.nil_append] at hbytes
    cases now with
    | nil =>
      obtain ⟨x, xs, rfl⟩ := List.exists_cons_of_ne_nil hne
      exact absurd hbytes.symm (List.append_ne_nil_of_left_ne_nil (stuffed_ne_nil s.p x) _)
    | cons first more =>
      obtain ⟨s', hstep, hs'⟩ := Awaits.of_no_marker hidle hmarker hq hgaps
      obtain ⟨t, hreach, ht⟩ := hs'.reach_of_takesBytes (now := first :: more) htakes hbytes
      exact ⟨t, (run_eq_of_step_eq hstep (Nat.succ_pos _)).trans hreach.1, ht⟩

/-- R185 to R189: some of the payload bytes still due are taken, and what each of them keeps holds after them. -/
theorem InPayload.takes_part {start : State} {J : List Byte → List Byte → State → Prop}
    (hJ : ∀ {got x due q}, InPayload start got (x :: due) q → got.length + (due.length + 1) ≤ start.p.maxPacket →
      J got (x :: due) q → J (got ++ [x]) due (rxArm x q).1) {now later : List Byte} :
    ∀ {got : List Byte} {q : State}, InPayload start got (now ++ later) q →
      got.length + (now ++ later).length ≤ start.p.maxPacket → J got (now ++ later) q →
      ∃ q', TakesBytes q now q' ∧ InPayload start (got ++ now) later q' ∧ J (got ++ now) later q' := by
  induction now with
  | nil =>
    intro got q h _ hj
    rw [List.append_nil]
    exact ⟨q, .nil q, h, hj⟩
  | cons x now ih =>
    intro got q h hmax hj
    have hmax₁ : got.length + ((now ++ later).length + 1) ≤ start.p.maxPacket := hmax
    obtain ⟨hin, hquiet, hnext⟩ := h.next hmax₁
    have hmax₂ : (got ++ [x]).length + (now ++ later).length ≤ start.p.maxPacket := by
      rw [List.length_append, List.length_singleton]
      omega
    obtain ⟨q', htakes, hdone, hj'⟩ := ih hnext hmax₂ (hJ h hmax₁ hj)
    rw [List.append_assoc, List.singleton_append] at hdone hj'
    exact ⟨q', .cons hin hquiet htakes, hdone, hj'⟩

/-- What the payload's progress says of a state does not depend on the sender. -/
theorem InPayload.withSender {start q : State} {got due : List Byte} (h : InPayload start got due q) (tx : Sender) :
    InPayload start got due { q with tx := tx } :=
  ⟨h.inst, h.state, h.len, h.pos, h.crc, h.noEscape, h.stored, h.cntTimeout, h.cntJunk, h.cntCrc, h.cntOverrun⟩

/-! Up to the header milestone. -/

/-- R187: before a relay is opened the sender rests, and HDR has fired once the watched length has arrived. -/
structure BeforeRelay (start : State) (got : List Byte) (q : State) : Prop where
  sender : q.tx = start.tx
  hdrLen : q.rx.hdrLen = start.rx.hdrLen
  hdrFired : q.rx.hdrFired = decide (start.rx.hdrLen.toNat ≤ got.length)

theorem beforeRelay_of_lengthRead {s : State} (n : BitVec 14) (hpos : 1 ≤ s.rx.hdrLen.toNat) :
    BeforeRelay s [] (lengthRead n s) :=
  ⟨rfl, rfl, (decide_eq_false (Nat.not_le.mpr hpos)).symm⟩

/-- R187, R189: a payload byte with no relay open. -/
theorem BeforeRelay.next {start q : State} {got due : List Byte} {x : Byte} (hcopy : start.tx.copy = false)
    (hin : InPayload start got (x :: due) q) (hmax : got.length + (due.length + 1) ≤ start.p.maxPacket)
    (h : BeforeRelay start got q) : BeforeRelay start (got ++ [x]) (rxArm x q).1 := by
  rw [rxArm_of_payload x (hin.due_is_payload hmax)]
  refine ⟨?_, h.hdrLen, ?_⟩
  · have hoff : ¬ q.tx.copy = true := by rw [h.sender, hcopy]; nofun
    exact (if_neg hoff).trans h.sender
  · simp only [payloadReceived, h.hdrFired, h.hdrLen, hin.pos_succ hmax, List.length_append, List.length_singleton]
    rw [← Bool.decide_or]
    exact decide_eq_decide.mpr (by omega)

/-! The relay. -/

/-- R240, R243: the sender of a relay of `n` bytes, opened where `out` had been put out, with the bytes `got` sent. -/
def relaySender (p : Config.Params) (out : List Byte) (n : Nat) (got : List Byte) : Sender where
  out := out ++ markerBytes p ++ stuffAll p (lengthBytes (BitVec.ofNat 14 n) ++ got)
  crc := crcOf p.crcPoly crcSeed (lengthBytes (BitVec.ofNat 14 n) ++ got)
  remain := BitVec.ofNat 14 n - BitVec.ofNat 14 got.length
  isOpen := true
  copy := true
  ovr := false

/-- R240: the header in the buffer is what has arrived of the payload. -/
theorem InPayload.header_eq {start q : State} {got due : List Byte} (h : InPayload start got due q)
    (hcap : got.length ≤ start.p.bufCap) : (List.range q.rx.pos.toNat).map (fun i => memRead i q.rx) = got := by
  rw [h.pos]
  refine List.ext_getElem (by simp) fun i hi hi' => ?_
  rw [List.getElem_map, List.getElem_range]
  exact h.stored i hi' (Nat.lt_of_lt_of_le hi' hcap)

/-- R238, R239: at the header milestone TX_COPY 0 opens a relay of the upstream frame's length. -/
theorem exec_txCopy_at_milestone {start q : State} {got due : List Byte} (o : State)
    (hin : InPayload start got due q) (hbefore : BeforeRelay start got q) (hclosed : start.tx.isOpen = false)
    (hhdr : start.rx.hdrLen.toNat = got.length) (hne : got ≠ []) (hcap : got.length ≤ start.p.bufCap)
    (hmax : got.length + due.length ≤ start.p.maxPacket) :
    exec (.txCopy 0) (atPortsOf o q) = .next (atPortsOf (answered .ok 0 o)
      { q with tx := relaySender start.p start.tx.out (got.length + due.length) got }) := by
  have hp : (atPortsOf o q).p = start.p := congrArg Config.Instance.params hin.inst
  have hlen : relayLength 0 (atPortsOf o q) = (got.length + due.length : Nat) := by
    change (q.rx.len.toNat : Int) + 0 = _
    rw [hin.len, Int.add_zero]
  have hpoint : copyPoint (atPortsOf o q) = true := by
    refine (copyPoint_iff _).mpr ⟨?_, ?_, .inl ?_, ?_⟩
    · exact hbefore.hdrFired.trans (decide_eq_true hhdr.le)
    · have hstate : q.rx.state = _ := hin.state
      rw [if_neg hne] at hstate
      by_cases hdue : due = []
      · exact .inr (.inl (hstate.trans (if_pos hdue)))
      · exact .inl (hstate.trans (if_neg hdue))
    · exact hin.pos.trans (hhdr.symm.trans (congrArg BitVec.toNat hbefore.hdrLen.symm))
    · rw [hp]
      exact hin.pos.trans_le hcap
  have hopen : (atPortsOf o q).tx.isOpen = false := (congrArg Sender.isOpen hbefore.sender).trans hclosed
  have hfits : ((atPortsOf o q).rx.pos.toNat : Int) ≤ relayLength 0 (atPortsOf o q) := by
    rw [hlen]
    exact Int.ofNat_le.mpr (hin.pos.trans_le (Nat.le_add_right _ _))
  have hshort : relayLength 0 (atPortsOf o q) ≤ (atPortsOf o q).p.maxPacket := by
    rw [hlen, hp]
    exact Int.ofNat_le.mpr hmax
  have hhead : relayHead (BitVec.ofNat 14 (got.length + due.length)) (atPortsOf o q).rx =
      lengthBytes (BitVec.ofNat 14 (got.length + due.length)) ++ got :=
    congrArg (lengthBytes _ ++ ·) (hin.header_eq hcap)
  have hpos : (atPortsOf o q).rx.pos.toNat = got.length := hin.pos
  have hout : (atPortsOf o q).tx.out = start.tx.out := congrArg Sender.out hbefore.sender
  rw [exec_txCopy_of_copyPoint hopen hpoint hfits hshort]
  simp only [← ofInt_sub_ofNat, hlen, hp, hpos, hout, BitVec.ofInt_natCast, hhead]
  rfl

/-- R189, R243: the sender while a relay of the frame that started in `start` is open. -/
def Relaying (start : State) (got due : List Byte) (q : State) : Prop :=
  q.tx = relaySender start.p start.tx.out (got.length + due.length) got

/-- R228: the relay still owes the bytes that are due. -/
theorem ofNat_sub_ne_zero {m n : Nat} (h : m < n) (hn : n < 2 ^ 14) : BitVec.ofNat 14 n - BitVec.ofNat 14 m ≠ 0 := by
  intro hzero
  have heq : BitVec.ofNat 14 n = BitVec.ofNat 14 m := by bv_omega
  have htoNat := congrArg BitVec.toNat heq
  simp only [BitVec.toNat_ofNat] at htoNat
  omega

/-- R228, R240: one more payload byte sent on the relay. -/
theorem payloadSent_relaySender (p : Config.Params) (out got : List Byte) (n : Nat) (x : Byte) :
    payloadSent p x (relaySender p out n got) = relaySender p out n (got ++ [x]) := by
  have hleft : BitVec.ofNat 14 n - BitVec.ofNat 14 got.length - 1 =
      BitVec.ofNat 14 n - BitVec.ofNat 14 (got ++ [x]).length := by
    rw [List.length_append, List.length_singleton, BitVec.ofNat_add]
    bv_omega
  simp only [payloadSent, relaySender, hleft, ← List.append_assoc, crcOf_append, crcOf_cons, crcOf_nil,
    stuffAll_append, stuffAll_cons, stuffAll_nil, List.append_nil]

/-- R189, R243: a payload byte is sent on the open relay. -/
theorem Relaying.next {start q : State} {got due : List Byte} {x : Byte} (hin : InPayload start got (x :: due) q)
    (hmax : got.length + (due.length + 1) ≤ start.p.maxPacket) (h : Relaying start got (x :: due) q) :
    Relaying start (got ++ [x]) due (rxArm x q).1 := by
  have hbound := maxPacket_le start
  have hsum : (got ++ [x]).length + due.length = got.length + (x :: due).length := by
    simp only [List.length_append, List.length_cons, List.length_nil]
    omega
  have howed := ofNat_sub_ne_zero (m := got.length) (n := got.length + (x :: due).length)
    (by simp only [List.length_cons]; omega) (by simp only [List.length_cons]; omega)
  have hforwarded : forwarded start.p x (relaySender start.p start.tx.out (got.length + (x :: due).length) got) =
      relaySender start.p start.tx.out (got.length + (x :: due).length) (got ++ [x]) := by
    rw [← payloadSent_relaySender]
    exact (if_pos rfl).trans (if_neg howed)
  rw [Relaying, rxArm_of_payload x (hin.due_is_payload hmax), hin.params_eq, h, hforwarded, hsum]

/-- R191: the second trailer byte of a clean frame closes the relay as a clean frame. -/
theorem InPayload.trailer_ends_relay {start q : State} {payload : List Byte} (h : InPayload start payload [] q) :
    ∃ q', TakesBytes q [hiByte (frameCrc start.p payload)] q' ∧ InFrame q' ∧
      (rxArm (loByte (frameCrc start.p payload)) q').2.frame = true ∧
      (rxArm (loByte (frameCrc start.p payload)) q').1.tx = relayEnded start.p false q.tx := by
  obtain ⟨q', htakes, hin, hframe, -⟩ := h.trailer
  refine ⟨q', htakes, hin, hframe, ?_⟩
  have hstate : q.rx.state = .crc1 := h.state
  cases htakes with
  | cons _ _ hrest =>
    cases hrest
    rw [rxArm_of_crc1 _ hstate] at hframe ⊢
    rw [rxArm_of_crc2 _ rfl, crc2Arm_eq] at hframe ⊢
    split at hframe
    next hzero =>
      rw [if_pos hzero, ← h.params_eq]
      rfl
    next => cases hframe

/-- R243: the relay of a whole payload, closed clean, has put out the wire frame. -/
theorem relayEnded_relaySender (p : Config.Params) (out payload : List Byte) :
    (relayEnded p false (relaySender p out payload.length payload)).out = out ++ wireFrame p payload ∧
      (relayEnded p false (relaySender p out payload.length payload)).isOpen = false := by
  have hnone : (relaySender p out payload.length payload).remain = 0 := BitVec.sub_self _
  have hended : relayEnded p false (relaySender p out payload.length payload) =
      closedFrame p false (relaySender p out payload.length payload) := if_pos rfl
  rw [hended, closedFrame_clean p hnone]
  refine ⟨?_, rfl⟩
  simp only [relaySender, wireFrame, stuffAll_append, List.append_assoc]

/-! The run. -/

/-- R239, R240: after TX_COPY 0 the rest of the frame is still awaited, now with the relay open. -/
theorem Awaits.open_relay {q s : State} {got due : List Byte} {start : State} {rest : List (Byte × Word)}
    (h : Awaits q s rest) (now : Word) (hin : InPayload start got due q) (hbefore : BeforeRelay start got q)
    (hclosed : start.tx.isOpen = false) (hhdr : start.rx.hdrLen.toNat = got.length) (hne : got ≠ [])
    (hcap : got.length ≤ start.p.bufCap) (hmax : got.length + due.length ≤ start.p.maxPacket) :
    ∃ t, step (requeued (issue now (.txCopy 0) :: feed rest) s) = .next t ∧
      Awaits { q with tx := relaySender start.p start.tx.out (got.length + due.length) got } t rest := by
  obtain ⟨⟨o, rfl⟩, -, hgaps⟩ := h
  have hdecode : decode (encode (.txCopy 0)) = .ok (.txCopy 0) := decodeReadsBackEncode _ rfl
  have hexec := exec_txCopy_at_milestone { o with now := now, queue := feed rest } hin hbefore hclosed hhdr hne hcap
    hmax
  exact ⟨_, (step_of_issue rfl hdecode).trans hexec, ⟨⟨_, rfl⟩, rfl, hgaps⟩⟩

/-- R189 to R192: with the relay open, the rest of the frame is forwarded, and its last byte closes the relay. -/
theorem Awaits.relay_rest {start q s : State} {got due : List Byte} {rest : List (Byte × Word)}
    (h : Awaits q s rest) (hin : InPayload start got due q) (hmax : got.length + due.length ≤ start.p.maxPacket)
    (hrelay : Relaying start got due q)
    (hbytes : rest.map Prod.fst =
      stuffAll start.p (due ++ [hiByte (frameCrc start.p (got ++ due))]) ++
        stuffed start.p (loByte (frameCrc start.p (got ++ due)))) :
    ∃ t, Sys2Proof.core.run rest.length s = .next t ∧ reportsFrame t = true ∧
      t.tx = relayEnded start.p false (relaySender start.p start.tx.out (got ++ due).length (got ++ due)) := by
  obtain ⟨a, hpayload, ha, hrelay'⟩ := InPayload.takes_part Relaying.next (now := due) (later := [])
    (by simpa using hin) (by simpa using hmax) (by simpa using hrelay)
  obtain ⟨b, htrailer, hb, hframe, htx⟩ := InPayload.trailer_ends_relay ha
  have htakes := hpayload.append htrailer
  have hp : start.p = q.p := congrArg Config.Instance.params hin.inst.symm
  have hp' : q.p = b.p := congrArg Config.Instance.params htakes.inst.symm
  obtain ⟨body, last, rfl, hbody, hlast⟩ := List.map_eq_append_iff.mp hbytes
  obtain ⟨u, hquiet, hu⟩ := h.reach_of_takesBytes htakes (hp ▸ hbody)
  have hlast' : last.map Prod.fst = stuffed b.p (loByte (frameCrc start.p (got ++ due))) := by
    rw [← hp', ← hp]
    exact hlast
  rw [← List.append_nil last] at hu
  obtain ⟨m, v, t, hlen, hquiet', hstep, hreport, ht⟩ := hu.reach_of_stuffed hb hlast'
  obtain ⟨o, rfl⟩ := ht.atPorts
  refine ⟨_, ?_, hreport.trans hframe, htx.trans (by rw [hrelay', List.length_nil, Nat.add_zero])⟩
  rw [List.length_append, hlen, run_add hquiet.1, run_add hquiet'.1, run_succ hstep, run_zero]

/-- R120: the rest of a wire frame behind the first payload bytes. -/
theorem wireFrame_rest {p : Config.Params} {got due : List Byte} {before after : List Byte}
    (hbefore : before = markerBytes p ++ stuffAll p (lengthBytes (BitVec.ofNat 14 (got ++ due).length) ++ got))
    (hframe : before ++ after = wireFrame p (got ++ due)) :
    after = stuffAll p (due ++ [hiByte (frameCrc p (got ++ due))]) ++ stuffed p (loByte (frameCrc p (got ++ due))) := by
  rw [wireFrame_eq, hbefore] at hframe
  simp only [stuffAll_append, List.append_assoc] at hframe ⊢
  exact List.append_cancel_left (List.append_cancel_left (List.append_cancel_left hframe))

/-- R243, with the payload cut at the header milestone: `got` is the header, `due` the rest. -/
theorem run_relay {s : State} {got due : List Byte} {before after : List (Byte × Word)} {now : Word}
    (hidle : s.rx.state = .idle) (hclosed : s.tx.isOpen = false) (hcopy : s.tx.copy = false)
    (hhdr : s.rx.hdrLen.toNat = got.length) (hne : got ≠ []) (hmax : got.length + due.length ≤ s.p.maxPacket)
    (hcap : got.length ≤ s.p.bufCap)
    (hbefore : before.map Prod.fst =
      markerBytes s.p ++ stuffAll s.p (lengthBytes (BitVec.ofNat 14 (got ++ due).length) ++ got))
    (hframe : (before ++ after).map Prod.fst = wireFrame s.p (got ++ due))
    (hgaps : gapsWithin s.p.maxDelay (before ++ after)) (hq : s.queue = feed (before ++ after)) :
    ∃ t, Sys2Proof.core.run (before.length + 1 + after.length)
        (requeued (feed before ++ issue now (.txCopy 0) :: feed after) s) = .next t ∧ reportsFrame t = true ∧
      t.tx = relayEnded s.p false (relaySender s.p s.tx.out (got ++ due).length (got ++ due)) := by
  have hbound := maxPacket_le s
  have hpos : 0 < got.length := List.length_pos_iff.mpr hne
  have hlen : (got ++ due).length = got.length + due.length := List.length_append
  have hn : (BitVec.ofNat 14 (got ++ due).length).toNat = (got ++ due).length := by
    rw [BitVec.toNat_ofNat]
    omega
  have hlength := takes_length s (n := BitVec.ofNat 14 (got ++ due).length) (by omega) (by omega)
  have hstart := inPayload_of_lengthRead s (payload := got ++ due) (by simp [hne]) (by omega)
  obtain ⟨a, hpayload, ha, hmilestone⟩ := InPayload.takes_part (J := fun got _ q => BeforeRelay s got q)
    (BeforeRelay.next hcopy) hstart (by simp only [List.length_nil]; omega)
    (beforeRelay_of_lengthRead _ (hhdr ▸ hpos))
  rw [List.nil_append] at ha hmilestone
  obtain ⟨u, hrun, hu⟩ := reach_of_frame_head (rest := after) hidle
    (List.append_ne_nil_of_right_ne_nil _ hne) (hlength.append hpayload) hbefore hgaps hq
  have hsplit : requeued (feed before ++ feed after) s = s := by
    rw [requeued, feed, feed, ← List.map_append, ← feed, ← hq]
  have hcount : (feed before).length = before.length := List.length_map _
  rw [← hsplit, ← hcount] at hrun
  obtain ⟨hrun', -⟩ := run_requeued (issue now (.txCopy 0) :: feed after) hrun
  obtain ⟨v, hopen, hv⟩ := hu.open_relay now ha hmilestone hclosed hhdr hne hcap hmax
  have hrest := wireFrame_rest hbefore (List.map_append ▸ hframe)
  obtain ⟨t, hrun'', hreport, htx⟩ := hv.relay_rest (ha.withSender _) hmax rfl hrest
  refine ⟨t, ?_, hreport, htx⟩
  rw [Nat.add_assoc, ← hcount, run_add hrun', Nat.add_comm 1, run_succ hopen, hrun'']

/-- Settles O60: the payload cut at the watched length. -/
theorem relayReproducesTheFrame : Obligations.RelayReproducesTheFrame := by
  intro s payload before after now hidle hclosed hcopy hpos hle hmax hcap hbefore hframe hgaps hq
  have hsplit : payload.take s.rx.hdrLen.toNat ++ payload.drop s.rx.hdrLen.toNat = payload :=
    List.take_append_drop _ _
  have hhdr : (payload.take s.rx.hdrLen.toNat).length = s.rx.hdrLen.toNat := List.length_take_of_le hle
  generalize payload.take s.rx.hdrLen.toNat = got at *
  generalize payload.drop s.rx.hdrLen.toNat = due at *
  subst hsplit
  obtain ⟨t, hrun, hreport, htx⟩ := run_relay (s := requeued (feed (before ++ after)) s) (now := now) hidle hclosed
    hcopy hhdr.symm (List.ne_nil_of_length_pos (hhdr.symm ▸ hpos)) (by rwa [← List.length_append]) (hhdr.symm ▸ hcap)
    hbefore hframe hgaps rfl
  have hqueue : requeued (feed before ++ issue now (.txCopy 0) :: feed after) (requeued (feed (before ++ after)) s) =
      s := by rw [← hq]; rfl
  rw [hqueue] at hrun
  obtain ⟨hout, hopen⟩ := relayEnded_relaySender s.p s.tx.out (got ++ due)
  exact ⟨t, hrun, htx ▸ hout, htx ▸ hopen, htx ▸ relayEnded_copy _ _ _, hreport⟩

end Sys2Proof.Machine
end
